-- ==== Sys2Proof/Word.lean ====
section
/-! DEFINITION. The two word types of the block: bytes (R15) and 32-bit registers (R16). -/

namespace Sys2Proof

/-- A byte, "an integer in 0..255" (00_scope.md R15). -/
abbrev Byte := BitVec 8

/-- A 32-bit register or command word, bit 31 the most significant (00_scope.md R16). -/
abbrev Word := BitVec 32

end Sys2Proof
end

