-- ==== Sys2Proof/Config.lean ====
section
/-! DEFINITION. The named parameters the spec leaves open (92_eei_decisions.md, "Open parameters"). -/

namespace Sys2Proof

/-- The parameter a rule reads: `BUF_SIZE` (00_scope.md R12), "left open. A model takes it as an argument".
The machine's fixed signatures have no argument for it, so State carries this record and no step writes it
(log entry 1): a statement over every state holds for every `BUF_SIZE`. -/
structure Config where
  bufSize : Nat
  deriving DecidableEq, Repr

/-- The legal values of R12: "multiples of 16 with 256 ≤ BUF_SIZE ≤ 0xF000". -/
abbrev Config.legal (c : Config) : Prop :=
  c.bufSize % 16 = 0 ∧ 256 ≤ c.bufSize ∧ c.bufSize ≤ 0xF000

/-- The reference value 4096 of R12, the one every test vector uses. DESIGN CHOICE of `State.reset`, log entry 1. -/
def Config.reference : Config := ⟨4096⟩

/-- `CORE_BASE` (60_exceptions.md R352): where the platform places the block's window. No rule reads it. -/
opaque Config.coreBase : Nat

/-- `LATENCY(cmd, DLEN)` (00_scope.md R14, 70_reset_and_hazards.md R381): cycles of a command. No rule reads it. -/
opaque Config.latency : BitVec 4 → Word → Nat

end Sys2Proof
end

