-- ==== Sys2Proof/Syntax/Fields.lean ====
section
/-! DEFINITION. The closed sets of names a command field, a register field or an error report takes. -/

namespace Sys2Proof

/-- The algorithms of the ALG field (30_encoding.md R113); code 3 is reserved and never becomes one. -/
inductive Alg where
  | des
  | tdes
  | aes
  deriving DecidableEq, Repr

/-- The modes of the MODE field (30_encoding.md R114). -/
inductive Mode where
  | ecb
  | cbc
  deriving DecidableEq, Repr

/-- The codes of the STYLE field (30_encoding.md R117). Code 3 "is representable": it is the source's
"unrecognized" style, which PAD and UNPAD report when they execute. -/
inductive Style where
  | pkcs7
  | x923
  | iso7816
  | unrecognized
  deriving DecidableEq, Repr

/-- The direction argument of MODE_APPLY (44_modes.md R286). -/
inductive Dir where
  | enc
  | dec
  deriving DecidableEq, Repr

/-- The error kinds of 60_exceptions.md R340. -/
inductive ErrKind where
  | configurationError
  | dataIntegrityError
  | commandError
  deriving DecidableEq, Repr

/-- The detail codes of 60_exceptions.md R341, in the table's order. -/
inductive Detail where
  | keyLen
  | ivLen
  | dataLen
  | blockSize
  | style
  | unpadLen
  | noContext
  | bounds
  | padRange
  | padPattern
  | noMarker
  | markerTrail
  | badOpc
  | reservedField
  | badAlg
  deriving DecidableEq, Repr

end Sys2Proof
end

