-- ==== Sys2Proof/Syntax.lean ====
section
/-! DEFINITION. The commands of the block, one constructor per row of the opcode table (30_encoding.md R111, R112). -/

namespace Sys2Proof

/-- A command. Each row carries exactly its operand fields (R112); a length is "read zero-extended as a natural
number" (R124), and `WellFormed.lean` says which naturals a word can hold. -/
inductive Instr where
  /-- OPC 1: construct a context (45_commands.md R301). -/
  | init (alg : Alg) (mode : Mode) (ivp : Bool) (keylen : Nat) (ivlen : Nat)
  /-- OPC 2: encrypt on the current context (R302). -/
  | encrypt
  /-- OPC 3: decrypt on the current context (R303). -/
  | decrypt
  /-- OPC 4: pad the data in place (R304). -/
  | pad (bs : Nat) (style : Style)
  /-- OPC 5: validate and remove padding (R305). -/
  | unpad (bs : Nat) (style : Style)
  /-- OPC 6: AES-CBC decrypt on a temporary context, then strip pkcs7 padding (R306). -/
  | decryptUnpad (ivp : Bool) (bs : Nat) (keylen : Nat) (ivlen : Nat)
  /-- OPC 7: destroy the context (R307). -/
  | release
  deriving DecidableEq, Repr

end Sys2Proof
end

