-- ==== Sys2Proof/WellFormed.lean ====
section
/-! DEFINITION. Which commands a 32-bit word can hold: every length in the range of its field (30_encoding.md R110). -/

namespace Sys2Proof

/-- KEYLEN is 6 bits wide, "0..63" (30_encoding.md R118). -/
abbrev keylenFits (n : Nat) : Prop := n < 64

/-- IVLEN is 5 bits wide, "0..31" (30_encoding.md R119). -/
abbrev ivlenFits (n : Nat) : Prop := n < 32

/-- BS is 8 bits wide, "0..255" (30_encoding.md R116). -/
abbrev bsFits (n : Nat) : Prop := n < 256

/-- A command is well-formed when each of its lengths fits its field. Values that fit and are illegal when the
command executes (BS = 0, KEYLEN = 40, STYLE = 3) are well-formed: the command reports them (R116 to R119). -/
def Instr.wf : Instr → Bool
  | .init _ _ _ keylen ivlen => decide (keylenFits keylen) && decide (ivlenFits ivlen)
  | .encrypt => true
  | .decrypt => true
  | .pad bs _ => decide (bsFits bs)
  | .unpad bs _ => decide (bsFits bs)
  | .decryptUnpad _ bs keylen ivlen =>
      decide (bsFits bs) && decide (keylenFits keylen) && decide (ivlenFits ivlen)
  | .release => true

end Sys2Proof
end

