-- ==== Sys2Proof/Decode.lean ====
section
/-! DEFINITION. The command word: its fields, the opcode table, DECODE, and the encoder
(30_encoding.md R110 to R125). -/

namespace Sys2Proof

/-! ## The fields of a word (R110) -/

/-- Bits 3:0 of a command word (30_encoding.md R110, R111). -/
def Word.opc (w : Word) : BitVec 4 := w.extractLsb' 0 4

/-- Bits 5:4, ALG (R113). -/
def Word.alg (w : Word) : BitVec 2 := w.extractLsb' 4 2

/-- Bit 6, MODE (R114). -/
def Word.mode (w : Word) : BitVec 1 := w.extractLsb' 6 1

/-- Bit 7, IVP (R115). -/
def Word.ivp (w : Word) : BitVec 1 := w.extractLsb' 7 1

/-- Bits 15:8, BS (R116). -/
def Word.bs (w : Word) : BitVec 8 := w.extractLsb' 8 8

/-- Bits 17:16, STYLE (R117). -/
def Word.style (w : Word) : BitVec 2 := w.extractLsb' 16 2

/-- Bits 23:18, KEYLEN (R118). -/
def Word.keylen (w : Word) : BitVec 6 := w.extractLsb' 18 6

/-- Bits 28:24, IVLEN (R119). -/
def Word.ivlen (w : Word) : BitVec 5 := w.extractLsb' 24 5

/-- Bits 31:29, RSV, "must be 0" (R121). -/
def Word.rsv (w : Word) : BitVec 3 := w.extractLsb' 29 3

/-- The one format CMD32 (R110): a word put together from its fields, most significant first. -/
def packWord (rsv : BitVec 3) (ivlen : BitVec 5) (keylen : BitVec 6) (style : BitVec 2) (bs : BitVec 8)
    (ivp : BitVec 1) (mode : BitVec 1) (alg : BitVec 2) (opc : BitVec 4) : Word :=
  rsv ++ (ivlen ++ (keylen ++ (style ++ (bs ++ (ivp ++ (mode ++ (alg ++ opc)))))))

/-! ## Field codes -/

/-- The ALG code of an algorithm (R113). -/
def Alg.code : Alg → BitVec 2
  | .des => 0
  | .tdes => 1
  | .aes => 2

/-- R113, with code 3 reserved. -/
def Alg.ofCode (c : BitVec 2) : Option Alg :=
  if c = 0 then some .des else if c = 1 then some .tdes else if c = 2 then some .aes else none

/-- The MODE code of a mode (R114). -/
def Mode.code : Mode → BitVec 1
  | .ecb => 0
  | .cbc => 1

/-- R114: "Both are legal." -/
def Mode.ofCode (c : BitVec 1) : Mode := if c = 0 then .ecb else .cbc

/-- The STYLE code of a style (R117). -/
def Style.code : Style → BitVec 2
  | .pkcs7 => 0
  | .x923 => 1
  | .iso7816 => 2
  | .unrecognized => 3

/-- R117; every code is representable. -/
def Style.ofCode (c : BitVec 2) : Style :=
  if c = 0 then .pkcs7 else if c = 1 then .x923 else if c = 2 then .iso7816 else .unrecognized

/-! ## The opcode table (R111, R112) -/

/-- One row of R112: its OPC, the fixed bits and which bits are fixed. -/
structure OpcodeRow where
  opc : BitVec 4
  fixed : Word
  mask : Word
  deriving DecidableEq, Repr

/-- The row of INIT. -/
def rowInit : OpcodeRow := ⟨0x1, 0x00000001, 0xE003FF0F⟩
/-- The row of ENCRYPT. -/
def rowEncrypt : OpcodeRow := ⟨0x2, 0x00000002, 0xFFFFFFFF⟩
/-- The row of DECRYPT. -/
def rowDecrypt : OpcodeRow := ⟨0x3, 0x00000003, 0xFFFFFFFF⟩
/-- The row of PAD. -/
def rowPad : OpcodeRow := ⟨0x4, 0x00000004, 0xFFFC00FF⟩
/-- The row of UNPAD. -/
def rowUnpad : OpcodeRow := ⟨0x5, 0x00000005, 0xFFFC00FF⟩
/-- The row of DECRYPT_UNPAD. -/
def rowDecryptUnpad : OpcodeRow := ⟨0x6, 0x00000006, 0xE003007F⟩
/-- The row of RELEASE. -/
def rowRelease : OpcodeRow := ⟨0x7, 0x00000007, 0xFFFFFFFF⟩

/-- The table of R112. -/
def opcodeTable : List OpcodeRow :=
  [rowInit, rowEncrypt, rowDecrypt, rowPad, rowUnpad, rowDecryptUnpad, rowRelease]

/-- "A word `w` encodes mnemonic M exactly when `(w AND mask_M) = match_M`" (R112). -/
def OpcodeRow.encodedBy (r : OpcodeRow) (w : Word) : Bool := (w &&& r.mask) == r.fixed

/-- The row an OPC selects (R111); none for the reserved values 0x0 and 0x8 to 0xF (R120). -/
def rowOf (opc : BitVec 4) : Option OpcodeRow := opcodeTable.find? (fun r => r.opc == opc)

/-- The row of a command. -/
def Instr.row : Instr → OpcodeRow
  | .init _ _ _ _ _ => rowInit
  | .encrypt => rowEncrypt
  | .decrypt => rowDecrypt
  | .pad _ _ => rowPad
  | .unpad _ _ => rowUnpad
  | .decryptUnpad _ _ _ _ => rowDecryptUnpad
  | .release => rowRelease

/-- The OPC of a command (R111). -/
def Instr.opc (i : Instr) : BitVec 4 := i.row.opc

/-! ## DECODE (R123) -/

/-- The answer of DECODE: a command, or `Illegal(d)` by the name of its detail code. -/
inductive Decoded where
  | cmd (i : Instr)
  | illegal (d : Detail)
  deriving DecidableEq, Repr

/-- The command of a word whose OPC is `opc` and whose must-be-zero fields are zero: the last two lines of
R123's DECODE, the BAD_ALG check and the reading of the operand fields. -/
def decodeOperands (opc : BitVec 4) (w : Word) : Decoded :=
  if opc = 0x1 then
    match Alg.ofCode (Word.alg w) with
    | none => .illegal .badAlg
    | some alg =>
      .cmd (.init alg (Mode.ofCode (Word.mode w)) (Word.ivp w == 1) (Word.keylen w).toNat (Word.ivlen w).toNat)
  else if opc = 0x2 then .cmd .encrypt
  else if opc = 0x3 then .cmd .decrypt
  else if opc = 0x4 then .cmd (.pad (Word.bs w).toNat (Style.ofCode (Word.style w)))
  else if opc = 0x5 then .cmd (.unpad (Word.bs w).toNat (Style.ofCode (Word.style w)))
  else if opc = 0x6 then
    .cmd (.decryptUnpad (Word.ivp w == 1) (Word.bs w).toNat (Word.keylen w).toNat (Word.ivlen w).toNat)
  else if opc = 0x7 then .cmd .release
  else .illegal .badOpc

/-- DECODE (R123): "total on every 32-bit word". The order of the checks is R123's and R346's steps 1 to 3. -/
def decode (w : Word) : Decoded :=
  match rowOf (Word.opc w) with
  | none => .illegal .badOpc
  | some r =>
    if w &&& r.mask &&& ~~~(0xF : Word) ≠ 0 then .illegal .reservedField
    else decodeOperands (Word.opc w) w

/-! ## The encoder (R125) -/

/-- One bit from a truth value (IVP, R115). -/
def boolBit (b : Bool) : BitVec 1 := if b then 1 else 0

/-- The word of a command: "Fields that are not named are 0" (R125). -/
def encode : Instr → Word
  | .init alg mode ivp keylen ivlen =>
      packWord 0 (BitVec.ofNat 5 ivlen) (BitVec.ofNat 6 keylen) 0 0 (boolBit ivp) mode.code alg.code 0x1
  | .encrypt => packWord 0 0 0 0 0 0 0 0 0x2
  | .decrypt => packWord 0 0 0 0 0 0 0 0 0x3
  | .pad bs style => packWord 0 0 0 style.code (BitVec.ofNat 8 bs) 0 0 0 0x4
  | .unpad bs style => packWord 0 0 0 style.code (BitVec.ofNat 8 bs) 0 0 0 0x5
  | .decryptUnpad ivp bs keylen ivlen =>
      packWord 0 (BitVec.ofNat 5 ivlen) (BitVec.ofNat 6 keylen) 0 (BitVec.ofNat 8 bs) (boolBit ivp) 0 0 0x6
  | .release => packWord 0 0 0 0 0 0 0 0 0x7

/-! ## The host's view of the table -/

/-- The word whose bits, numbered as the opcode table numbers them, are `w` below `nbits` and 0 from there on. -/
def tableWord (nbits w : Nat) : Word := BitVec.ofNat 32 (w % 2 ^ nbits)

/-- The instruction DECODE reads from that word; none where DECODE refuses it. Every command is exactly 32 bits
(R122), so a row of more bits is none. -/
def decodeTableWord (nbits w : Nat) : Option Instr :=
  if nbits ≤ 32 then
    match decode (tableWord nbits w) with
    | .cmd i => some i
    | .illegal _ => none
  else none

end Sys2Proof
end

