-- ==== Sys2Proof/Machine/State.lean ====
section
/-! DEFINITION. The state record of 10_state.md R32 as plain data, the host's events, the reasons a step stops,
and reset (70_reset_and_hazards.md R370). -/

namespace Sys2Proof.Machine

/-- A window of byte cells (KEY_IN, IV_IN or DBUF) as (index, byte) pairs. An index not listed is UNWRITTEN
(10_state.md R50). -/
abbrev Memory := List Host.Cell

/-- The one canonical form of a window: indices strictly rising. An unlisted cell holds no value, so no listed
cell can equal it. -/
abbrev Memory.wf (m : Memory) : Prop := m.Pairwise (fun c d => c.1 < d.1)

/-- The context's configuration, the CTX component of R32 and R37. BS is not separate state (R38). ALG is one of
three names, since R37 says "value 3 never held". -/
structure Ctx where
  valid : Bool
  alg : Alg
  mode : Mode
  keylen : BitVec 6
  deriving DecidableEq, Repr

/-- CTX with no context: VALID 0, ALG 0, MODE 0, KEYLEN 0 (R37, R370). -/
def Ctx.empty : Ctx := ⟨false, .des, .ecb, 0⟩

/-- How wide a host access is. Only `word` is an access the port has; a narrower one is a host fault
(20_memory.md R82, R83). -/
inductive AccessWidth where
  | byte
  | half
  | word
  deriving DecidableEq, Repr

/-- What the outside world can do to the block: a bus read, a bus write (20_memory.md R87, R88), or the reset
input RST, "a step of its own" (70_reset_and_hazards.md R370). Offsets are the 16-bit byte offsets of R80. -/
inductive HostEvent where
  | read (width : AccessWidth) (offset : BitVec 16)
  | write (width : AccessWidth) (offset : BitVec 16) (value : Word)
  | reset
  deriving DecidableEq, Repr

/-- The complete architectural state (R32), and around it three fields that are not the block's:
`cfg`, the configuration the block was built with (log entry 1); `pending`, the host's events still to come,
oldest first, which is the "program counter" of R31 (log entry 2); `reads`, the words the host's reads have
returned, oldest first (log entry 3). -/
structure State where
  /-- The parameters of the block: configuration, not state (R32, R40). No step writes it. -/
  cfg : Config
  /-- CMDR, the CMD readback (R33). -/
  cmdr : Word
  /-- STATUS (R34). -/
  status : Word
  /-- CTX (R37). -/
  ctx : Ctx
  /-- CKEY, hidden (R46). -/
  ckey : List Byte
  /-- DLEN (R39). -/
  dlen : Word
  /-- KEY_IN (R42). -/
  keyIn : Memory
  /-- IV_IN (R43). -/
  ivIn : Memory
  /-- CHAIN (R44). -/
  chain : Vector Byte 16
  /-- DBUF (R45). -/
  dbuf : Memory
  /-- The host's position in its access list (R31). -/
  pending : List HostEvent
  /-- The data the host's reads have returned (R87). -/
  reads : List Word
  deriving DecidableEq, Repr

/-- Why a step stops: the model faults of 60_exceptions.md R356. All three are safe: the machine stops where the
hardware goes on, "Each fault errs toward unprovable". -/
inductive Fault where
  /-- UNWRITTEN_READ: a host read of a word of KEY_IN, IV_IN or DBUF that has an UNWRITTEN byte (R50, R87).
  Raised by the bus read. Safe. -/
  | unwrittenRead
  /-- UNWRITTEN_USE: a command consumes an UNWRITTEN byte of KEY_IN, IV_IN or DBUF, and no check that its written
  operands settle fails (R50, R356; log entry 4). Raised by INIT, ENCRYPT, DECRYPT, UNPAD and DECRYPT_UNPAD. Safe. -/
  | unwrittenUse
  /-- BUS_MISALIGNED: a host access at an offset not a multiple of 4, or narrower than 32 bits (20_memory.md R83).
  Raised by the bus. Safe. -/
  | busMisaligned
  deriving DecidableEq, Repr

/-- Why an instruction has no meaning. -/
inductive Refusal where
  /-- Raised only by an arm of `exec` whose instruction has no meaning yet; no arm does. Safe. -/
  | notModelled (mnemonic : String)
  deriving DecidableEq, Repr

/-- RESET (70_reset_and_hazards.md R370) of a block built with the configuration `c`: registers zero, no context,
CHAIN zero, every window cell UNWRITTEN. -/
def State.resetWith (c : Config) : State where
  cfg := c
  cmdr := 0
  status := 0
  ctx := Ctx.empty
  ckey := []
  dlen := 0
  keyIn := []
  ivIn := []
  chain := #v[0, 0, 0, 0, 0, 0, 0, 0, 0, 0, 0, 0, 0, 0, 0, 0]
  dbuf := []
  pending := []
  reads := []

/-- The machine right after reset, with the reference configuration (log entry 1) and no host access to come. -/
def State.reset : State := State.resetWith Config.reference

end Sys2Proof.Machine
end

