-- ==== Sys2Proof/Machine/Flags.lean ====
section
/-! DEFINITION. STATUS and its fields (10_state.md R34), the codes of 60_exceptions.md R340 and R341, and the two
words a command can leave in it (R342). -/

namespace Sys2Proof.Machine

/-- The ERR_KIND of an error kind (60_exceptions.md R340). -/
def errKindCode : ErrKind → BitVec 2
  | .configurationError => 1
  | .dataIntegrityError => 2
  | .commandError => 3

/-- The kind a detail belongs to (R341, column "kind"). -/
def detailKind : Detail → ErrKind
  | .keyLen => .configurationError
  | .ivLen => .configurationError
  | .dataLen => .configurationError
  | .blockSize => .configurationError
  | .style => .configurationError
  | .unpadLen => .configurationError
  | .noContext => .configurationError
  | .bounds => .configurationError
  | .padRange => .dataIntegrityError
  | .padPattern => .dataIntegrityError
  | .noMarker => .dataIntegrityError
  | .markerTrail => .dataIntegrityError
  | .badOpc => .commandError
  | .reservedField => .commandError
  | .badAlg => .commandError

/-- The ERR_DETAIL code of a detail (R341, column "code"). -/
def detailCode : Detail → BitVec 8
  | .keyLen => 0x01
  | .ivLen => 0x02
  | .dataLen => 0x03
  | .blockSize => 0x04
  | .style => 0x05
  | .unpadLen => 0x06
  | .noContext => 0x07
  | .bounds => 0x08
  | .padRange => 0x11
  | .padPattern => 0x12
  | .noMarker => 0x13
  | .markerTrail => 0x14
  | .badOpc => 0x21
  | .reservedField => 0x22
  | .badAlg => 0x23

/-- SUCCESS_WORD of a command word whose bits 3:0 are `opc` (R342). -/
def successWord (opc : BitVec 4) : Word := opc.setWidth 32 <<< 16

/-- FAIL_WORD of a command word whose bits 3:0 are `opc`, for the detail `d` and its kind (R342). -/
def failWord (opc : BitVec 4) (d : Detail) : Word :=
  (opc.setWidth 32 <<< 16) ||| ((detailCode d).setWidth 32 <<< 8) |||
    ((errKindCode (detailKind d)).setWidth 32 <<< 2) ||| 0b10

/-- STATUS.BUSY, bit 0 (10_state.md R34, R35). -/
def statusBusy (w : Word) : BitVec 1 := w.extractLsb' 0 1

/-- STATUS.ERR, bit 1 (R34). -/
def statusErr (w : Word) : BitVec 1 := w.extractLsb' 1 1

/-- STATUS.ERR_KIND, bits 3:2 (R34). -/
def statusErrKind (w : Word) : BitVec 2 := w.extractLsb' 2 2

/-- STATUS.ERR_DETAIL, bits 15:8 (R34). -/
def statusErrDetail (w : Word) : BitVec 8 := w.extractLsb' 8 8

/-- STATUS.LAST_OPC, bits 19:16 (R34). -/
def statusLastOpc (w : Word) : BitVec 4 := w.extractLsb' 16 4

/-- STATUS's reserved bits 7:4 and 31:20, together (R34). -/
def statusReserved (w : Word) : Word := w &&& 0xFFF000F0

end Sys2Proof.Machine
end

