-- ==== Sys2Proof/Machine/Ops.lean ====
section
/-! DEFINITION. The shared operations: byte strings and their words (00_scope.md R15 to R18, 20_memory.md R84),
window cells (10_state.md R50), CHAIN, and the command frame (45_commands.md R300) with its two ends, success
and the reporting of an error (60_exceptions.md R342, R343). -/

namespace Sys2Proof.Machine

/-! ## Byte strings (00_scope.md R15, R17) -/

/-- `bytes(n, v)` (R15). -/
def bytesOf (n : Nat) (v : Byte) : List Byte := List.replicate n v

/-- `a XOR b` on byte strings of equal length (R15). -/
def xorBytes (a b : List Byte) : List Byte := List.zipWith (fun x y => x ^^^ y) a b

/-- The half-open slice `b[lo..hi)` (R15). -/
def slice (b : List Byte) (lo hi : Nat) : List Byte := (b.drop lo).take (hi - lo)

/-- `be32` of the first four bytes, byte 0 most significant (R17). -/
def be32 (b : List Byte) : Word :=
  (b.getD 0 0 ++ (b.getD 1 0 ++ (b.getD 2 0 ++ b.getD 3 0)) : BitVec (8 + (8 + (8 + 8))))

/-- `be32inv` (R17). -/
def be32inv (w : Word) : List Byte :=
  [w.extractLsb' 24 8, w.extractLsb' 16 8, w.extractLsb' 8 8, w.extractLsb' 0 8]

/-- `be64` of an 8-byte block: byte 0 holds bits 1 to 8 (R17). -/
def be64 (b : List Byte) : BitVec 64 := (be32 b ++ be32 (b.drop 4) : BitVec (32 + 32))

/-- `be64inv` (R17). -/
def be64inv (v : BitVec 64) : List Byte := be32inv (v.extractLsb' 32 32) ++ be32inv (v.extractLsb' 0 32)

/-- The little-endian bus lanes of 20_memory.md R84: `X[0] | X[1] << 8 | X[2] << 16 | X[3] << 24`. -/
def laneWord (x0 x1 x2 x3 : Byte) : Word := (x3 ++ (x2 ++ (x1 ++ x0)) : BitVec (8 + (8 + (8 + 8))))

/-- The four bytes a bus word stores, `X[i] <- word[8i+7 : 8i]` (R84). -/
def laneBytes (w : Word) : List Byte :=
  [w.extractLsb' 0 8, w.extractLsb' 8 8, w.extractLsb' 16 8, w.extractLsb' 24 8]

/-! ## Window cells (10_state.md R50) -/

/-- The byte a cell holds, none while it is UNWRITTEN. -/
def Memory.get : Memory → Nat → Option Byte
  | [], _ => none
  | (k, b) :: m, a => if k = a then some b else Memory.get m a

/-- The `n` bytes from index `a`, none if any of them is UNWRITTEN (R18's MemRead, KeyRead and IvRead). -/
def Memory.read (m : Memory) (a : Nat) : Nat → Option (List Byte)
  | 0 => some []
  | n + 1 =>
    match Memory.get m a with
    | none => none
    | some b =>
      match Memory.read m (a + 1) n with
      | none => none
      | some bs => some (b :: bs)

/-- What the `n` cells from index `a` hold, an UNWRITTEN cell as none (R50). -/
def Memory.cells (m : Memory) (a : Nat) : Nat → List (Option Byte)
  | 0 => []
  | n + 1 => Memory.get m a :: Memory.cells m (a + 1) n

/-- The bytes of cells that are all written, none if any is UNWRITTEN. -/
def cellBytes : List (Option Byte) → Option (List Byte)
  | [] => some []
  | none :: _ => none
  | some b :: cs => (cellBytes cs).map (fun bs => b :: bs)

/-- The cells of a byte string laid out from index `a`. -/
def cellsFrom (a : Nat) : List Byte → Memory
  | [] => []
  | b :: bs => (a, b) :: cellsFrom (a + 1) bs

/-- `X[a+i] <- s[i]` (R18's MemWrite): the run replaces the cells it covers, in canonical form. -/
def Memory.write (m : Memory) (a : Nat) (s : List Byte) : Memory :=
  m.filter (fun c => c.1 < a) ++ cellsFrom a s ++ m.filter (fun c => a + s.length ≤ c.1)

/-! ## CHAIN (10_state.md R44) -/

/-- The 16 bytes of CHAIN from a byte string, `ch <- bytes(16, 0x00); ch[0..n) <- s` (45_commands.md R301). -/
def chainOf (s : List Byte) : Vector Byte 16 :=
  #v[s.getD 0 0, s.getD 1 0, s.getD 2 0, s.getD 3 0, s.getD 4 0, s.getD 5 0, s.getD 6 0, s.getD 7 0,
     s.getD 8 0, s.getD 9 0, s.getD 10 0, s.getD 11 0, s.getD 12 0, s.getD 13 0, s.getD 14 0, s.getD 15 0]

/-! ## The command frame (45_commands.md R300) -/

/-- How the rule of a command ends: with all its writes collected, by `raise`, or at a model fault (R300, R356). -/
inductive CmdResult where
  | commit (s : State)
  | raised (d : Detail)
  | stop (f : Fault)
  deriving DecidableEq, Repr

/-- Reporting an error, this hardware's one form of exception entry: `FAIL(K, d)` writes STATUS and nothing else;
control goes nowhere, nothing is saved and there is no return (R300; 60_exceptions.md R343, R344, R348). -/
def reportError (opc : BitVec 4) (d : Detail) (s : State) : State :=
  { s with status := failWord opc d }

/-- A successful end: the collected writes are committed and STATUS takes SUCCESS_WORD (R300, R342). -/
def reportSuccess (opc : BitVec 4) (s : State) : State :=
  { s with status := successWord opc }

/-- The end of EXECUTE (R300): commit everything, or discard everything and report. `s` is the state at entry. -/
def finish (opc : BitVec 4) (s : State) : CmdResult → Host.Outcome State Fault Refusal
  | .commit s' => .next (reportSuccess opc s')
  | .raised d => .next (reportError opc d s)
  | .stop f => .fault f

end Sys2Proof.Machine
end

