-- ==== Sys2Proof/Machine/Operands.lean ====
section
/-! DEFINITION. Where a command's operands come from (30_encoding.md R124, 00_scope.md R18): lengths of an
algorithm, key, IV, data, and the CTX register word. -/

namespace Sys2Proof.Machine

/-- `BS(alg)`: "DES and 3DES have a block size of 8 bytes. AES has a block size of 16 bytes" (00_scope.md R8). -/
def blockSize : Alg → Nat
  | .des => 8
  | .tdes => 8
  | .aes => 16

/-- `KEYSET(alg)`: "DES = 8; 3DES = 16 or 24; AES = 16, 24, or 32" (00_scope.md R9). -/
def keySet : Alg → List Nat
  | .des => [8]
  | .tdes => [16, 24]
  | .aes => [16, 24, 32]

/-- `KeyRead(n)`: `KEY_IN[0..n)` (00_scope.md R18). -/
def keyRead (s : State) (n : Nat) : Option (List Byte) := Memory.read s.keyIn 0 n

/-- `IvRead(n)`: `IV_IN[0..n)` (R18). -/
def ivRead (s : State) (n : Nat) : Option (List Byte) := Memory.read s.ivIn 0 n

/-- The IV a command starts from: `IV_IN[0..n)` when it is read, else `n` zero bytes (45_commands.md R301, R306). -/
def ivOrZero (s : State) (isRead : Bool) (n : Nat) : Option (List Byte) :=
  if isRead then ivRead s n else some (bytesOf n 0)

/-- `MemRead(a, n)`: `DBUF[a .. a+n)` (R18). -/
def memRead (s : State) (a n : Nat) : Option (List Byte) := Memory.read s.dbuf a n

/-- `MemWrite(a, n, b)`: `DBUF[a+i] <- b[i]` for `i` below the length of `b` (R18). -/
def memWrite (s : State) (a : Nat) (b : List Byte) : State := { s with dbuf := Memory.write s.dbuf a b }

/-- DLEN as a natural number (10_state.md R39). -/
def dataLen (s : State) : Nat := s.dlen.toNat

/-- CTXWORD (20_memory.md R87, layout 10_state.md R37): zero without a context. -/
def ctxWord (c : Ctx) : Word :=
  if c.valid then
    1 ||| (c.alg.code.setWidth 32 <<< 4) ||| (c.mode.code.setWidth 32 <<< 6) |||
      (BitVec.ofNat 32 (blockSize c.alg) <<< 8) ||| (c.keylen.setWidth 32 <<< 18)
  else 0

end Sys2Proof.Machine
end

