-- ==== Sys2Proof/Machine/Aes.lean ====
section
/-! DEFINITION. The AES key expansion and the Rijndael round pipeline, pure functions (42_aes.md). -/

namespace Sys2Proof.Machine

/-! ## Arithmetic in GF(2^8) (R220, R221) -/

/-- `xtime(a)`: multiplication by x modulo 0x11B (R221). -/
def xtime (a : Byte) : Byte := (a <<< 1) ^^^ (if a.msb then 0x1B else 0x00)

/-- `gmul(a, b)`: "the XOR of `xtime^i(a)` over every bit `i` set in `b`" (R221), from bit 0 up. The list is `b`'s
bits, least significant first. -/
def gmulBits : List Bool → Byte → Byte
  | [], _ => 0
  | bit :: bits, a => (if bit then a else 0) ^^^ gmulBits bits (xtime a)

/-- The field product of two bytes (R221). -/
def gmul (a b : Byte) : Byte :=
  gmulBits [b.getLsbD 0, b.getLsbD 1, b.getLsbD 2, b.getLsbD 3,
            b.getLsbD 4, b.getLsbD 5, b.getLsbD 6, b.getLsbD 7] a

/-! ## Tables (R222 to R224) -/

/-- The AES S-box, row = high nibble, column = low nibble (42_aes.md R222). -/
def tableSbox : List (List Nat) :=
  [[0x63, 0x7c, 0x77, 0x7b, 0xf2, 0x6b, 0x6f, 0xc5, 0x30, 0x01, 0x67, 0x2b, 0xfe, 0xd7, 0xab, 0x76],
   [0xca, 0x82, 0xc9, 0x7d, 0xfa, 0x59, 0x47, 0xf0, 0xad, 0xd4, 0xa2, 0xaf, 0x9c, 0xa4, 0x72, 0xc0],
   [0xb7, 0xfd, 0x93, 0x26, 0x36, 0x3f, 0xf7, 0xcc, 0x34, 0xa5, 0xe5, 0xf1, 0x71, 0xd8, 0x31, 0x15],
   [0x04, 0xc7, 0x23, 0xc3, 0x18, 0x96, 0x05, 0x9a, 0x07, 0x12, 0x80, 0xe2, 0xeb, 0x27, 0xb2, 0x75],
   [0x09, 0x83, 0x2c, 0x1a, 0x1b, 0x6e, 0x5a, 0xa0, 0x52, 0x3b, 0xd6, 0xb3, 0x29, 0xe3, 0x2f, 0x84],
   [0x53, 0xd1, 0x00, 0xed, 0x20, 0xfc, 0xb1, 0x5b, 0x6a, 0xcb, 0xbe, 0x39, 0x4a, 0x4c, 0x58, 0xcf],
   [0xd0, 0xef, 0xaa, 0xfb, 0x43, 0x4d, 0x33, 0x85, 0x45, 0xf9, 0x02, 0x7f, 0x50, 0x3c, 0x9f, 0xa8],
   [0x51, 0xa3, 0x40, 0x8f, 0x92, 0x9d, 0x38, 0xf5, 0xbc, 0xb6, 0xda, 0x21, 0x10, 0xff, 0xf3, 0xd2],
   [0xcd, 0x0c, 0x13, 0xec, 0x5f, 0x97, 0x44, 0x17, 0xc4, 0xa7, 0x7e, 0x3d, 0x64, 0x5d, 0x19, 0x73],
   [0x60, 0x81, 0x4f, 0xdc, 0x22, 0x2a, 0x90, 0x88, 0x46, 0xee, 0xb8, 0x14, 0xde, 0x5e, 0x0b, 0xdb],
   [0xe0, 0x32, 0x3a, 0x0a, 0x49, 0x06, 0x24, 0x5c, 0xc2, 0xd3, 0xac, 0x62, 0x91, 0x95, 0xe4, 0x79],
   [0xe7, 0xc8, 0x37, 0x6d, 0x8d, 0xd5, 0x4e, 0xa9, 0x6c, 0x56, 0xf4, 0xea, 0x65, 0x7a, 0xae, 0x08],
   [0xba, 0x78, 0x25, 0x2e, 0x1c, 0xa6, 0xb4, 0xc6, 0xe8, 0xdd, 0x74, 0x1f, 0x4b, 0xbd, 0x8b, 0x8a],
   [0x70, 0x3e, 0xb5, 0x66, 0x48, 0x03, 0xf6, 0x0e, 0x61, 0x35, 0x57, 0xb9, 0x86, 0xc1, 0x1d, 0x9e],
   [0xe1, 0xf8, 0x98, 0x11, 0x69, 0xd9, 0x8e, 0x94, 0x9b, 0x1e, 0x87, 0xe9, 0xce, 0x55, 0x28, 0xdf],
   [0x8c, 0xa1, 0x89, 0x0d, 0xbf, 0xe6, 0x42, 0x68, 0x41, 0x99, 0x2d, 0x0f, 0xb0, 0x54, 0xbb, 0x16]]

/-- The inverse S-box, same layout (R223). -/
def tableInvSbox : List (List Nat) :=
  [[0x52, 0x09, 0x6a, 0xd5, 0x30, 0x36, 0xa5, 0x38, 0xbf, 0x40, 0xa3, 0x9e, 0x81, 0xf3, 0xd7, 0xfb],
   [0x7c, 0xe3, 0x39, 0x82, 0x9b, 0x2f, 0xff, 0x87, 0x34, 0x8e, 0x43, 0x44, 0xc4, 0xde, 0xe9, 0xcb],
   [0x54, 0x7b, 0x94, 0x32, 0xa6, 0xc2, 0x23, 0x3d, 0xee, 0x4c, 0x95, 0x0b, 0x42, 0xfa, 0xc3, 0x4e],
   [0x08, 0x2e, 0xa1, 0x66, 0x28, 0xd9, 0x24, 0xb2, 0x76, 0x5b, 0xa2, 0x49, 0x6d, 0x8b, 0xd1, 0x25],
   [0x72, 0xf8, 0xf6, 0x64, 0x86, 0x68, 0x98, 0x16, 0xd4, 0xa4, 0x5c, 0xcc, 0x5d, 0x65, 0xb6, 0x92],
   [0x6c, 0x70, 0x48, 0x50, 0xfd, 0xed, 0xb9, 0xda, 0x5e, 0x15, 0x46, 0x57, 0xa7, 0x8d, 0x9d, 0x84],
   [0x90, 0xd8, 0xab, 0x00, 0x8c, 0xbc, 0xd3, 0x0a, 0xf7, 0xe4, 0x58, 0x05, 0xb8, 0xb3, 0x45, 0x06],
   [0xd0, 0x2c, 0x1e, 0x8f, 0xca, 0x3f, 0x0f, 0x02, 0xc1, 0xaf, 0xbd, 0x03, 0x01, 0x13, 0x8a, 0x6b],
   [0x3a, 0x91, 0x11, 0x41, 0x4f, 0x67, 0xdc, 0xea, 0x97, 0xf2, 0xcf, 0xce, 0xf0, 0xb4, 0xe6, 0x73],
   [0x96, 0xac, 0x74, 0x22, 0xe7, 0xad, 0x35, 0x85, 0xe2, 0xf9, 0x37, 0xe8, 0x1c, 0x75, 0xdf, 0x6e],
   [0x47, 0xf1, 0x1a, 0x71, 0x1d, 0x29, 0xc5, 0x89, 0x6f, 0xb7, 0x62, 0x0e, 0xaa, 0x18, 0xbe, 0x1b],
   [0xfc, 0x56, 0x3e, 0x4b, 0xc6, 0xd2, 0x79, 0x20, 0x9a, 0xdb, 0xc0, 0xfe, 0x78, 0xcd, 0x5a, 0xf4],
   [0x1f, 0xdd, 0xa8, 0x33, 0x88, 0x07, 0xc7, 0x31, 0xb1, 0x12, 0x10, 0x59, 0x27, 0x80, 0xec, 0x5f],
   [0x60, 0x51, 0x7f, 0xa9, 0x19, 0xb5, 0x4a, 0x0d, 0x2d, 0xe5, 0x7a, 0x9f, 0x93, 0xc9, 0x9c, 0xef],
   [0xa0, 0xe0, 0x3b, 0x4d, 0xae, 0x2a, 0xf5, 0xb0, 0xc8, 0xeb, 0xbb, 0x3c, 0x83, 0x53, 0x99, 0x61],
   [0x17, 0x2b, 0x04, 0x7e, 0xba, 0x77, 0xd6, 0x26, 0xe1, 0x69, 0x14, 0x63, 0x55, 0x21, 0x0c, 0x7d]]

/-- The entry of a byte in a table of 16 rows by 16 columns. -/
def byteTable (t : List (List Nat)) (x : Byte) : Byte :=
  BitVec.ofNat 8 ((t.getD (x.toNat / 16) []).getD (x.toNat % 16) 0)

/-- `SBOX[x]` (R222). -/
def sbox (x : Byte) : Byte := byteTable tableSbox x

/-- `INV_SBOX[x]` (R223). -/
def invSbox (x : Byte) : Byte := byteTable tableInvSbox x

/-- `Rcon[1..10]` (R224). -/
def tableRcon : List Nat := [0x01, 0x02, 0x04, 0x08, 0x10, 0x20, 0x40, 0x80, 0x1B, 0x36]

/-- The word `Rcon[i] << 24`, `i` from 1 (R224). -/
def rconWord (i : Nat) : Word := BitVec.ofNat 32 (tableRcon.getD (i - 1) 0) <<< 24

/-! ## Key expansion (R225 to R228) -/

/-- `RotWord`, "a one-byte left rotation" (R228). -/
def rotWord (w : Word) : Word := w.rotateLeft 8

/-- `SubWord`: SBOX on each byte (R228). -/
def subWord (w : Word) : Word := be32 ((be32inv w).map sbox)

/-- `Nr` of an expanded key (R225, R227): 10, 12 or 14 for `Nk` 4, 6 or 8. -/
def aesNr (nk : Nat) : Nat := nk + 6

/-- The first `nk` words of the key, big-endian (R226). -/
def aesKeyWords : Nat → List Byte → List Word
  | 0, _ => []
  | n + 1, k => be32 k :: aesKeyWords n (k.drop 4)

/-- The word the recurrence XORs into `w[i - Nk]`, from `w[i - 1]` (R227). -/
def aesTemp (nk i : Nat) (prev : Word) : Word :=
  if i % nk = 0 then subWord (rotWord prev) ^^^ rconWord (i / nk)
  else if nk = 8 ∧ i % nk = 4 then subWord prev
  else prev

/-- `n` more words of the expanded key (R227). `done` holds the words so far, newest first, so its length is `i`,
its head is `w[i-1]` and its entry `Nk - 1` is `w[i-Nk]`. -/
def aesExpand (nk : Nat) : Nat → List Word → List Word
  | 0, done => done
  | n + 1, done =>
    aesExpand nk n ((done.getD (nk - 1) 0 ^^^ aesTemp nk done.length (done.getD 0 0)) :: done)

/-- `AES_KE(key)`: `w[0 .. 4*(Nr+1))` (R227). -/
def aesKE (key : List Byte) : List Word :=
  let nk := key.length / 4
  (aesExpand nk (4 * (aesNr nk + 1) - nk) (aesKeyWords nk key).reverse).reverse

/-! ## State and round steps (R229 to R233, R235 to R237) -/

/-- One column of the state, `a0` in row 0 (R229). -/
structure AesCol where
  a0 : Byte
  a1 : Byte
  a2 : Byte
  a3 : Byte
  deriving DecidableEq, Repr

/-- The 4 by 4 byte matrix, column by column (R229). -/
structure AesState where
  c0 : AesCol
  c1 : AesCol
  c2 : AesCol
  c3 : AesCol
  deriving DecidableEq, Repr

/-- The column of the four bytes from index `i`. -/
def aesLoadCol (b : List Byte) (i : Nat) : AesCol :=
  ⟨b.getD i 0, b.getD (i + 1) 0, b.getD (i + 2) 0, b.getD (i + 3) 0⟩

/-- LOAD: `s[r][c] = in[r + 4c]`, "Bytes 0–3 are therefore column 0" (R229). -/
def aesLoad (b : List Byte) : AesState :=
  ⟨aesLoadCol b 0, aesLoadCol b 4, aesLoadCol b 8, aesLoadCol b 12⟩

/-- The bytes of a column, row 0 first. -/
def aesColBytes (c : AesCol) : List Byte := [c.a0, c.a1, c.a2, c.a3]

/-- STORE: `out[r + 4c] = s[r][c]` (R229). -/
def aesStore (s : AesState) : List Byte :=
  aesColBytes s.c0 ++ aesColBytes s.c1 ++ aesColBytes s.c2 ++ aesColBytes s.c3

/-- A function on bytes applied to all four bytes of a column. -/
def aesColMap (f : Byte → Byte) (c : AesCol) : AesCol := ⟨f c.a0, f c.a1, f c.a2, f c.a3⟩

/-- A function on columns applied to all four columns. -/
def aesMapCols (f : AesCol → AesCol) (s : AesState) : AesState := ⟨f s.c0, f s.c1, f s.c2, f s.c3⟩

/-- A round-key word XORed into a column, "its most significant byte going to row 0" (R226, R230). -/
def aesAddKeyCol (c : AesCol) (w : Word) : AesCol :=
  ⟨c.a0 ^^^ w.extractLsb' 24 8, c.a1 ^^^ w.extractLsb' 16 8, c.a2 ^^^ w.extractLsb' 8 8,
   c.a3 ^^^ w.extractLsb' 0 8⟩

/-- `AddRoundKey(s, r)`: word `w[4r + c]` into column `c` (R230). -/
def addRoundKey (ws : List Word) (r : Nat) (s : AesState) : AesState :=
  ⟨aesAddKeyCol s.c0 (ws.getD (4 * r) 0), aesAddKeyCol s.c1 (ws.getD (4 * r + 1) 0),
   aesAddKeyCol s.c2 (ws.getD (4 * r + 2) 0), aesAddKeyCol s.c3 (ws.getD (4 * r + 3) 0)⟩

/-- `SubBytes(s)` (R231). -/
def subBytes (s : AesState) : AesState := aesMapCols (aesColMap sbox) s

/-- `InvSubBytes(s)` (R236). -/
def invSubBytes (s : AesState) : AesState := aesMapCols (aesColMap invSbox) s

/-- `ShiftRows(s)`: `s'[r][c] = s[r][(c + r) mod 4]` (R232). -/
def shiftRows (s : AesState) : AesState :=
  ⟨⟨s.c0.a0, s.c1.a1, s.c2.a2, s.c3.a3⟩, ⟨s.c1.a0, s.c2.a1, s.c3.a2, s.c0.a3⟩,
   ⟨s.c2.a0, s.c3.a1, s.c0.a2, s.c1.a3⟩, ⟨s.c3.a0, s.c0.a1, s.c1.a2, s.c2.a3⟩⟩

/-- `InvShiftRows(s)`: `s'[r][c] = s[r][(c - r) mod 4]` (R235). -/
def invShiftRows (s : AesState) : AesState :=
  ⟨⟨s.c0.a0, s.c3.a1, s.c2.a2, s.c1.a3⟩, ⟨s.c1.a0, s.c0.a1, s.c3.a2, s.c2.a3⟩,
   ⟨s.c2.a0, s.c1.a1, s.c0.a2, s.c3.a3⟩, ⟨s.c3.a0, s.c2.a1, s.c1.a2, s.c0.a3⟩⟩

/-- A column times the circulant matrix with first row `[m0 m1 m2 m3]` (R233, R237). -/
def circulant (m0 m1 m2 m3 : Byte) (c : AesCol) : AesCol :=
  ⟨gmul m0 c.a0 ^^^ gmul m1 c.a1 ^^^ gmul m2 c.a2 ^^^ gmul m3 c.a3,
   gmul m3 c.a0 ^^^ gmul m0 c.a1 ^^^ gmul m1 c.a2 ^^^ gmul m2 c.a3,
   gmul m2 c.a0 ^^^ gmul m3 c.a1 ^^^ gmul m0 c.a2 ^^^ gmul m1 c.a3,
   gmul m1 c.a0 ^^^ gmul m2 c.a1 ^^^ gmul m3 c.a2 ^^^ gmul m0 c.a3⟩

/-- `MixColumns(s)`: first row `[02 03 01 01]` (R233). -/
def mixColumns (s : AesState) : AesState := aesMapCols (circulant 0x02 0x03 0x01 0x01) s

/-- `InvMixColumns(s)`: first row `[0e 0b 0d 09]` (R237). -/
def invMixColumns (s : AesState) : AesState := aesMapCols (circulant 0x0e 0x0b 0x0d 0x09) s

/-! ## Encrypt and decrypt (R234, R238) -/

/-- Rounds `r` to `r + n - 1` of the cipher, each with MixColumns (R234). -/
def aesEncRounds (ws : List Word) : Nat → Nat → AesState → AesState
  | 0, _, s => s
  | n + 1, r, s => aesEncRounds ws n (r + 1) (addRoundKey ws r (mixColumns (shiftRows (subBytes s))))

/-- Rounds `n` down to 1 of the inverse cipher (R238). -/
def aesDecRounds (ws : List Word) : Nat → AesState → AesState
  | 0, s => s
  | n + 1, s =>
    aesDecRounds ws n (invMixColumns (addRoundKey ws (n + 1) (invSubBytes (invShiftRows s))))

/-- The cipher on a state, with the expanded key `ws` and `nr` rounds (R234). -/
def aesCipher (ws : List Word) (nr : Nat) (s : AesState) : AesState :=
  addRoundKey ws nr (shiftRows (subBytes (aesEncRounds ws (nr - 1) 1 (addRoundKey ws 0 s))))

/-- The inverse cipher on a state (R238). -/
def aesInvCipher (ws : List Word) (nr : Nat) (s : AesState) : AesState :=
  addRoundKey ws 0 (invSubBytes (invShiftRows (aesDecRounds ws (nr - 1) (addRoundKey ws nr s))))

/-- `AES_ENC(key, b)` (R234). -/
def aesEnc (key b : List Byte) : List Byte :=
  aesStore (aesCipher (aesKE key) (aesNr (key.length / 4)) (aesLoad b))

/-- `AES_DEC(key, b)`, "with round keys consumed from `Nr` down to 0" (R238). -/
def aesDec (key b : List Byte) : List Byte :=
  aesStore (aesInvCipher (aesKE key) (aesNr (key.length / 4)) (aesLoad b))

end Sys2Proof.Machine
end

