-- ==== Sys2Proof/Machine/Des.lean ====
section
/-! DEFINITION. The DES key schedule and Feistel engine, pure functions (41_des.md). The tables are those of the
rules, row by row; bit 1 is the most significant (00_scope.md R17). -/

namespace Sys2Proof.Machine

/-! ## Tables (R180 to R188) -/

/-- IP, the Initial Permutation, 64 to 64 bits (41_des.md R181). -/
def tableIP : List Nat :=
  [58, 50, 42, 34, 26, 18, 10, 2] ++
  [60, 52, 44, 36, 28, 20, 12, 4] ++
  [62, 54, 46, 38, 30, 22, 14, 6] ++
  [64, 56, 48, 40, 32, 24, 16, 8] ++
  [57, 49, 41, 33, 25, 17, 9, 1] ++
  [59, 51, 43, 35, 27, 19, 11, 3] ++
  [61, 53, 45, 37, 29, 21, 13, 5] ++
  [63, 55, 47, 39, 31, 23, 15, 7]

/-- FP, the Final Permutation, "the inverse of IP" (R182). -/
def tableFP : List Nat :=
  [40, 8, 48, 16, 56, 24, 64, 32] ++
  [39, 7, 47, 15, 55, 23, 63, 31] ++
  [38, 6, 46, 14, 54, 22, 62, 30] ++
  [37, 5, 45, 13, 53, 21, 61, 29] ++
  [36, 4, 44, 12, 52, 20, 60, 28] ++
  [35, 3, 43, 11, 51, 19, 59, 27] ++
  [34, 2, 42, 10, 50, 18, 58, 26] ++
  [33, 1, 41, 9, 49, 17, 57, 25]

/-- E, the Expansion, 32 to 48 bits (R183). -/
def tableE : List Nat :=
  [32, 1, 2, 3, 4, 5] ++
  [4, 5, 6, 7, 8, 9] ++
  [8, 9, 10, 11, 12, 13] ++
  [12, 13, 14, 15, 16, 17] ++
  [16, 17, 18, 19, 20, 21] ++
  [20, 21, 22, 23, 24, 25] ++
  [24, 25, 26, 27, 28, 29] ++
  [28, 29, 30, 31, 32, 1]

/-- P, the round permutation, 32 to 32 bits (R184). -/
def tableP : List Nat :=
  [16, 7, 20, 21, 29, 12, 28, 17] ++
  [1, 15, 23, 26, 5, 18, 31, 10] ++
  [2, 8, 24, 14, 32, 27, 3, 9] ++
  [19, 13, 30, 6, 22, 11, 4, 25]

/-- PC1, Permuted Choice 1, 64 to 56 bits, without the parity bits (R185). -/
def tablePC1 : List Nat :=
  [57, 49, 41, 33, 25, 17, 9] ++
  [1, 58, 50, 42, 34, 26, 18] ++
  [10, 2, 59, 51, 43, 35, 27] ++
  [19, 11, 3, 60, 52, 44, 36] ++
  [63, 55, 47, 39, 31, 23, 15] ++
  [7, 62, 54, 46, 38, 30, 22] ++
  [14, 6, 61, 53, 45, 37, 29] ++
  [21, 13, 5, 28, 20, 12, 4]

/-- PC2, Permuted Choice 2, 56 to 48 bits (R186). -/
def tablePC2 : List Nat :=
  [14, 17, 11, 24, 1, 5] ++
  [3, 28, 15, 6, 21, 10] ++
  [23, 19, 12, 4, 26, 8] ++
  [16, 7, 27, 20, 13, 2] ++
  [41, 52, 31, 37, 47, 55] ++
  [30, 40, 51, 45, 33, 48] ++
  [44, 49, 39, 56, 34, 53] ++
  [46, 42, 50, 36, 29, 32]

/-- S1, rows 0 to 3 by columns 0 to 15 (R188). -/
def tableS1 : List (List Nat) :=
  [[14, 4, 13, 1, 2, 15, 11, 8, 3, 10, 6, 12, 5, 9, 0, 7],
   [0, 15, 7, 4, 14, 2, 13, 1, 10, 6, 12, 11, 9, 5, 3, 8],
   [4, 1, 14, 8, 13, 6, 2, 11, 15, 12, 9, 7, 3, 10, 5, 0],
   [15, 12, 8, 2, 4, 9, 1, 7, 5, 11, 3, 14, 10, 0, 6, 13]]

/-- S2, rows 0 to 3 by columns 0 to 15 (R188). -/
def tableS2 : List (List Nat) :=
  [[15, 1, 8, 14, 6, 11, 3, 4, 9, 7, 2, 13, 12, 0, 5, 10],
   [3, 13, 4, 7, 15, 2, 8, 14, 12, 0, 1, 10, 6, 9, 11, 5],
   [0, 14, 7, 11, 10, 4, 13, 1, 5, 8, 12, 6, 9, 3, 2, 15],
   [13, 8, 10, 1, 3, 15, 4, 2, 11, 6, 7, 12, 0, 5, 14, 9]]

/-- S3, rows 0 to 3 by columns 0 to 15 (R188). -/
def tableS3 : List (List Nat) :=
  [[10, 0, 9, 14, 6, 3, 15, 5, 1, 13, 12, 7, 11, 4, 2, 8],
   [13, 7, 0, 9, 3, 4, 6, 10, 2, 8, 5, 14, 12, 11, 15, 1],
   [13, 6, 4, 9, 8, 15, 3, 0, 11, 1, 2, 12, 5, 10, 14, 7],
   [1, 10, 13, 0, 6, 9, 8, 7, 4, 15, 14, 3, 11, 5, 2, 12]]

/-- S4, rows 0 to 3 by columns 0 to 15 (R188). -/
def tableS4 : List (List Nat) :=
  [[7, 13, 14, 3, 0, 6, 9, 10, 1, 2, 8, 5, 11, 12, 4, 15],
   [13, 8, 11, 5, 6, 15, 0, 3, 4, 7, 2, 12, 1, 10, 14, 9],
   [10, 6, 9, 0, 12, 11, 7, 13, 15, 1, 3, 14, 5, 2, 8, 4],
   [3, 15, 0, 6, 10, 1, 13, 8, 9, 4, 5, 11, 12, 7, 2, 14]]

/-- S5, rows 0 to 3 by columns 0 to 15 (R188). -/
def tableS5 : List (List Nat) :=
  [[2, 12, 4, 1, 7, 10, 11, 6, 8, 5, 3, 15, 13, 0, 14, 9],
   [14, 11, 2, 12, 4, 7, 13, 1, 5, 0, 15, 10, 3, 9, 8, 6],
   [4, 2, 1, 11, 10, 13, 7, 8, 15, 9, 12, 5, 6, 3, 0, 14],
   [11, 8, 12, 7, 1, 14, 2, 13, 6, 15, 0, 9, 10, 4, 5, 3]]

/-- S6, rows 0 to 3 by columns 0 to 15 (R188). -/
def tableS6 : List (List Nat) :=
  [[12, 1, 10, 15, 9, 2, 6, 8, 0, 13, 3, 4, 14, 7, 5, 11],
   [10, 15, 4, 2, 7, 12, 9, 5, 6, 1, 13, 14, 0, 11, 3, 8],
   [9, 14, 15, 5, 2, 8, 12, 3, 7, 0, 4, 10, 1, 13, 11, 6],
   [4, 3, 2, 12, 9, 5, 15, 10, 11, 14, 1, 7, 6, 0, 8, 13]]

/-- S7, rows 0 to 3 by columns 0 to 15 (R188). -/
def tableS7 : List (List Nat) :=
  [[4, 11, 2, 14, 15, 0, 8, 13, 3, 12, 9, 7, 5, 10, 6, 1],
   [13, 0, 11, 7, 4, 9, 1, 10, 14, 3, 5, 12, 2, 15, 8, 6],
   [1, 4, 11, 13, 12, 3, 7, 14, 10, 15, 6, 8, 0, 5, 9, 2],
   [6, 11, 13, 8, 1, 4, 10, 7, 9, 5, 0, 15, 14, 2, 3, 12]]

/-- S8, rows 0 to 3 by columns 0 to 15 (R188). -/
def tableS8 : List (List Nat) :=
  [[13, 2, 8, 4, 6, 15, 11, 1, 10, 9, 3, 14, 5, 0, 12, 7],
   [1, 15, 13, 8, 10, 3, 7, 4, 12, 5, 6, 11, 0, 14, 9, 2],
   [7, 11, 4, 1, 9, 12, 14, 2, 0, 6, 10, 13, 15, 3, 5, 8],
   [2, 1, 14, 7, 4, 10, 8, 13, 15, 12, 9, 0, 3, 5, 6, 11]]

/-- ROT, the left-rotation schedule of rounds 1 to 16 (R187). -/
def tableROT : List Nat := [1, 1, 2, 2, 2, 2, 2, 2, 1, 2, 2, 2, 2, 2, 2, 1]

/-! ## PERM and the S-box lookup -/

/-- `PERM(v, T, n)` (00_scope.md R17): the value "whose bit `j` (1-based from the MSB) is bit `T[j]` of `v`". The
result width `m` is the length of `T` wherever it is used. -/
def perm (m : Nat) (t : List Nat) {n : Nat} (v : BitVec n) : BitVec m :=
  (BitVec.ofBoolListBE (t.map fun j => v.getMsbD (j - 1))).setWidth m

/-- `SBOX_i(x) = Si[ (x[5] << 1) | x[0] ][ x[4:1] ]` (R189). -/
def sBoxLookup (box : List (List Nat)) (x : BitVec 6) : BitVec 4 :=
  let row := (x.extractLsb' 5 1 ++ x.extractLsb' 0 1).toNat
  let col := (x.extractLsb' 1 4).toNat
  BitVec.ofNat 4 ((box.getD row []).getD col 0)

/-! ## Key schedule (R190) -/

/-- One round of the schedule from the halves `C` and `D`: rotate both, select the subkey, go on. -/
def desSchedule : List Nat → BitVec 28 → BitVec 28 → List (BitVec 48)
  | [], _, _ => []
  | r :: rs, c, d =>
    let c' := c.rotateLeft r
    let d' := d.rotateLeft r
    perm 48 tablePC2 (c' ++ d') :: desSchedule rs c' d'

/-- `DES_KS(k)`: the 16 subkeys of an 8-byte key (R190). Parity bits are dropped by PC1 and never checked (R191). -/
def desKS (k : List Byte) : List (BitVec 48) :=
  let cd := perm 56 tablePC1 (be64 k)
  desSchedule tableROT (cd.extractLsb' 28 28) (cd.extractLsb' 0 28)

/-! ## Round function and block transform (R192 to R195) -/

/-- The S-box layer of the round function: box `i` takes bits 6i-5 to 6i of `x` (R192). -/
def sLayer (x : BitVec 48) : BitVec 32 :=
  (sBoxLookup tableS1 (x.extractLsb' 42 6) ++ (sBoxLookup tableS2 (x.extractLsb' 36 6) ++
    (sBoxLookup tableS3 (x.extractLsb' 30 6) ++ (sBoxLookup tableS4 (x.extractLsb' 24 6) ++
      (sBoxLookup tableS5 (x.extractLsb' 18 6) ++ (sBoxLookup tableS6 (x.extractLsb' 12 6) ++
        (sBoxLookup tableS7 (x.extractLsb' 6 6) ++ sBoxLookup tableS8 (x.extractLsb' 0 6))))))) :
    BitVec (4 + (4 + (4 + (4 + (4 + (4 + (4 + 4))))))))

/-- The round function `F(R, K)` (R192). -/
def desF (r : BitVec 32) (k : BitVec 48) : BitVec 32 :=
  perm 32 tableP (sLayer (perm 48 tableE r ^^^ k))

/-- One round, `(L, R) <- (R, L XOR F(R, K))` (R193). -/
def desRound (lr : BitVec 32 × BitVec 32) (k : BitVec 48) : BitVec 32 × BitVec 32 :=
  (lr.2, lr.1 ^^^ desF lr.2 k)

/-- `DES_CORE` on the 64-bit value of a block: IP, the rounds in the order of the subkey list, the preoutput
`R || L` ("with the final round's swap omitted"), FP (R193). -/
def desCore64 (v : BitVec 64) (ks : List (BitVec 48)) : BitVec 64 :=
  let p := perm 64 tableIP v
  let lr := ks.foldl desRound (p.extractLsb' 32 32, p.extractLsb' 0 32)
  perm 64 tableFP (lr.2 ++ lr.1)

/-- `DES_CORE(b, K[1..16])` on an 8-byte block (R193). -/
def desCore (b : List Byte) (ks : List (BitVec 48)) : List Byte := be64inv (desCore64 (be64 b) ks)

/-- `DES_ENC(k, b)` (R194). -/
def desEnc (k b : List Byte) : List Byte := desCore b (desKS k)

/-- `DES_DEC(k, b)`: "decrypt simply traverses subkeys in reverse" (R195). -/
def desDec (k b : List Byte) : List Byte := desCore b (desKS k).reverse

end Sys2Proof.Machine
end

