-- ==== Sys2Proof/Machine/Tdes.lean ====
section
/-! DEFINITION. The 3DES EDE composition, pure functions (43_tdes.md). -/

namespace Sys2Proof.Machine

/-- `TDES_KEYS(k)` (43_tdes.md R260, R261): `(K1, K2, K1)` for a 16-byte key, `(K1, K2, K3)` for a 24-byte key. -/
def tdesKeys (k : List Byte) : List Byte × List Byte × List Byte :=
  if k.length = 16 then (slice k 0 8, slice k 8 16, slice k 0 8)
  else (slice k 0 8, slice k 8 16, slice k 16 24)

/-- `TDES_ENC(k, b)` (R262). -/
def tdesEnc (k b : List Byte) : List Byte :=
  desEnc (tdesKeys k).2.2 (desDec (tdesKeys k).2.1 (desEnc (tdesKeys k).1 b))

/-- `TDES_DEC(k, b)` (R263). -/
def tdesDec (k b : List Byte) : List Byte :=
  desDec (tdesKeys k).1 (desEnc (tdesKeys k).2.1 (desDec (tdesKeys k).2.2 b))

end Sys2Proof.Machine
end

