-- ==== Sys2Proof/Machine/Modes.lean ====
section
/-! DEFINITION. The ECB and CBC mode controllers as the one pure function MODE_APPLY (44_modes.md). -/

namespace Sys2Proof.Machine

/-- `BC_ENC(b)` of an algorithm and key (44_modes.md R280). -/
def bcEnc (alg : Alg) (k b : List Byte) : List Byte :=
  match alg with
  | .des => desEnc k b
  | .tdes => tdesEnc k b
  | .aes => aesEnc k b

/-- `BC_DEC(b)` of an algorithm and key (R280). -/
def bcDec (alg : Alg) (k b : List Byte) : List Byte :=
  match alg with
  | .des => desDec k b
  | .tdes => tdesDec k b
  | .aes => aesDec k b

/-- One turn of R286's loop: from the chaining state and the input block `X`, the output block `Y` and the
chaining state after it. CBC decrypt takes "the *input* ciphertext block" (R284). -/
def modeBlock (alg : Alg) (mode : Mode) (k : List Byte) (dir : Dir) (st x : List Byte) : List Byte × List Byte :=
  match mode, dir with
  | .ecb, .enc => (bcEnc alg k x, st)
  | .ecb, .dec => (bcDec alg k x, st)
  | .cbc, .enc => (bcEnc alg k (xorBytes x st), bcEnc alg k (xorBytes x st))
  | .cbc, .dec => (xorBytes (bcDec alg k x) st, x)

/-- `n` turns of R286's loop over `data`, block by block: the output and the chaining state at exit. -/
def modeLoop (alg : Alg) (mode : Mode) (k : List Byte) (dir : Dir) :
    Nat → List Byte → List Byte → List Byte × List Byte
  | 0, st, _ => ([], st)
  | n + 1, st, data =>
    let y := modeBlock alg mode k dir st (data.take (blockSize alg))
    let rest := modeLoop alg mode k dir n y.2 (data.drop (blockSize alg))
    (y.1 ++ rest.1, rest.2)

/-- `MODE_APPLY(alg, mode, k, dir, chain16, data) -> (out, chain16')` (R286, with the length check R281). -/
def modeApply (alg : Alg) (mode : Mode) (k : List Byte) (dir : Dir) (chain16 data : List Byte) :
    Except Detail (List Byte × List Byte) :=
  let bs := blockSize alg
  if data.length % bs ≠ 0 then .error .dataLen
  else
    let r := modeLoop alg mode k dir (data.length / bs) (chain16.take bs) data
    .ok (r.1, if mode = .cbc then r.2 ++ chain16.drop bs else chain16)

end Sys2Proof.Machine
end

