-- ==== Sys2Proof/Machine/Cipher.lean ====
section
/-! DEFINITION. ENCRYPT (45_commands.md R302) and DECRYPT (R303) on the current context. -/

namespace Sys2Proof.Machine

/-- The state ENCRYPT and DECRYPT commit: the output over the input in DBUF, and the exit chaining state (R302). -/
def withCipherOutput (s : State) (out chain16 : List Byte) : State :=
  { memWrite s 0 out with chain := chainOf chain16 }

/-- The rule the two commands share, "with `DEC` in place of `ENC`" (R302, R303): NO_CONTEXT, DATA_LEN, BOUNDS,
then the data is consumed. -/
def cipherRule (dir : Dir) (s : State) : CmdResult :=
  if !s.ctx.valid then .raised .noContext
  else if dataLen s % blockSize s.ctx.alg ≠ 0 then .raised .dataLen
  else if s.cfg.bufSize < dataLen s then .raised .bounds
  else
    match memRead s 0 (dataLen s) with
    | none => .stop .unwrittenUse
    | some data =>
      match modeApply s.ctx.alg s.ctx.mode s.ckey dir s.chain.toList data with
      | .error d => .raised d
      | .ok r => .commit (withCipherOutput s r.1 r.2)

/-- ENCRYPT (R302). -/
def execEncrypt (s : State) : Host.Outcome State Fault Refusal :=
  finish 0x2 s (cipherRule .enc s)

/-- DECRYPT (R303). -/
def execDecrypt (s : State) : Host.Outcome State Fault Refusal :=
  finish 0x3 s (cipherRule .dec s)

end Sys2Proof.Machine
end

