-- ==== Sys2Proof/Machine/Padding.lean ====
section
/-! DEFINITION. The padding engine, two pure functions over byte strings (40_padding.md). -/

namespace Sys2Proof.Machine

/-- PADLEN for data of length `len` (40_padding.md R140). -/
def padLen (len bs : Nat) : Nat := bs - len % bs

/-- PADBYTES (R141). The unrecognized style has none: PAD_FN and PAD raise before they come here (R142). -/
def padBytes (p : Nat) : Style → List Byte
  | .pkcs7 => bytesOf p (BitVec.ofNat 8 p)
  | .x923 => bytesOf (p - 1) 0x00 ++ bytesOf 1 (BitVec.ofNat 8 p)
  | .iso7816 => bytesOf 1 0x80 ++ bytesOf (p - 1) 0x00
  | .unrecognized => []

/-- PAD_FN (R141, R142): "The block-size check comes first". -/
def padFn (d : List Byte) (bs : Nat) (style : Style) : Except Detail (List Byte) :=
  if bs < 1 ∨ 255 < bs then .error .blockSize
  else if style = .unrecognized then .error .style
  else .ok (d ++ padBytes (padLen d.length bs) style)

/-- The highest index of a 0x80 byte in a block, the backward scan of R148. -/
def lastMarker : List Byte → Option Nat
  | [] => none
  | b :: bs =>
    match lastMarker bs with
    | some j => some (j + 1)
    | none => if b = 0x80 then some 0 else none

/-- UNPAD_FN for pkcs7 and x923 after its length checks (R145 to R147): the length byte, then the pattern. -/
def unpadCounted (d : List Byte) (bs : Nat) (style : Style) : Except Detail Nat :=
  let p := (d.getD (d.length - 1) 0).toNat
  if p < 1 ∨ bs < p then .error .padRange
  else if d.drop (d.length - p) ≠ padBytes p style then .error .padPattern
  else .ok (d.length - p)

/-- UNPAD_FN for iso7816 after its length checks (R148, R149): the marker in the final block, then the trailer. -/
def unpadMarked (d : List Byte) (bs : Nat) : Except Detail Nat :=
  let f := d.drop (d.length - bs)
  match lastMarker f with
  | none => .error .noMarker
  | some j =>
    if (f.drop (j + 1)).any (fun b => b != 0x00) then .error .markerTrail
    else .ok (d.length - (bs - j))

/-- UNPAD_FN "in one piece" (R151; R144 gives the order of the first three checks). -/
def unpadFn (d : List Byte) (bs : Nat) (style : Style) : Except Detail Nat :=
  if bs < 1 ∨ 255 < bs then .error .blockSize
  else if style = .unrecognized then .error .style
  else if d.length = 0 ∨ d.length % bs ≠ 0 then .error .unpadLen
  else
    match style with
    | .pkcs7 => unpadCounted d bs .pkcs7
    | .x923 => unpadCounted d bs .x923
    | .iso7816 => unpadMarked d bs
    | .unrecognized => .error .style

/-! ## Padding checks over partly UNWRITTEN bytes (60_exceptions.md R356; log entry 4)

"A command that fails a check of rule R346 consumes nothing. So it reports its error and does not fault, whatever the
cells hold." Below, none is a byte without a value (10_state.md R50), and an error is settled when UNPAD_FN raises
it whatever values stand there. -/

/-- The cell holds a byte, and not the byte `b`. -/
def cellDiffers (c : Option Byte) (b : Byte) : Bool :=
  match c with
  | some x => x != b
  | none => false

/-- The error the written bytes settle for pkcs7 and x923: by the length byte alone (R145), or by one byte of the
pattern it asks for (R146, R147). -/
def settledCounted (f : List (Option Byte)) (bs : Nat) (style : Style) : Option Detail :=
  match f.getD (f.length - 1) none with
  | none => none
  | some b =>
    let p := b.toNat
    if p < 1 ∨ bs < p then some .padRange
    else if (List.zipWith cellDiffers (f.drop (f.length - p)) (padBytes p style)).any id then some .padPattern
    else none

/-- The error the written bytes of a final block settle for iso7816, the block given from its last byte backwards
(R148, R149). Zeros are passed over; at the first other byte, a 0x80 accepts the block, an UNWRITTEN one settles
nothing, and any other byte makes the block fail: by MARKER_TRAIL if a 0x80 stands before it, by NO_MARKER if none
can. -/
def settledMarked : List (Option Byte) → Option Detail
  | [] => some .noMarker
  | none :: _ => none
  | some b :: before =>
    if b = 0x00 then settledMarked before
    else if b = 0x80 then none
    else if before.contains (some 0x80) then some .markerTrail
    else if before.contains none then none
    else some .noMarker

/-- The data-integrity error the written bytes settle, once the checks of R144 have passed. -/
def settledError (f : List (Option Byte)) (bs : Nat) (style : Style) : Option Detail :=
  match style with
  | .pkcs7 => settledCounted f bs .pkcs7
  | .x923 => settledCounted f bs .x923
  | .iso7816 => settledMarked (f.drop (f.length - bs)).reverse
  | .unrecognized => none

/-- The end of a padding check over bytes of which some have no value: the settled error is reported, and otherwise
an UNWRITTEN byte is consumed (R356). -/
def checkPartlyWritten (f : List (Option Byte)) (bs : Nat) (style : Style) : CmdResult :=
  match settledError f bs style with
  | some d => .raised d
  | none => .stop .unwrittenUse

end Sys2Proof.Machine
end

