-- ==== Sys2Proof/Machine/Composite.lean ====
section
/-! DEFINITION. DECRYPT_UNPAD (45_commands.md R306): AES-CBC decryption on a temporary context, then pkcs7. -/

namespace Sys2Proof.Machine

/-- The state DECRYPT_UNPAD commits: "the full plaintext, padding included", and the unpadded length (R306). -/
def withPlaintext (s : State) (pt : List Byte) (n : Nat) : State :=
  { memWrite s 0 pt with dlen := BitVec.ofNat 32 n }

/-- The last lines of R306, once key, IV and ciphertext are read: decrypt, validate, write. -/
def decryptUnpadData (bs : Nat) (key iv data : List Byte) (s : State) : CmdResult :=
  match modeApply .aes .cbc key .dec iv data with
  | .error d => .raised d
  | .ok r =>
    match unpadFn r.1 bs .pkcs7 with
    | .error d => .raised d
    | .ok n => .commit (withPlaintext s r.1 n)

/-! ## The plaintext of partly UNWRITTEN operands (60_exceptions.md R356; log entry 4) -/

/-- `a XOR b` where a byte without a value gives none. -/
def xorCells (a b : List (Option Byte)) : List (Option Byte) :=
  List.zipWith
    (fun x y =>
      match x, y with
      | some u, some v => some (u ^^^ v)
      | _, _ => none) a b

/-- AES_DEC of a block of cells: no byte has a value unless the whole key and the whole block are written. -/
def aesDecCells (key : Option (List Byte)) (x : List (Option Byte)) : List (Option Byte) :=
  match key, cellBytes x with
  | some k, some b => (aesDec k b).map some
  | _, _ => List.replicate 16 none

/-- CBC decryption of `n` blocks of cells from the chaining state `st` (44_modes.md R284). -/
def cbcDecCells (key : Option (List Byte)) : Nat → List (Option Byte) → List (Option Byte) → List (Option Byte)
  | 0, _, _ => []
  | n + 1, st, data =>
    xorCells (aesDecCells key (data.take 16)) st ++ cbcDecCells key n (data.take 16) (data.drop 16)

/-- The plaintext of DECRYPT_UNPAD as far as its written operands give it: a plaintext byte has a value when the key,
its ciphertext block and the byte of the chaining state it is XORed with are written. -/
def plaintextCells (ivp : Bool) (keylen : Nat) (s : State) : List (Option Byte) :=
  cbcDecCells (keyRead s keylen) (dataLen s / 16)
    (if ivp then Memory.cells s.ivIn 0 16 else List.replicate 16 (some 0)) (Memory.cells s.dbuf 0 (dataLen s))

/-- The rule of DECRYPT_UNPAD (R306): the checks of new, of decrypt, of unpad; then the plaintext and its padding. Of
operands that are only partly written, a padding check that the plaintext bytes they give settle is reported, and
otherwise an UNWRITTEN byte is consumed (60_exceptions.md R356; log entry 4). -/
def decryptUnpadRule (ivp : Bool) (bs keylen ivlen : Nat) (s : State) : CmdResult :=
  if keylen ∉ keySet .aes then .raised .keyLen
  else if ivp && ivlen != 16 then .raised .ivLen
  else if dataLen s % 16 ≠ 0 then .raised .dataLen
  else if s.cfg.bufSize < dataLen s then .raised .bounds
  else if bs < 1 ∨ 255 < bs then .raised .blockSize
  else if dataLen s = 0 ∨ dataLen s % bs ≠ 0 then .raised .unpadLen
  else
    match keyRead s keylen, ivOrZero s ivp 16, memRead s 0 (dataLen s) with
    | some key, some iv, some data => decryptUnpadData bs key iv data s
    | _, _, _ => checkPartlyWritten (plaintextCells ivp keylen s) bs .pkcs7

/-- DECRYPT_UNPAD (R306). -/
def execDecryptUnpad (ivp : Bool) (bs keylen ivlen : Nat) (s : State) : Host.Outcome State Fault Refusal :=
  finish 0x6 s (decryptUnpadRule ivp bs keylen ivlen s)

end Sys2Proof.Machine
end

