-- ==== Sys2Proof/Machine/Context.lean ====
section
/-! DEFINITION. The commands of a context's lifecycle: INIT (45_commands.md R301) and RELEASE (R307). -/

namespace Sys2Proof.Machine

/-- Whether INIT reads IV_IN: "read only if MODE = CBC and IVP = 1" (R301). -/
def initReadsIv (mode : Mode) (ivp : Bool) : Bool := decide (mode = .cbc) && ivp

/-- The state INIT commits: a new context, its key and its chaining state (R301). -/
def withContext (s : State) (alg : Alg) (mode : Mode) (keylen : Nat) (key iv : List Byte) : State :=
  { s with
    ctx := ⟨true, alg, mode, BitVec.ofNat 6 keylen⟩
    ckey := key
    chain := chainOf iv }

/-- The rule of INIT (R301): KEY_LEN, then IV_LEN, then the key and the IV are consumed. BAD_ALG and
RESERVED_FIELD are DECODE's (30_encoding.md R123). -/
def initRule (alg : Alg) (mode : Mode) (ivp : Bool) (keylen ivlen : Nat) (s : State) : CmdResult :=
  if keylen ∉ keySet alg then .raised .keyLen
  else if initReadsIv mode ivp && ivlen != blockSize alg then .raised .ivLen
  else
    match keyRead s keylen, ivOrZero s (initReadsIv mode ivp) (blockSize alg) with
    | some key, some iv => .commit (withContext s alg mode keylen key iv)
    | _, _ => .stop .unwrittenUse

/-- INIT (R301). -/
def execInit (alg : Alg) (mode : Mode) (ivp : Bool) (keylen ivlen : Nat) (s : State) :
    Host.Outcome State Fault Refusal :=
  finish 0x1 s (initRule alg mode ivp keylen ivlen s)

/-- The state RELEASE commits: no context, no key, CHAIN zero (R307). -/
def withoutContext (s : State) : State :=
  { s with
    ctx := Ctx.empty
    ckey := []
    chain := chainOf [] }

/-- RELEASE (R307): it always succeeds. -/
def execRelease (s : State) : Host.Outcome State Fault Refusal :=
  finish 0x7 s (.commit (withoutContext s))

end Sys2Proof.Machine
end

