-- ==== Sys2Proof/Machine/Pad.lean ====
section
/-! DEFINITION. PAD (45_commands.md R304) and UNPAD (R305). -/

namespace Sys2Proof.Machine

/-- The state PAD commits: the padding after the data, and the longer DLEN (R304). -/
def withPadding (s : State) (padding : List Byte) : State :=
  { memWrite s (dataLen s) padding with dlen := BitVec.ofNat 32 (dataLen s + padding.length) }

/-- The rule of PAD (R304): BLOCK_SIZE, STYLE, BOUNDS for DLEN, BOUNDS for DLEN + p, "computed as a natural number,
with no 32-bit wrap". PAD consumes no cell. -/
def padRule (bs : Nat) (style : Style) (s : State) : CmdResult :=
  if bs < 1 ∨ 255 < bs then .raised .blockSize
  else if style = .unrecognized then .raised .style
  else if s.cfg.bufSize < dataLen s then .raised .bounds
  else if s.cfg.bufSize < dataLen s + padLen (dataLen s) bs then .raised .bounds
  else .commit (withPadding s (padBytes (padLen (dataLen s) bs) style))

/-- PAD (R304). -/
def execPad (bs : Nat) (style : Style) (s : State) : Host.Outcome State Fault Refusal :=
  finish 0x4 s (padRule bs style s)

/-- The state UNPAD commits: the shorter DLEN; "No DBUF byte changes" (R305). -/
def withDataLen (s : State) (n : Nat) : State := { s with dlen := BitVec.ofNat 32 n }

/-- The rule of UNPAD (R305): BLOCK_SIZE, STYLE, UNPAD_LEN, BOUNDS, then the padding of the final block. Of a block
that is only partly written, a check that the written bytes settle is reported, and otherwise an UNWRITTEN byte is
consumed (60_exceptions.md R356; log entry 4). -/
def unpadRule (bs : Nat) (style : Style) (s : State) : CmdResult :=
  if bs < 1 ∨ 255 < bs then .raised .blockSize
  else if style = .unrecognized then .raised .style
  else if dataLen s = 0 ∨ dataLen s % bs ≠ 0 then .raised .unpadLen
  else if s.cfg.bufSize < dataLen s then .raised .bounds
  else
    match memRead s (dataLen s - bs) bs with
    | none => checkPartlyWritten (Memory.cells s.dbuf (dataLen s - bs) bs) bs style
    | some f =>
      match unpadFn f bs style with
      | .error d => .raised d
      | .ok n => .commit (withDataLen s (n + (dataLen s - bs)))

/-- UNPAD (R305). -/
def execUnpad (bs : Nat) (style : Style) (s : State) : Host.Outcome State Fault Refusal :=
  finish 0x5 s (unpadRule bs style s)

end Sys2Proof.Machine
end

