-- ==== Sys2Proof/Machine/Dispatch.lean ====
section
/-! DEFINITION. One arm per command (45_commands.md R301 to R307). -/

namespace Sys2Proof.Machine

/-- The meaning of a decoded command at a state whose CMDR the bus write has already set (45_commands.md R300). -/
def exec (i : Instr) (s : State) : Host.Outcome State Fault Refusal :=
  match i with
  | .init alg mode ivp keylen ivlen => Sys2Proof.Machine.execInit alg mode ivp keylen ivlen s
  | .encrypt => Sys2Proof.Machine.execEncrypt s
  | .decrypt => Sys2Proof.Machine.execDecrypt s
  | .pad bs style => Sys2Proof.Machine.execPad bs style s
  | .unpad bs style => Sys2Proof.Machine.execUnpad bs style s
  | .decryptUnpad ivp bs keylen ivlen => Sys2Proof.Machine.execDecryptUnpad ivp bs keylen ivlen s
  | .release => Sys2Proof.Machine.execRelease s

end Sys2Proof.Machine
end

