-- ==== Sys2Proof/Machine/Bus.lean ====
section
/-! DEFINITION. The host bus port (20_memory.md R80 to R89) and the events of the host: what one step does. -/

namespace Sys2Proof.Machine

/-- What an aligned offset addresses: the register map of 10_state.md section 2, with the byte index inside a
window. -/
inductive Target where
  | cmd
  | status
  | ctx
  | dlen
  | bufsz
  | keyIn (o : Nat)
  | ivIn (o : Nat)
  | chain (o : Nat)
  | dbuf (o : Nat)
  | reserved
  deriving DecidableEq, Repr

/-- The address map (10_state.md section 2, 20_memory.md R81, the case lines of R87 and R88). -/
def target (c : Config) (a : Nat) : Target :=
  if a = 0x0000 then .cmd
  else if a = 0x0004 then .status
  else if a = 0x0008 then .ctx
  else if a = 0x000C then .dlen
  else if a = 0x0010 then .bufsz
  else if 0x0040 ≤ a ∧ a < 0x0060 then .keyIn (a - 0x0040)
  else if 0x0060 ≤ a ∧ a < 0x0070 then .ivIn (a - 0x0060)
  else if 0x0070 ≤ a ∧ a < 0x0080 then .chain (a - 0x0070)
  else if 0x1000 ≤ a ∧ a + 4 ≤ 0x1000 + c.bufSize then .dbuf (a - 0x1000)
  else .reserved

/-- Whether the port has this access: a full word at a multiple of 4 (R82). -/
def accessOk (width : AccessWidth) (a : BitVec 16) : Bool := width == .word && a.toNat % 4 == 0

/-- `LANES(X, o)` (R87): the word of a window, none if a byte of it is UNWRITTEN. -/
def lanes (m : Memory) (o : Nat) : Option Word :=
  match Memory.get m o, Memory.get m (o + 1), Memory.get m (o + 2), Memory.get m (o + 3) with
  | some x0, some x1, some x2, some x3 => some (laneWord x0 x1 x2 x3)
  | _, _, _, _ => none

/-- `LANES(CHAIN, o)`: every CHAIN byte has a value (R44, R87). -/
def chainLanes (c : Vector Byte 16) (o : Nat) : Word :=
  laneWord (c.toList.getD o 0) (c.toList.getD (o + 1) 0) (c.toList.getD (o + 2) 0) (c.toList.getD (o + 3) 0)

/-- The word BUS_READ returns at an aligned offset (R87); none is the fault UNWRITTEN_READ. -/
def busRead (s : State) (a : Nat) : Option Word :=
  match target s.cfg a with
  | .cmd => some s.cmdr
  | .status => some s.status
  | .ctx => some (ctxWord s.ctx)
  | .dlen => some s.dlen
  | .bufsz => some (BitVec.ofNat 32 s.cfg.bufSize)
  | .keyIn o => lanes s.keyIn o
  | .ivIn o => lanes s.ivIn o
  | .chain o => some (chainLanes s.chain o)
  | .dbuf o => lanes s.dbuf o
  | .reserved => some 0

/-- EXECUTE (45_commands.md R300) of the word `w`: an illegal word is a CommandError, not a stop (R308). -/
def execute (w : Word) (s : State) : Host.Outcome State Fault Refusal :=
  match decode w with
  | .illegal d => .next (reportError (Word.opc w) d s)
  | .cmd i => exec i s

/-- `STORE(X, o, v)` (R88). -/
def store (m : Memory) (o : Nat) (v : Word) : Memory := Memory.write m o (laneBytes v)

/-- BUS_WRITE of `v` at an aligned offset (R88). STATUS, CTX, BUFSZ, CHAIN and the reserved offsets: no effect. -/
def busWrite (s : State) (a : Nat) (v : Word) : Host.Outcome State Fault Refusal :=
  match target s.cfg a with
  | .cmd => execute v { s with cmdr := v }
  | .status => .next s
  | .ctx => .next s
  | .dlen => .next { s with dlen := v }
  | .bufsz => .next s
  | .keyIn o => .next { s with keyIn := store s.keyIn o v }
  | .ivIn o => .next { s with ivIn := store s.ivIn o v }
  | .chain _ => .next s
  | .dbuf o => .next { s with dbuf := store s.dbuf o v }
  | .reserved => .next s

/-- RESET (70_reset_and_hazards.md R370): the block's state is that of a block just reset. The configuration stays
("BUFSZ keeps the value BUF_SIZE"); the host keeps what it has read and what it has still to do (log entry 6). -/
def resetBlock (s : State) : State :=
  { State.resetWith s.cfg with pending := s.pending, reads := s.reads }

/-- The host receives the word its read returned (R87); the block does not change. -/
def hostReceives (s : State) (v : Word) : State := { s with reads := s.reads ++ [v] }

/-- One host event at a state from whose list it has been taken. -/
def hostEvent (e : HostEvent) (s : State) : Host.Outcome State Fault Refusal :=
  match e with
  | .read width a =>
    if accessOk width a then
      match busRead s a.toNat with
      | some v => .next (hostReceives s v)
      | none => .fault .unwrittenRead
    else .fault .busMisaligned
  | .write width a v => if accessOk width a then busWrite s a.toNat v else .fault .busMisaligned
  | .reset => .next (resetBlock s)

/-- "One step per host bus access" (10_state.md R30), RESET being "a step of its own" (R370). With no event to
come the block is idle and keeps all its state (60_exceptions.md R355; log entry 5). -/
def hostStep (s : State) : Host.Outcome State Fault Refusal :=
  match s.pending with
  | [] => .next s
  | e :: rest => hostEvent e { s with pending := rest }

/-- The host's next access becomes the write of `w` to CMD, the one way a command word reaches the block
(20_memory.md R95). -/
def issueCommand (w : Word) (s : State) : State :=
  { s with pending := .write .word 0x0000 w :: s.pending }

end Sys2Proof.Machine
end

