-- ==== Sys2Proof/Machine/Assembler.lean ====
section
/-! DEFINITION. The spec's own command syntax (30_encoding.md R125) and host-program pseudo-instructions (R126).
No step reads them: they say which words and host events a written program stands for. -/

namespace Sys2Proof.Machine

/-! ## Command lines (R125) -/

/-- A command line, its operands named as R125 names them; `iv` omitted is `none`. -/
inductive CommandLine where
  | init (alg : Alg) (mode : Mode) (key : Nat) (iv : Option Nat)
  | encrypt
  | decrypt
  | pad (bs : Nat) (style : Style)
  | unpad (bs : Nat) (style : Style)
  | decryptUnpad (key : Nat) (iv : Option Nat) (bs : Nat)
  | release
  deriving DecidableEq, Repr

/-- The command a line stands for: "iv omitted: IVP=0, IVLEN=0; iv=<n>: IVP=1, IVLEN=n" (R125). -/
def lineInstr : CommandLine → Instr
  | .init alg mode key iv => .init alg mode iv.isSome key (iv.getD 0)
  | .encrypt => .encrypt
  | .decrypt => .decrypt
  | .pad bs style => .pad bs style
  | .unpad bs style => .unpad bs style
  | .decryptUnpad key iv bs => .decryptUnpad iv.isSome bs key (iv.getD 0)
  | .release => .release

/-- "Each line assembles to one word" (R125). -/
def assemble (l : CommandLine) : Word := encode (lineInstr l)

/-! ## Reading a line of text (R125; log entry 8) -/

/-- A text without the blanks around it. -/
def trimBlanks (t : List Char) : List Char :=
  ((t.dropWhile (fun c => c == ' ')).reverse.dropWhile (fun c => c == ' ')).reverse

/-- The value of a digit in base 16, for lower-case text. -/
def digitValue (c : Char) : Option Nat :=
  if '0' ≤ c ∧ c ≤ '9' then some (c.toNat - '0'.toNat)
  else if 'a' ≤ c ∧ c ≤ 'f' then some (c.toNat - 'a'.toNat + 10)
  else none

/-- The number written by digits in a base, from the value `acc` of the digits before them. -/
def readDigits (base : Nat) : List Char → Nat → Option Nat
  | [], acc => some acc
  | c :: cs, acc =>
    match digitValue c with
    | some v => if v < base then readDigits base cs (base * acc + v) else none
    | none => none

/-- "numbers are decimal unless written `0x…`" (R125). -/
def readNumber : List Char → Option Nat
  | [] => none
  | '0' :: 'x' :: c :: cs => readDigits 16 (c :: cs) 0
  | c :: cs => readDigits 10 (c :: cs) 0

/-- The `name=value` operands of a line, separated by commas; none if one is not of that form. -/
def readOperands (t : List Char) : Option (List (List Char × List Char)) :=
  if trimBlanks t = [] then some []
  else
    (t.splitOn ',').mapM fun o =>
      match o.splitOn '=' with
      | [name, value] => some (trimBlanks name, trimBlanks value)
      | _ => none

/-- `<DES|TDES|AES>` (R125), in lower case. -/
def readAlg (t : List Char) : Option Alg :=
  if t = "des".toList then some .des
  else if t = "tdes".toList then some .tdes
  else if t = "aes".toList then some .aes
  else none

/-- `<ECB|CBC>` (R125), in lower case. -/
def readMode (t : List Char) : Option Mode :=
  if t = "ecb".toList then some .ecb else if t = "cbc".toList then some .cbc else none

/-- `<PKCS7|X923|ISO7816>` (R125), in lower case. The unrecognized style has no keyword. -/
def readStyle (t : List Char) : Option Style :=
  if t = "pkcs7".toList then some .pkcs7
  else if t = "x923".toList then some .x923
  else if t = "iso7816".toList then some .iso7816
  else none

/-- The value of the operand `name` when it is the next of the list. -/
def operand (name : List Char) : List (List Char × List Char) → Option (List Char × List (List Char × List Char))
  | (n, v) :: rest => if n = name then some (v, rest) else none
  | [] => none

/-- The operand `[, iv=<n>]`, which may be omitted. -/
def optionalIv (ops : List (List Char × List Char)) : Option (Option Nat × List (List Char × List Char)) :=
  match operand "iv".toList ops with
  | some (v, rest) =>
    match readNumber v with
    | some n => some (some n, rest)
    | none => none
  | none => some (none, ops)

/-- `bs=<1..255>, style=<…>`, the operands of PAD and UNPAD. -/
def readPadOperands (ops : List (List Char × List Char)) : Option (Nat × Style) := do
  let (b, ops) ← operand "bs".toList ops
  let bs ← readNumber b
  let (st, ops) ← operand "style".toList ops
  let style ← readStyle st
  if 1 ≤ bs ∧ bs ≤ 255 ∧ ops = [] then some (bs, style) else none

/-- `alg=…, mode=…, key=…[, iv=…]`, the operands of INIT. -/
def readInitOperands (ops : List (List Char × List Char)) : Option CommandLine := do
  let (a, ops) ← operand "alg".toList ops
  let alg ← readAlg a
  let (m, ops) ← operand "mode".toList ops
  let mode ← readMode m
  let (k, ops) ← operand "key".toList ops
  let key ← readNumber k
  let (iv, ops) ← optionalIv ops
  if ops = [] then some (.init alg mode key iv) else none

/-- `key=…[, iv=…], bs=…`, the operands of DECRYPT_UNPAD. -/
def readDecryptUnpadOperands (ops : List (List Char × List Char)) : Option CommandLine := do
  let (k, ops) ← operand "key".toList ops
  let key ← readNumber k
  let (iv, ops) ← optionalIv ops
  let (b, ops) ← operand "bs".toList ops
  let bs ← readNumber b
  if ops = [] then some (.decryptUnpad key iv bs) else none

/-- The line of a mnemonic and its operands. -/
def readCommand (mnemonic : List Char) (ops : List (List Char × List Char)) : Option CommandLine :=
  if mnemonic = "init".toList then readInitOperands ops
  else if mnemonic = "pad".toList then (readPadOperands ops).map (fun p => .pad p.1 p.2)
  else if mnemonic = "unpad".toList then (readPadOperands ops).map (fun p => .unpad p.1 p.2)
  else if mnemonic = "decrypt_unpad".toList then readDecryptUnpadOperands ops
  else if ops ≠ [] then none
  else if mnemonic = "encrypt".toList then some .encrypt
  else if mnemonic = "decrypt".toList then some .decrypt
  else if mnemonic = "release".toList then some .release
  else none

/-- A command line from its text: "Keywords are case-insensitive" (R125). None where the text is no line, or a
number does not fit its field. DESIGN CHOICE (log entry 8): R125 is silent on the case of numbers, and the whole text
is read in lower case, so `0X20` and upper-case hex digits are read as hex. -/
def readLine (text : String) : Option CommandLine := do
  let t := trimBlanks (text.toList.map Char.toLower)
  let ops ← readOperands (t.dropWhile (fun c => c != ' '))
  let l ← readCommand (t.takeWhile (fun c => c != ' ')) ops
  if (lineInstr l).wf then some l else none

/-! ## Host programs (R126) -/

/-- `WR <off>, <u32>` (R126). -/
def hostWR (off : BitVec 16) (v : Word) : HostEvent := .write .word off v

/-- `RD <off>` (R126). -/
def hostRD (off : BitVec 16) : HostEvent := .read .word off

/-- The writes `WR base+4k, LE32(h[4k..4k+4))` for each `k < ceil(len(h)/4)`: `n` words from the offset `base`,
"a partial last word is completed with zero bytes" (R126). DESIGN CHOICE (log entry 13): for a string so long that an
offset would pass 0xFFFF, R126 gives no expansion, and the offset is wrapped to 16 bits. -/
def hostStage (base : Nat) : Nat → List Byte → List HostEvent
  | 0, _ => []
  | n + 1, h =>
    hostWR (BitVec.ofNat 16 base) (laneWord (h.getD 0 0) (h.getD 1 0) (h.getD 2 0) (h.getD 3 0)) ::
      hostStage (base + 4) n (h.drop 4)

/-- `LOADKEY h` (R126). -/
def hostLoadKey (h : List Byte) : List HostEvent := hostStage 0x0040 ((h.length + 3) / 4) h

/-- `LOADIV h` (R126). -/
def hostLoadIv (h : List Byte) : List HostEvent := hostStage 0x0060 ((h.length + 3) / 4) h

/-- `LOADDATA h`: the data words, then `WR 0x000C, len(h)` (R126). -/
def hostLoadData (h : List Byte) : List HostEvent :=
  hostStage 0x1000 ((h.length + 3) / 4) h ++ [hostWR 0x000C (BitVec.ofNat 32 h.length)]

/-- `RUN <command line>` (R126). -/
def hostRun (l : CommandLine) : List HostEvent := [hostWR 0x0000 (assemble l)]

/-- `CHECK`: `RD 0x0004` (R126). -/
def hostCheck : List HostEvent := [hostRD 0x0004]

/-- What CHECK expects of the word its read returned: "bit 1 (ERR) = 0" (R126). -/
def checkPasses (status : Word) : Bool := statusErr status == 0

end Sys2Proof.Machine
end

