-- ==== Sys2Proof/Safety.lean ====
section
/-! DEFINITION. The terms claims are stated in: what a window holds, the invariant of a safe run, what the host can
see, and the words of the spec's tables that the machine itself does not compute with. -/

namespace Sys2Proof.Machine

/-! ## Windows -/

/-- The window holds the byte string `b` from index `a` on. -/
abbrev Memory.holds (m : Memory) (a : Nat) (b : List Byte) : Prop :=
  ∀ j, j < b.length → Memory.get m (a + j) = some (b.getD j 0)

/-- Every listed cell lies below `n`, the size of the window. -/
abbrev Memory.below (m : Memory) (n : Nat) : Prop := ∀ c ∈ m, c.1 < n

/-- Some of the `n` cells from index `a` is UNWRITTEN. -/
abbrev Memory.hasUnwritten (m : Memory) (a n : Nat) : Prop :=
  ∃ j, j < n ∧ Memory.get m (a + j) = none

/-- The byte string `f` agrees with every written cell among its own from index `a` on: a way to fill the others. -/
abbrev Memory.agrees (m : Memory) (a : Nat) (f : List Byte) : Prop :=
  ∀ j, j < f.length → ∀ b, Memory.get m (a + j) = some b → f.getD j 0 = b

/-- The byte string `f` gives every byte of `c` a value, and keeps those it has. -/
abbrev fills (c : List (Option Byte)) (f : List Byte) : Prop :=
  f.length = c.length ∧ ∀ j, j < f.length → ∀ b, c.getD j none = some b → f.getD j 0 = b

/-- Every cell written in the window `m` holds the same byte in `m'`. -/
abbrev Memory.extendedBy (m m' : Memory) : Prop := ∀ k b, Memory.get m k = some b → Memory.get m' k = some b

/-- CHAIN with all 16 bytes zero (10_state.md R44). -/
def zeroChain : Vector Byte 16 := #v[0, 0, 0, 0, 0, 0, 0, 0, 0, 0, 0, 0, 0, 0, 0, 0]

/-! ## The invariant -/

/-- What the spec promises of every state a run can reach. -/
structure StateInv (s : State) : Prop where
  /-- BUF_SIZE is one of its legal values (00_scope.md R12). -/
  cfgLegal : s.cfg.legal
  /-- KEY_IN is canonical and has 32 cells (10_state.md R42). -/
  keyInWf : s.keyIn.wf ∧ s.keyIn.below 32
  /-- IV_IN is canonical and has 16 cells (R43). -/
  ivInWf : s.ivIn.wf ∧ s.ivIn.below 16
  /-- DBUF is canonical and has BUF_SIZE cells (R45). -/
  dbufWf : s.dbuf.wf ∧ s.dbuf.below s.cfg.bufSize
  /-- Without a context CTX's fields, CKEY and CHAIN are clear (R37, R46; 45_commands.md R307). -/
  noContext : s.ctx.valid = false → s.ctx = Ctx.empty ∧ s.ckey = [] ∧ s.chain = zeroChain
  /-- A context has a key length of its algorithm, and CKEY has that length (R46; 45_commands.md R301). -/
  context : s.ctx.valid = true →
    s.ctx.keylen.toNat ∈ keySet s.ctx.alg ∧ s.ckey.length = s.ctx.keylen.toNat
  /-- "For an ECB context CHAIN reads as zero throughout" (R44). -/
  ecbChain : s.ctx.mode = .ecb → s.chain = zeroChain
  /-- `CHAIN[BS..16)` "is zero for every context" (R44; 44_modes.md R288). -/
  chainTail : ∀ j, blockSize s.ctx.alg ≤ j → j < 16 → s.chain.toList.getD j 0 = 0
  /-- STATUS: BUSY 0, reserved bits 0, and ERR_KIND and ERR_DETAIL 0 when ERR = 0 (R34, R35). -/
  statusForm : statusBusy s.status = 0 ∧ statusReserved s.status = 0 ∧
    (statusErr s.status = 0 → statusErrKind s.status = 0 ∧ statusErrDetail s.status = 0)

/-! ## What the host can see -/

/-- Two states the host cannot tell apart by any read: everything but CKEY is equal (10_state.md R47). -/
abbrev sameButKey (s t : State) : Prop := t = { s with ckey := t.ckey }

/-- Two outcomes of a step the host cannot tell apart. -/
def outcomeSameButKey : Host.Outcome State Fault Refusal → Host.Outcome State Fault Refusal → Prop
  | .next s, .next t => sameButKey s t
  | .fault f, .fault g => f = g
  | .refused f, .refused g => f = g
  | _, _ => False

/-- An outcome with its next state, where it has one, passed through `f`. -/
def mapNext (f : State → State) : Host.Outcome State Fault Refusal → Host.Outcome State Fault Refusal
  | .next s => .next (f s)
  | .fault r => .fault r
  | .refused r => .refused r

/-! ## The columns of the spec's tables -/

/-- The must-be-zero column of 30_encoding.md R112, by the names of the fields. -/
def mustBeZero (w : Word) : Prop :=
  if Word.opc w = 0x1 then Word.bs w = 0 ∧ Word.style w = 0 ∧ Word.rsv w = 0
  else if Word.opc w = 0x4 ∨ Word.opc w = 0x5 then
    Word.alg w = 0 ∧ Word.mode w = 0 ∧ Word.ivp w = 0 ∧ Word.keylen w = 0 ∧ Word.ivlen w = 0 ∧ Word.rsv w = 0
  else if Word.opc w = 0x6 then Word.alg w = 0 ∧ Word.mode w = 0 ∧ Word.style w = 0 ∧ Word.rsv w = 0
  else
    Word.alg w = 0 ∧ Word.mode w = 0 ∧ Word.ivp w = 0 ∧ Word.bs w = 0 ∧ Word.style w = 0 ∧ Word.keylen w = 0 ∧
      Word.ivlen w = 0 ∧ Word.rsv w = 0

/-- The OPC values that name a command, 1 to 7 (R111, R120). -/
abbrev namesCommand (opc : BitVec 4) : Prop := 1 ≤ opc.toNat ∧ opc.toNat ≤ 7

/-- The column "raised by" of 60_exceptions.md R341, by the OPC of the commands whose own rule raises a detail. The
three command errors are DECODE's. -/
def raisedBy : Detail → List (BitVec 4)
  | .keyLen => [0x1, 0x6]
  | .ivLen => [0x1, 0x6]
  | .dataLen => [0x2, 0x3, 0x6]
  | .blockSize => [0x4, 0x5, 0x6]
  | .style => [0x4, 0x5]
  | .unpadLen => [0x5, 0x6]
  | .noContext => [0x2, 0x3]
  | .bounds => [0x2, 0x3, 0x4, 0x5, 0x6]
  | .padRange => [0x5, 0x6]
  | .padPattern => [0x5, 0x6]
  | .noMarker => [0x5]
  | .markerTrail => [0x5]
  | .badOpc => []
  | .reservedField => []
  | .badAlg => []

/-- The configuration checks of each command as 60_exceptions.md R346 orders them: condition and detail, first
failing first. Steps 1 and 2 and BAD_ALG are DECODE's, the checks that read data bytes are UNPAD_FN's. -/
def configChecks (i : Instr) (s : State) : List (Bool × Detail) :=
  match i with
  | .init alg mode ivp keylen ivlen =>
      [(decide (keylen ∉ keySet alg), .keyLen),
       (decide (mode = .cbc ∧ ivp = true ∧ ivlen ≠ blockSize alg), .ivLen)]
  | .encrypt =>
      [(!s.ctx.valid, .noContext), (decide (s.dlen.toNat % blockSize s.ctx.alg ≠ 0), .dataLen),
       (decide (s.dlen.toNat > s.cfg.bufSize), .bounds)]
  | .decrypt =>
      [(!s.ctx.valid, .noContext), (decide (s.dlen.toNat % blockSize s.ctx.alg ≠ 0), .dataLen),
       (decide (s.dlen.toNat > s.cfg.bufSize), .bounds)]
  | .pad bs style =>
      [(decide (¬(1 ≤ bs ∧ bs ≤ 255)), .blockSize), (decide (style = .unrecognized), .style),
       (decide (s.dlen.toNat > s.cfg.bufSize), .bounds),
       (decide (s.dlen.toNat + (bs - s.dlen.toNat % bs) > s.cfg.bufSize), .bounds)]
  | .unpad bs style =>
      [(decide (¬(1 ≤ bs ∧ bs ≤ 255)), .blockSize), (decide (style = .unrecognized), .style),
       (decide (s.dlen.toNat = 0 ∨ s.dlen.toNat % bs ≠ 0), .unpadLen),
       (decide (s.dlen.toNat > s.cfg.bufSize), .bounds)]
  | .decryptUnpad ivp bs keylen ivlen =>
      [(decide (keylen ∉ keySet .aes), .keyLen), (decide (ivp = true ∧ ivlen ≠ 16), .ivLen),
       (decide (s.dlen.toNat % 16 ≠ 0), .dataLen), (decide (s.dlen.toNat > s.cfg.bufSize), .bounds),
       (decide (¬(1 ≤ bs ∧ bs ≤ 255)), .blockSize),
       (decide (s.dlen.toNat = 0 ∨ s.dlen.toNat % bs ≠ 0), .unpadLen)]
  | .release => []

/-- The first check of a list that fails. -/
def firstFailing (cs : List (Bool × Detail)) : Option Detail := (cs.find? (fun c => c.1)).map (fun c => c.2)

/-- What a command consumes (60_exceptions.md R356, "Each command consumes exactly these bytes"): KEY_IN from 0,
IV_IN from 0, and DBUF from an index. -/
structure Consumed where
  key : Nat
  iv : Nat
  dataFrom : Nat
  data : Nat
  deriving DecidableEq, Repr

/-- R356's list, command by command. -/
def consumed (i : Instr) (s : State) : Consumed :=
  match i with
  | .init alg mode ivp keylen _ =>
      ⟨keylen, if mode = .cbc ∧ ivp = true then blockSize alg else 0, 0, 0⟩
  | .encrypt => ⟨0, 0, 0, s.dlen.toNat⟩
  | .decrypt => ⟨0, 0, 0, s.dlen.toNat⟩
  | .pad _ _ => ⟨0, 0, 0, 0⟩
  | .unpad bs _ => ⟨0, 0, s.dlen.toNat - bs, bs⟩
  | .decryptUnpad ivp _ keylen _ => ⟨keylen, if ivp then 16 else 0, 0, s.dlen.toNat⟩
  | .release => ⟨0, 0, 0, 0⟩

/-- A command would consume an UNWRITTEN byte. -/
def consumesUnwritten (i : Instr) (s : State) : Prop :=
  s.keyIn.hasUnwritten 0 (consumed i s).key ∨ s.ivIn.hasUnwritten 0 (consumed i s).iv ∨
    s.dbuf.hasUnwritten (consumed i s).dataFrom (consumed i s).data

/-- The data-integrity error that the written operands of a command settle, whatever value an UNWRITTEN byte has
(60_exceptions.md R346 steps 7 to 10, R356; log entry 4). -/
def settledPaddingError (i : Instr) (s : State) : Option Detail :=
  match i with
  | .init _ _ _ _ _ => none
  | .encrypt => none
  | .decrypt => none
  | .pad _ _ => none
  | .unpad bs style => settledError (Memory.cells s.dbuf (s.dlen.toNat - bs) bs) bs style
  | .decryptUnpad ivp bs keylen _ => settledError (plaintextCells ivp keylen s) bs .pkcs7
  | .release => none

/-- The state of a command about to run, as EXECUTE finds it after the bus write of `w` (45_commands.md R300). -/
def issued (s : State) (w : Word) (rest : List HostEvent) : State := { s with pending := rest, cmdr := w }

/-- The blocks of R282 from the chaining state on: what block `i` is combined with in CBC, the chaining state
at entry for the first block and else the ciphertext block before it (44_modes.md R283, R284). -/
def previousBlock (bs : Nat) (ch c : List Byte) (i : Nat) : List Byte :=
  if i = 0 then ch.take bs else (c.drop ((i - 1) * bs)).take bs

/-- Block `i` of a byte string cut into blocks of `bs` bytes (44_modes.md R282). -/
def blockAt (bs : Nat) (d : List Byte) (i : Nat) : List Byte := (d.drop (i * bs)).take bs

end Sys2Proof.Machine
end

