-- ==== Sys2Proof/Certificates/Slice0/Obligations.lean ====
section
/-! DEFINITION. The statements for the provers. Each docstring names the rules of the spec it rests on, and the log
entry of any choice of the model it mentions. -/

open Sys2Proof Sys2Proof.Machine

/-! ## Encoding (30_encoding.md) -/

/-- R110, R112, R123, R125: DECODE of a well-formed command's word is that command, operand for operand. -/
def Obligations.DecodeOfEncodeIsTheCommand : Prop :=
  ∀ i : Instr, i.wf = true → decode (encode i) = .cmd i

/-- R110, R112, R123, R125: a word DECODE accepts is the word of the command it decodes to; no two words mean the
same command. -/
def Obligations.EncodeOfDecodeIsTheWord : Prop :=
  ∀ (w : Word) (i : Instr), decode w = .cmd i → i.wf = true ∧ encode i = w

/-- Words written out from R110 and R125 (95_test_vectors.md V41), one or two a family. -/
def Obligations.WordsOfTheSpecDecode : Prop :=
  decode 0x00200001 = .cmd (.init .des .ecb false 8 0) ∧
  decode 0x086000D1 = .cmd (.init .tdes .cbc true 24 8) ∧
  decode 0x104000E1 = .cmd (.init .aes .cbc true 16 16) ∧
  decode 0x00000002 = .cmd .encrypt ∧
  decode 0x00000003 = .cmd .decrypt ∧
  decode 0x00010404 = .cmd (.pad 4 .x923) ∧
  decode 0x00000805 = .cmd (.unpad 8 .pkcs7) ∧
  decode 0x10401086 = .cmd (.decryptUnpad true 16 16 16) ∧
  decode 0x00000007 = .cmd .release

/-- R308, R120, R121: the words DECODE refuses are those whose OPC names no command, those with a must-be-zero field
that is not zero, and INIT with ALG = 3; writing one to CMD sets CMDR and STATUS and changes nothing else. -/
def Obligations.IllegalWordsChangeStatusOnly : Prop :=
  ∀ (s : State) (w : Word) (rest : List HostEvent), s.pending = .write .word 0x0000 w :: rest →
    (¬ namesCommand (Word.opc w) →
      step s = .next { issued s w rest with status := failWord (Word.opc w) .badOpc }) ∧
    (namesCommand (Word.opc w) → ¬ mustBeZero w →
      step s = .next { issued s w rest with status := failWord (Word.opc w) .reservedField }) ∧
    (Word.opc w = 0x1 → mustBeZero w → Word.alg w = 3 →
      step s = .next { issued s w rest with status := failWord 0x1 .badAlg }) ∧
    ((∃ d, decode w = .illegal d) ↔
      ¬ namesCommand (Word.opc w) ∨ ¬ mustBeZero w ∨ (Word.opc w = 0x1 ∧ Word.alg w = 3)) ∧
    (w = 0 → step s = .next { issued s w rest with status := 0x0000210E })

/-- R125: a command line assembles to `OPC | ALG<<4 | MODE<<6 | IVP<<7 | BS<<8 | STYLE<<16 | KEYLEN<<18 |
IVLEN<<24`, with iv omitted giving IVP = 0 and IVLEN = 0. -/
def Obligations.AssembledWordIsTheSumOfItsFields : Prop :=
  ∀ l : CommandLine, (lineInstr l).wf = true →
    (assemble l).toNat =
      match l with
      | .init alg mode key iv =>
          0x1 + alg.code.toNat * 2 ^ 4 + mode.code.toNat * 2 ^ 6 + (if iv.isSome then 2 ^ 7 else 0) +
            key * 2 ^ 18 + iv.getD 0 * 2 ^ 24
      | .encrypt => 0x2
      | .decrypt => 0x3
      | .pad bs style => 0x4 + bs * 2 ^ 8 + style.code.toNat * 2 ^ 16
      | .unpad bs style => 0x5 + bs * 2 ^ 8 + style.code.toNat * 2 ^ 16
      | .decryptUnpad key iv bs =>
          0x6 + (if iv.isSome then 2 ^ 7 else 0) + bs * 2 ^ 8 + key * 2 ^ 18 + iv.getD 0 * 2 ^ 24
      | .release => 0x7

/-! ## The step and the bus (10_state.md, 20_memory.md, 70_reset_and_hazards.md) -/

/-- R33, R86, R300: when the host's next access writes to CMD a word that decodes to a command, the step is that
command at the state with CMDR set and the access taken from the host's list; and `withFetchWord` places exactly
such an access. -/
def Obligations.StepRunsTheDecodedCommand : Prop :=
  (∀ (s : State) (w : Word) (rest : List HostEvent) (i : Instr),
    s.pending = .write .word 0x0000 w :: rest → decode w = .cmd i →
      step s = exec i { s with pending := rest, cmdr := w }) ∧
  (∀ (s : State) (nbits w : Nat) (i : Instr), decodeTableWord nbits w = some i →
      step (s.withFetchWord nbits w) = exec i { s with cmdr := tableWord nbits w })

/-- R370: RESET sets every component of the state, for any state before it, and leaves BUFSZ. -/
def Obligations.ResetEventGivesTheResetState : Prop :=
  ∀ (s : State) (rest : List HostEvent), s.pending = .reset :: rest →
    ∃ t, step s = .next t ∧ t.cmdr = 0x00000000 ∧ t.status = 0x00000000 ∧
      t.ctx.valid = false ∧ t.ctx.alg.code = 0 ∧ t.ctx.mode.code = 0 ∧ t.ctx.keylen = 0 ∧
      t.ckey = [] ∧ t.dlen = 0x00000000 ∧ (∀ j, j < 16 → t.chain.toList.getD j 0 = 0x00) ∧
      (∀ j, Memory.get t.keyIn j = none) ∧ (∀ j, Memory.get t.ivIn j = none) ∧
      (∀ j, Memory.get t.dbuf j = none) ∧
      busRead t 0x0010 = some (BitVec.ofNat 32 s.cfg.bufSize) ∧ t.cfg = s.cfg

/-- R371: what a host read gives right after reset, offset by offset, for every configuration: the value, or the model
fault UNWRITTEN_READ; CKEY is empty. The model's own choices: the value read goes to the field `reads`, empty at reset
(log entry 3), the access comes from `pending` (log entry 2), and the machine's reset state is the reset state of its
own configuration (log entry 1). -/
def Obligations.ResetStateReadsBack : Prop :=
  State.reset = State.resetWith State.reset.cfg ∧
  ∀ c : Config, c.legal → ∀ a : BitVec 16, a.toNat % 4 = 0 →
    let readsAs : Word → Prop := fun v =>
      step { State.resetWith c with pending := [.read .word a] } = .next { State.resetWith c with reads := [v] }
    let faults : Prop := step { State.resetWith c with pending := [.read .word a] } = .fault .unwrittenRead
    (a = 0x0000 ∨ a = 0x0004 ∨ a = 0x0008 ∨ a = 0x000C → readsAs 0x00000000) ∧
    (a = 0x0010 → readsAs (BitVec.ofNat 32 c.bufSize)) ∧
    (0x0040 ≤ a.toNat → a.toNat < 0x0070 → faults) ∧
    (0x0070 ≤ a.toNat → a.toNat < 0x0080 → readsAs 0x00000000) ∧
    (0x1000 ≤ a.toNat → a.toNat < 0x1000 + c.bufSize → faults) ∧
    ((0x0014 ≤ a.toNat ∧ a.toNat < 0x0040) ∨ (0x0080 ≤ a.toNat ∧ a.toNat < 0x1000) ∨ 0x1000 + c.bufSize ≤ a.toNat →
      readsAs 0x00000000) ∧
    (State.resetWith c).ckey = []

/-- The model's own choice (log entry 5) for a host that issues nothing: the block idles and "all its state survives
idleness" (60_exceptions.md R355). -/
def Obligations.IdleBlockKeepsItsState : Prop :=
  ∀ s : State, s.pending = [] → step s = .next s

/-- R83, R356: an access that is narrower than a word or not at a multiple of 4 is the fault BUS_MISALIGNED. -/
def Obligations.MisalignedAccessFaults : Prop :=
  ∀ (s : State) (rest : List HostEvent) (width : AccessWidth) (a : BitVec 16) (v : Word),
    width ≠ .word ∨ a.toNat % 4 ≠ 0 →
      (s.pending = .read width a :: rest → step s = .fault .busMisaligned) ∧
      (s.pending = .write width a v :: rest → step s = .fault .busMisaligned)

/-- R87 with R37, R38, R41, R50 and R84: what a read at each aligned offset returns, when it faults, and that it
changes nothing but the host's own record of what it read (the field `reads`, log entry 3) and its position. -/
def Obligations.BusReadReturnsTheMappedWord : Prop :=
  ∀ (s : State) (rest : List HostEvent) (a : BitVec 16), s.pending = .read .word a :: rest → a.toNat % 4 = 0 →
    let returns : Word → Prop := fun v => step s = .next { s with pending := rest, reads := s.reads ++ [v] }
    let window : Memory → Nat → Prop := fun m o =>
      (∀ x0 x1 x2 x3 : Byte, Memory.get m o = some x0 → Memory.get m (o + 1) = some x1 →
        Memory.get m (o + 2) = some x2 → Memory.get m (o + 3) = some x3 →
        returns (BitVec.ofNat 32 (x0.toNat + x1.toNat * 2 ^ 8 + x2.toNat * 2 ^ 16 + x3.toNat * 2 ^ 24))) ∧
      (m.hasUnwritten o 4 → step s = .fault .unwrittenRead)
    (a = 0x0000 → returns s.cmdr) ∧
    (a = 0x0004 → returns s.status) ∧
    (a = 0x0008 → s.ctx.valid = false → returns 0) ∧
    (a = 0x0008 → s.ctx.valid = true →
      returns (BitVec.ofNat 32 (1 + s.ctx.alg.code.toNat * 2 ^ 4 + s.ctx.mode.code.toNat * 2 ^ 6 +
        blockSize s.ctx.alg * 2 ^ 8 + s.ctx.keylen.toNat * 2 ^ 18))) ∧
    (a = 0x000C → returns s.dlen) ∧
    (a = 0x0010 → returns (BitVec.ofNat 32 s.cfg.bufSize)) ∧
    (0x0040 ≤ a.toNat → a.toNat ≤ 0x005C → window s.keyIn (a.toNat - 0x0040)) ∧
    (0x0060 ≤ a.toNat → a.toNat ≤ 0x006C → window s.ivIn (a.toNat - 0x0060)) ∧
    (0x0070 ≤ a.toNat → a.toNat ≤ 0x007C →
      returns (BitVec.ofNat 32
        ((s.chain.toList.getD (a.toNat - 0x0070) 0).toNat +
          (s.chain.toList.getD (a.toNat - 0x0070 + 1) 0).toNat * 2 ^ 8 +
          (s.chain.toList.getD (a.toNat - 0x0070 + 2) 0).toNat * 2 ^ 16 +
          (s.chain.toList.getD (a.toNat - 0x0070 + 3) 0).toNat * 2 ^ 24))) ∧
    (0x1000 ≤ a.toNat → a.toNat + 4 ≤ 0x1000 + s.cfg.bufSize → window s.dbuf (a.toNat - 0x1000)) ∧
    ((0x0014 ≤ a.toNat ∧ a.toNat < 0x0040) ∨ (0x0080 ≤ a.toNat ∧ a.toNat < 0x1000) ∨
      (0x1000 ≤ a.toNat ∧ 0x1000 + s.cfg.bufSize < a.toNat + 4) → returns 0)

/-- R88 with R84: what a write at each aligned offset stores, and that the read-only registers and the reserved
offsets ignore it; a write to CMD sets CMDR and executes the word. -/
def Obligations.BusWriteStoresTheMappedWord : Prop :=
  ∀ (s : State) (rest : List HostEvent) (a : BitVec 16) (v : Word), s.pending = .write .word a v :: rest →
    let stored : Memory → Memory → Nat → Prop := fun m m' o =>
      (∀ j, j < 4 → Memory.get m' (o + j) = some (v.extractLsb' (8 * j) 8)) ∧
      (∀ k, k < o ∨ o + 4 ≤ k → Memory.get m' k = Memory.get m k)
    (a.toNat % 4 ≠ 0 → step s = .fault .busMisaligned) ∧
    (a = 0x0000 → step s = execute v { s with pending := rest, cmdr := v }) ∧
    (a = 0x000C → step s = .next { s with pending := rest, dlen := v }) ∧
    (a.toNat % 4 = 0 → 0x0040 ≤ a.toNat → a.toNat ≤ 0x005C →
      ∃ m, step s = .next { s with pending := rest, keyIn := m } ∧ stored s.keyIn m (a.toNat - 0x0040)) ∧
    (a.toNat % 4 = 0 → 0x0060 ≤ a.toNat → a.toNat ≤ 0x006C →
      ∃ m, step s = .next { s with pending := rest, ivIn := m } ∧ stored s.ivIn m (a.toNat - 0x0060)) ∧
    (a.toNat % 4 = 0 → 0x1000 ≤ a.toNat → a.toNat + 4 ≤ 0x1000 + s.cfg.bufSize →
      ∃ m, step s = .next { s with pending := rest, dbuf := m } ∧ stored s.dbuf m (a.toNat - 0x1000)) ∧
    (a.toNat % 4 = 0 →
      a = 0x0004 ∨ a = 0x0008 ∨ (0x0010 ≤ a.toNat ∧ a.toNat < 0x0040) ∨
        (0x0070 ≤ a.toNat ∧ a.toNat < 0x1000) ∨
        (0x1000 ≤ a.toNat ∧ 0x1000 + s.cfg.bufSize < a.toNat + 4) →
      step s = .next { s with pending := rest })

/-- R84, R91: a word written to DLEN or to a window is the word the next access reads there. -/
def Obligations.WriteThenReadReturnsTheWord : Prop :=
  ∀ (s : State) (rest : List HostEvent) (a : BitVec 16) (v : Word),
    s.pending = .write .word a v :: .read .word a :: rest → a.toNat % 4 = 0 →
    a = 0x000C ∨ (0x0040 ≤ a.toNat ∧ a.toNat < 0x0070) ∨
      (0x1000 ≤ a.toNat ∧ a.toNat + 4 ≤ 0x1000 + s.cfg.bufSize) →
    ∃ t, Host.Core.run Sys2Proof.core 2 s = .next t ∧ t.reads = s.reads ++ [v] ∧ t.pending = rest

/-- R89: "Every other write is idempotent: writing the same value twice equals writing it once." -/
def Obligations.RepeatedWriteIsOneWrite : Prop :=
  ∀ (s : State) (rest : List HostEvent) (a : BitVec 16) (v : Word), a.toNat % 4 = 0 → a ≠ 0x0000 →
    Host.Core.run Sys2Proof.core 2 { s with pending := .write .word a v :: .write .word a v :: rest } =
      Host.Core.run Sys2Proof.core 1 { s with pending := .write .word a v :: rest }

/-- R126: the accesses LOADDATA expands to store the string from DBUF[0] on, the zero bytes that complete the last
word after it, and its length in DLEN, and nothing else. -/
def Obligations.LoadDataStagesTheString : Prop :=
  ∀ (s : State) (h : List Byte) (rest : List HostEvent), s.cfg.legal → h.length ≤ s.cfg.bufSize →
    ∃ m, Host.Core.run Sys2Proof.core ((h.length + 3) / 4 + 1) { s with pending := hostLoadData h ++ rest } =
        .next { s with pending := rest, dbuf := m, dlen := BitVec.ofNat 32 h.length } ∧
      m.holds 0 h ∧
      (∀ k, h.length ≤ k → k < 4 * ((h.length + 3) / 4) → Memory.get m k = some 0x00) ∧
      (∀ k, 4 * ((h.length + 3) / 4) ≤ k → Memory.get m k = Memory.get s.dbuf k)

/-- R50: "No event other than reset makes a cell UNWRITTEN again." -/
def Obligations.CellsStayWritten : Prop :=
  ∀ (s t : State), step s = .next t → (∀ rest, s.pending ≠ .reset :: rest) → ∀ k,
    ((Memory.get s.keyIn k).isSome → (Memory.get t.keyIn k).isSome) ∧
    ((Memory.get s.ivIn k).isSome → (Memory.get t.ivIn k).isSome) ∧
    ((Memory.get s.dbuf k).isSome → (Memory.get t.dbuf k).isSome)

/-- R40, R12: no step changes the configuration, a write to BUFSZ and a reset among them, so BUFSZ always reads as
BUF_SIZE. -/
def Obligations.BufSizeNeverChanges : Prop :=
  (∀ s : State, busRead s 0x0010 = some (BitVec.ofNat 32 s.cfg.bufSize)) ∧
  (∀ (s t : State), step s = .next t → t.cfg = s.cfg) ∧
  (∀ (s : State) (rest : List HostEvent) (v : Word), s.pending = .write .word 0x0010 v :: rest →
    step s = .next { s with pending := rest })

/-- R34, R35, R37, R42 to R46, R288, R301: the invariant of `Safety.lean` holds after every step from a state that
meets it. -/
def Obligations.StepKeepsTheInvariant : Prop :=
  ∀ (s t : State), StateInv s → step s = .next t → StateInv t

/-- The invariant holds at reset, for every legal BUF_SIZE and for the machine's own reset state. -/
def Obligations.ResetMeetsTheInvariant : Prop :=
  (∀ c : Config, c.legal → StateInv (State.resetWith c)) ∧ StateInv State.reset

/-- R356 with log entry 4 (a padding error is reported, and no byte consumed, exactly when the written bytes settle
it): a step stops exactly at the three model faults, and nothing is refused. -/
def Obligations.StepsStopExactlyAtModelFaults : Prop :=
  ∀ s : State, (∀ r, step s ≠ .refused r) ∧
    ∀ f, step s = .fault f ↔
      ∃ e rest, s.pending = e :: rest ∧
        ((f = .busMisaligned ∧ ∃ width a, (width ≠ .word ∨ a.toNat % 4 ≠ 0) ∧
            (e = .read width a ∨ ∃ v, e = .write width a v)) ∨
          (f = .unwrittenRead ∧ ∃ a, e = .read .word a ∧ a.toNat % 4 = 0 ∧
            ((0x0040 ≤ a.toNat ∧ a.toNat < 0x0060 ∧ s.keyIn.hasUnwritten (a.toNat - 0x0040) 4) ∨
              (0x0060 ≤ a.toNat ∧ a.toNat < 0x0070 ∧ s.ivIn.hasUnwritten (a.toNat - 0x0060) 4) ∨
              (0x1000 ≤ a.toNat ∧ a.toNat + 4 ≤ 0x1000 + s.cfg.bufSize ∧
                s.dbuf.hasUnwritten (a.toNat - 0x1000) 4))) ∨
          (f = .unwrittenUse ∧ ∃ w i, e = .write .word 0x0000 w ∧ decode w = .cmd i ∧
            firstFailing (configChecks i s) = none ∧ consumesUnwritten i s ∧ settledPaddingError i s = none))

/-! ## STATUS and errors (60_exceptions.md) -/

/-- R342: the word every command leaves in STATUS, a refused word too, with the rule's examples. -/
def Obligations.StatusWordAfterEveryCommand : Prop :=
  (∀ (w : Word) (s t : State), execute w s = .next t →
    t.status.toNat = (w.toNat % 16) * 2 ^ 16 ∨
    ∃ d, t.status.toNat =
      (w.toNat % 16) * 2 ^ 16 + (detailCode d).toNat * 2 ^ 8 + (errKindCode (detailKind d)).toNat * 2 ^ 2 + 2) ∧
  successWord 5 = 0x00050000 ∧ failWord 5 .padPattern = 0x0005120A ∧ failWord 2 .noContext = 0x00020706 ∧
  failWord 0 .badOpc = 0x0000210E

/-- R341, columns code, kind and "raised by": the codes, and that a command reports only the details the table gives
it, DECODE only the three command errors. -/
def Obligations.DetailsAreReportedByTheirCommands : Prop :=
  [Detail.keyLen, .ivLen, .dataLen, .blockSize, .style, .unpadLen, .noContext, .bounds, .padRange, .padPattern,
      .noMarker, .markerTrail, .badOpc, .reservedField, .badAlg].map
    (fun d => ((detailCode d).toNat, (errKindCode (detailKind d)).toNat)) =
      [(0x01, 1), (0x02, 1), (0x03, 1), (0x04, 1), (0x05, 1), (0x06, 1), (0x07, 1), (0x08, 1), (0x11, 2), (0x12, 2),
        (0x13, 2), (0x14, 2), (0x21, 3), (0x22, 3), (0x23, 3)] ∧
  (∀ (i : Instr) (s t : State) (d : Detail), exec i s = .next t → t.status = failWord i.opc d → i.opc ∈ raisedBy d) ∧
  (∀ (w : Word) (d : Detail), decode w = .illegal d → d = .badOpc ∨ d = .reservedField ∨ d = .badAlg)

/-- R343: "A failing command changes no state except STATUS." -/
def Obligations.FailingCommandChangesStatusOnly : Prop :=
  ∀ (w : Word) (s t : State), execute w s = .next t → statusErr t.status = 1 → t = { s with status := t.status }

/-- R33, R36, R347: no command reads STATUS, CMDR or the host's position and record, so no error and no earlier
command word bears on a later command. -/
def Obligations.CommandsIgnoreStatusAndCmdr : Prop :=
  ∀ (i : Instr) (s : State) (c st : Word) (p : List HostEvent) (r : List Word),
    exec i { s with cmdr := c, status := st, pending := p, reads := r } =
      mapNext (fun t => { t with cmdr := c, pending := p, reads := r }) (exec i s)

/-- R346 with R341's causes: the first configuration check that fails, in the table's order, is the error a command
reports; when none fails, no configuration error is reported. -/
def Obligations.FirstFailingCheckIsReported : Prop :=
  ∀ (i : Instr) (s : State),
    (∀ d, firstFailing (configChecks i s) = some d → exec i s = .next { s with status := failWord i.opc d }) ∧
    (firstFailing (configChecks i s) = none → ∀ t d, exec i s = .next t → t.status = failWord i.opc d →
      detailKind d = .dataIntegrityError)

/-! ## Hidden state and the context (10_state.md R44 to R48) -/

/-- R47: no read shows CKEY, and no step but an ENCRYPT or a DECRYPT lets it bear on anything the host can see. -/
def Obligations.KeyIsInvisible : Prop :=
  (∀ (s : State) (k : List Byte) (a : Nat), busRead { s with ckey := k } a = busRead s a) ∧
  (∀ (s : State) (k : List Byte),
    (∀ w rest, s.pending = .write .word 0x0000 w :: rest → decode w ≠ .cmd .encrypt ∧ decode w ≠ .cmd .decrypt) →
    outcomeSameButKey (step s) (step { s with ckey := k }))

/-- R48, and R44's list of what writes CHAIN: CKEY and CTX change only on a successful INIT or RELEASE, CHAIN also on
a successful CBC ENCRYPT or DECRYPT; RESET apart. -/
def Obligations.ContextChangesOnlyByItsCommands : Prop :=
  ∀ (s t : State), step s = .next t → (∀ rest, s.pending ≠ .reset :: rest) →
    let succeeded : (Instr → Prop) → Prop := fun p =>
      ∃ w rest i, s.pending = .write .word 0x0000 w :: rest ∧ decode w = .cmd i ∧ statusErr t.status = 0 ∧ p i
    (t.ctx ≠ s.ctx ∨ t.ckey ≠ s.ckey →
      succeeded fun i => (∃ alg mode ivp keylen ivlen, i = .init alg mode ivp keylen ivlen) ∨ i = .release) ∧
    (t.chain ≠ s.chain →
      succeeded fun i => (∃ alg mode ivp keylen ivlen, i = .init alg mode ivp keylen ivlen) ∨ i = .release ∨
        ((i = .encrypt ∨ i = .decrypt) ∧ s.ctx.mode = .cbc))

/-- R48, R377: ENCRYPT and DECRYPT do not read KEY_IN or IV_IN, so staging the next context changes nothing. -/
def Obligations.StagingDoesNotTouchTheContext : Prop :=
  ∀ (i : Instr) (s : State) (k v : Memory), i = .encrypt ∨ i = .decrypt →
    exec i { s with keyIn := k, ivIn := v } = mapNext (fun t => { t with keyIn := k, ivIn := v }) (exec i s)

/-- R37, R38: the fields of the word CTX reads as. -/
def Obligations.CtxWordHasItsFields : Prop :=
  ∀ c : Ctx,
    (c.valid = false → ctxWord c = 0) ∧
    (c.valid = true →
      (ctxWord c).extractLsb' 0 1 = 1 ∧ (ctxWord c).extractLsb' 1 3 = 0 ∧
      (ctxWord c).extractLsb' 4 2 = c.alg.code ∧ (ctxWord c).extractLsb' 6 1 = c.mode.code ∧
      (ctxWord c).extractLsb' 7 1 = 0 ∧ ((ctxWord c).extractLsb' 8 8).toNat = blockSize c.alg ∧
      (ctxWord c).extractLsb' 16 2 = 0 ∧ (ctxWord c).extractLsb' 18 6 = c.keylen ∧
      (ctxWord c).extractLsb' 24 8 = 0)

/-! ## INIT and RELEASE (45_commands.md R301, R307, R310) -/

/-- R301: INIT with a key length of its algorithm and, in CBC with IVP = 1, an IV of one block, completes: the new
context, its key, and CHAIN the IV filled up with zeros, or all zero. IV_IN is read only in that case. -/
def Obligations.InitCompletes : Prop :=
  ∀ (alg : Alg) (mode : Mode) (ivp : Bool) (keylen ivlen : Nat) (s : State) (key iv : List Byte),
    (alg = .des ∧ keylen = 8) ∨ (alg = .tdes ∧ (keylen = 16 ∨ keylen = 24)) ∨
      (alg = .aes ∧ (keylen = 16 ∨ keylen = 24 ∨ keylen = 32)) →
    key.length = keylen → s.keyIn.holds 0 key →
    (mode = .cbc → ivp = true →
      ivlen = blockSize alg ∧ iv.length = blockSize alg ∧ s.ivIn.holds 0 iv) →
    ∃ ch, exec (.init alg mode ivp keylen ivlen) s =
        .next { s with
          ctx := ⟨true, alg, mode, BitVec.ofNat 6 keylen⟩
          ckey := key
          chain := ch
          status := 0x00010000 } ∧
      ∀ j, j < 16 → ch.toList.getD j 0 =
        if mode = .cbc ∧ ivp = true ∧ j < blockSize alg then iv.getD j 0 else 0x00

/-- R307: RELEASE always completes, clears CTX, CKEY and CHAIN, touches nothing else but STATUS, is idempotent, and
after it ENCRYPT and DECRYPT fail with NO_CONTEXT; of the words with its OPC, 0x00000007 is RELEASE and every other is
RESERVED_FIELD. -/
def Obligations.ReleaseCompletes : Prop :=
  (∀ s : State, ∃ t, exec .release s = .next t ∧
    t = { s with ctx := ⟨false, .des, .ecb, 0⟩, ckey := [], chain := zeroChain, status := 0x00070000 } ∧
    ctxWord t.ctx = 0 ∧ exec .release t = .next t ∧
    exec .encrypt t = .next { t with status := failWord 0x2 .noContext } ∧
    exec .decrypt t = .next { t with status := failWord 0x3 .noContext }) ∧
  ∀ w : Word, Word.opc w = 0x7 → decode w = if w = 0x00000007 then .cmd .release else .illegal .reservedField

/-- R310: the default IV is the all-zero IV, for INIT in CBC and for DECRYPT_UNPAD. -/
def Obligations.DefaultIvIsZero : Prop :=
  (∀ (alg : Alg) (keylen ivlen : Nat) (s : State), s.ivIn.holds 0 (List.replicate (blockSize alg) 0x00) →
    exec (.init alg .cbc false keylen ivlen) s = exec (.init alg .cbc true keylen (blockSize alg)) s) ∧
  (∀ (bs keylen ivlen : Nat) (s : State), s.ivIn.holds 0 (List.replicate 16 0x00) →
    exec (.decryptUnpad false bs keylen ivlen) s = exec (.decryptUnpad true bs keylen 16) s)

/-! ## ENCRYPT and DECRYPT (45_commands.md R302, R303) -/

/-- R302, R303: with a context, whole blocks, DLEN at most BUF_SIZE and the data written, ENCRYPT and DECRYPT
complete: MODE_APPLY's output stands over the data, CHAIN is its exit state, and DLEN and the rest stay. -/
def Obligations.EncryptAndDecryptComplete : Prop :=
  ∀ (s : State) (data : List Byte), s.ctx.valid = true → s.dlen.toNat % blockSize s.ctx.alg = 0 →
    s.dlen.toNat ≤ s.cfg.bufSize → data.length = s.dlen.toNat → s.dbuf.holds 0 data →
    let completes : Instr → Dir → Word → Prop := fun i dir word =>
      ∃ out ch m v, modeApply s.ctx.alg s.ctx.mode s.ckey dir s.chain.toList data = .ok (out, ch) ∧
        exec i s = .next { s with dbuf := m, chain := v, status := word } ∧
        out.length = s.dlen.toNat ∧ m.holds 0 out ∧
        (∀ k, s.dlen.toNat ≤ k → Memory.get m k = Memory.get s.dbuf k) ∧ v.toList = ch
    completes .encrypt .enc 0x00020000 ∧ completes .decrypt .dec 0x00030000

/-! ## The mode controllers (44_modes.md) -/

/-- R282, with R281: ECB transforms each block on its own and leaves the chaining state. -/
def Obligations.EcbTransformsEachBlockAlone : Prop :=
  ∀ (alg : Alg) (k : List Byte) (dir : Dir) (ch data : List Byte), data.length % blockSize alg = 0 →
    ∃ out, modeApply alg .ecb k dir ch data = .ok (out, ch) ∧ out.length = data.length ∧
      ∀ i, i < data.length / blockSize alg →
        blockAt (blockSize alg) out i =
          match dir with
          | .enc => bcEnc alg k (blockAt (blockSize alg) data i)
          | .dec => bcDec alg k (blockAt (blockSize alg) data i)

/-- R283, R285: CBC encryption chains each block on the ciphertext before it; the exit state is the last ciphertext
block, or the entry state when there is none. -/
def Obligations.CbcEncryptChains : Prop :=
  ∀ (alg : Alg) (k ch data : List Byte), ch.length = 16 → data.length % blockSize alg = 0 →
    ∃ out, modeApply alg .cbc k .enc ch data =
        .ok (out, previousBlock (blockSize alg) ch out (data.length / blockSize alg) ++ ch.drop (blockSize alg)) ∧
      out.length = data.length ∧
      ∀ i, i < data.length / blockSize alg →
        blockAt (blockSize alg) out i =
          bcEnc alg k (xorBytes (blockAt (blockSize alg) data i) (previousBlock (blockSize alg) ch out i))

/-- R284, R285: CBC decryption chains on the *input* ciphertext, and the exit state is its last block. -/
def Obligations.CbcDecryptChains : Prop :=
  ∀ (alg : Alg) (k ch data : List Byte), ch.length = 16 → data.length % blockSize alg = 0 →
    ∃ out, modeApply alg .cbc k .dec ch data =
        .ok (out, previousBlock (blockSize alg) ch data (data.length / blockSize alg) ++ ch.drop (blockSize alg)) ∧
      out.length = data.length ∧
      ∀ i, i < data.length / blockSize alg →
        blockAt (blockSize alg) out i =
          xorBytes (bcDec alg k (blockAt (blockSize alg) data i)) (previousBlock (blockSize alg) ch data i)

/-- R287: processing `A` and then `B` is processing `A || B`, in both modes and both directions. -/
def Obligations.StreamingIsOneCall : Prop :=
  ∀ (alg : Alg) (mode : Mode) (k : List Byte) (dir : Dir) (ch a b : List Byte), ch.length = 16 →
    a.length % blockSize alg = 0 → b.length % blockSize alg = 0 →
    ∃ outA chA outB chB, modeApply alg mode k dir ch a = .ok (outA, chA) ∧
      modeApply alg mode k dir chA b = .ok (outB, chB) ∧
      modeApply alg mode k dir ch (a ++ b) = .ok (outA ++ outB, chB)

/-- R290: decrypting the encryption of `data` from the same chaining state returns `data`, with the same exit
state. -/
def Obligations.DecryptionInvertsEncryption : Prop :=
  ∀ (alg : Alg) (mode : Mode) (k ch data : List Byte), k.length ∈ keySet alg → ch.length = 16 →
    data.length % blockSize alg = 0 →
    ∃ out ch', modeApply alg mode k .enc ch data = .ok (out, ch') ∧
      modeApply alg mode k .dec ch out = .ok (data, ch')

/-! ## DES and 3DES (41_des.md, 43_tdes.md) -/

/-- R196: DES_DEC and DES_ENC under one key invert each other. -/
def Obligations.DesDecryptInvertsEncrypt : Prop :=
  ∀ k b : List Byte, k.length = 8 → b.length = 8 → desDec k (desEnc k b) = b ∧ desEnc k (desDec k b) = b

/-- R182: FP is the inverse of IP, on both sides. -/
def Obligations.FinalPermutationInvertsInitial : Prop :=
  ∀ v : BitVec 64, perm 64 tableFP (perm 64 tableIP v) = v ∧ perm 64 tableIP (perm 64 tableFP v) = v

/-- R187, R190: subkey `i` is PC2 of C0 and D0 rotated left by the sum of the schedule's first `i` amounts; there are
16, and the whole schedule rotates by 28. -/
def Obligations.DesScheduleIsRotatedHalves : Prop :=
  ∀ k : List Byte, (desKS k).length = 16 ∧ tableROT.sum = 28 ∧
    ∀ i, i < 16 →
      (desKS k).getD i 0 =
        perm 48 tablePC2
          (((perm 56 tablePC1 (be64 k)).extractLsb' 28 28).rotateLeft (tableROT.take (i + 1)).sum ++
            ((perm 56 tablePC1 (be64 k)).extractLsb' 0 28).rotateLeft (tableROT.take (i + 1)).sum)

/-- R191, R185: keys that differ only in the least significant bits of their bytes give identical subkeys. -/
def Obligations.DesParityBitsAreIgnored : Prop :=
  ∀ k k' : List Byte, k.length = 8 → k'.length = 8 →
    (∀ j, j < 8 → k.getD j 0 >>> 1 = k'.getD j 0 >>> 1) → desKS k = desKS k'

/-- R260 to R263: the key split and the EDE composition, for the 2-key and the 3-key option. -/
def Obligations.TdesSplitsItsKey : Prop :=
  ∀ k1 k2 k3 b : List Byte, k1.length = 8 → k2.length = 8 → k3.length = 8 →
    tdesEnc (k1 ++ k2) b = desEnc k1 (desDec k2 (desEnc k1 b)) ∧
    tdesEnc (k1 ++ k2 ++ k3) b = desEnc k3 (desDec k2 (desEnc k1 b)) ∧
    tdesDec (k1 ++ k2) b = desDec k1 (desEnc k2 (desDec k1 b)) ∧
    tdesDec (k1 ++ k2 ++ k3) b = desDec k1 (desEnc k2 (desDec k3 b))

/-- R265: TDES_DEC inverts TDES_ENC, and what equal key parts reduce to. -/
def Obligations.TdesInvertsAndDegenerates : Prop :=
  (∀ k b : List Byte, k.length = 16 ∨ k.length = 24 → b.length = 8 →
    tdesDec k (tdesEnc k b) = b ∧ tdesEnc k (tdesDec k b) = b) ∧
  (∀ k1 k2 b : List Byte, k1.length = 8 → k2.length = 8 → b.length = 8 →
    tdesEnc (k1 ++ k1 ++ k2) b = desEnc k2 b ∧ tdesEnc (k1 ++ k2 ++ k2) b = desEnc k1 b ∧
    tdesEnc (k1 ++ k2 ++ k1) b = tdesEnc (k1 ++ k2) b ∧
    tdesEnc (k1 ++ k1 ++ k1) b = desEnc k1 b ∧ tdesEnc (k1 ++ k1) b = desEnc k1 b)

/-! ## AES (42_aes.md) -/

/-- R239: AES_DEC is the inverse of the bijection AES_ENC, for every valid key. -/
def Obligations.AesDecryptInvertsEncrypt : Prop :=
  ∀ key b : List Byte, key.length = 16 ∨ key.length = 24 ∨ key.length = 32 → b.length = 16 →
    aesDec key (aesEnc key b) = b ∧ aesEnc key (aesDec key b) = b

/-- R225, R227: the length of the expanded key, its first words, and the recurrence of all the others. -/
def Obligations.AesKeyExpansionRecurrence : Prop :=
  ∀ (key : List Byte) (nk : Nat), key.length = 4 * nk → nk = 4 ∨ nk = 6 ∨ nk = 8 →
    (aesKE key).length = 4 * (nk + 6 + 1) ∧
    (∀ i, i < nk → (aesKE key).getD i 0 = be32 (slice key (4 * i) (4 * i + 4))) ∧
    (∀ i, nk ≤ i → i < 4 * (nk + 6 + 1) →
      (aesKE key).getD i 0 = (aesKE key).getD (i - nk) 0 ^^^
        if i % nk = 0 then subWord (rotWord ((aesKE key).getD (i - 1) 0)) ^^^ rconWord (i / nk)
        else if nk = 8 ∧ i % nk = 4 then subWord ((aesKE key).getD (i - 1) 0)
        else (aesKE key).getD (i - 1) 0)

/-- R222, R223, R224: the S-box is the affine map of the field inverse, the inverse S-box inverts it, and each round
constant is the double of the one before. -/
def Obligations.AesTablesAreTheirDefinitions : Prop :=
  (∀ x : Byte, ∃ b : Byte, (x = 0 → b = 0) ∧ (x ≠ 0 → gmul x b = 0x01) ∧
    sbox x = b ^^^ b.rotateLeft 1 ^^^ b.rotateLeft 2 ^^^ b.rotateLeft 3 ^^^ b.rotateLeft 4 ^^^ 0x63) ∧
  (∀ x : Byte, invSbox (sbox x) = x) ∧
  rconWord 1 = 0x01000000 ∧
  (∀ i, 1 ≤ i → i < 10 → rconWord (i + 1) = (xtime ((rconWord i).extractLsb' 24 8)).setWidth 32 <<< 24)

/-- R223, R235, R237: each inverse round step undoes its step, on every state. -/
def Obligations.AesInverseStepsUndoTheSteps : Prop :=
  ∀ s : AesState, invSubBytes (subBytes s) = s ∧ invShiftRows (shiftRows s) = s ∧ invMixColumns (mixColumns s) = s

/-! ## Padding (40_padding.md; 45_commands.md R304 to R306) -/

/-- R141, R142: PAD_FN style by style, and its two errors in order. -/
def Obligations.PadFnAppendsThePadding : Prop :=
  ∀ (d : List Byte) (bs : Nat),
    (1 ≤ bs → bs ≤ 255 →
      padFn d bs .pkcs7 = .ok (d ++ List.replicate (padLen d.length bs) (BitVec.ofNat 8 (padLen d.length bs))) ∧
      padFn d bs .x923 =
        .ok (d ++ (List.replicate (padLen d.length bs - 1) 0x00 ++ [BitVec.ofNat 8 (padLen d.length bs)])) ∧
      padFn d bs .iso7816 = .ok (d ++ ([0x80] ++ List.replicate (padLen d.length bs - 1) 0x00)) ∧
      padFn d bs .unrecognized = .error .style) ∧
    (bs < 1 ∨ 255 < bs → ∀ style, padFn d bs style = .error .blockSize) ∧
    (∀ style out, padFn d bs style = .ok out → out.length = d.length + padLen d.length bs ∧ out.length % bs = 0)

/-- R153: unpadding what was padded gives back the length of the data, for every style and block size. -/
def Obligations.UnpadInvertsPad : Prop :=
  ∀ (d : List Byte) (bs : Nat) (style : Style), 1 ≤ bs → bs ≤ 255 → style ≠ .unrecognized →
    ∃ out, padFn d bs style = .ok out ∧ unpadFn out bs style = .ok d.length

/-- R151, R154: UNPAD_FN accepts exactly the strings that end in a padding of at most one block, "and nothing
more". -/
def Obligations.UnpadAcceptsExactlyThePadded : Prop :=
  ∀ (d : List Byte) (bs : Nat) (style : Style) (n : Nat), 1 ≤ bs → bs ≤ 255 → style ≠ .unrecognized →
    (unpadFn d bs style = .ok n ↔
      d.length ≠ 0 ∧ d.length % bs = 0 ∧ n < d.length ∧ d.length ≤ n + bs ∧
        d = d.take n ++ padBytes (d.length - n) style)

/-- R144 to R147: the checks of UNPAD_FN before it reads a byte, then pkcs7 and x923: the range of the length byte,
then the pattern. -/
def Obligations.UnpadCountedPaddings : Prop :=
  ∀ (d : List Byte) (bs : Nat),
    (bs < 1 ∨ 255 < bs → ∀ style, unpadFn d bs style = .error .blockSize) ∧
    (1 ≤ bs → bs ≤ 255 →
      unpadFn d bs .unrecognized = .error .style ∧
      (d.length = 0 ∨ d.length % bs ≠ 0 → ∀ style, style ≠ .unrecognized → unpadFn d bs style = .error .unpadLen) ∧
      (d.length ≠ 0 → d.length % bs = 0 → ∀ p : Nat, p = (d.getD (d.length - 1) 0).toNat →
        (p < 1 ∨ bs < p → unpadFn d bs .pkcs7 = .error .padRange ∧ unpadFn d bs .x923 = .error .padRange) ∧
        (1 ≤ p → p ≤ bs →
          ((∃ j, d.length - p ≤ j ∧ j < d.length ∧ (d.getD j 0).toNat ≠ p) →
            unpadFn d bs .pkcs7 = .error .padPattern) ∧
          ((∀ j, d.length - p ≤ j → j < d.length → (d.getD j 0).toNat = p) →
            unpadFn d bs .pkcs7 = .ok (d.length - p)) ∧
          ((∃ j, d.length - p ≤ j ∧ j < d.length - 1 ∧ d.getD j 0 ≠ 0x00) →
            unpadFn d bs .x923 = .error .padPattern) ∧
          ((∀ j, d.length - p ≤ j → j < d.length - 1 → d.getD j 0 = 0x00) →
            unpadFn d bs .x923 = .ok (d.length - p)))))

/-- R148, R149: iso7816 finds the rightmost 0x80 of the final block and requires zeros after it. -/
def Obligations.UnpadMarkedPaddings : Prop :=
  ∀ (d : List Byte) (bs : Nat), 1 ≤ bs → bs ≤ 255 → d.length ≠ 0 → d.length % bs = 0 →
    ((∀ i, d.length - bs ≤ i → i < d.length → d.getD i 0 ≠ 0x80) → unpadFn d bs .iso7816 = .error .noMarker) ∧
    (∀ j, d.length - bs ≤ j → j < d.length → d.getD j 0 = 0x80 →
      (∀ i, j < i → i < d.length → d.getD i 0 ≠ 0x80) →
        ((∃ i, j < i ∧ i < d.length ∧ d.getD i 0 ≠ 0x00) → unpadFn d bs .iso7816 = .error .markerTrail) ∧
        ((∀ i, j < i → i < d.length → d.getD i 0 = 0x00) → unpadFn d bs .iso7816 = .ok j))

/-- R304: PAD completes without reading a cell: the padding stands after the data, DLEN grows by its length, and if
the data was written the whole is PAD_FN of it. -/
def Obligations.PadCompletes : Prop :=
  ∀ (s : State) (bs : Nat) (style : Style), s.cfg.legal → 1 ≤ bs → bs ≤ 255 → style ≠ .unrecognized →
    s.dlen.toNat + padLen s.dlen.toNat bs ≤ s.cfg.bufSize →
    ∃ m n, exec (.pad bs style) s = .next { s with dbuf := m, dlen := n, status := 0x00040000 } ∧
      n.toNat = s.dlen.toNat + padLen s.dlen.toNat bs ∧
      m.holds s.dlen.toNat (padBytes (padLen s.dlen.toNat bs) style) ∧
      (∀ k, k < s.dlen.toNat ∨ s.dlen.toNat + padLen s.dlen.toNat bs ≤ k →
        Memory.get m k = Memory.get s.dbuf k) ∧
      (∀ d : List Byte, d.length = s.dlen.toNat → s.dbuf.holds 0 d →
        ∃ out, padFn d bs style = .ok out ∧ out.length = n.toNat ∧ m.holds 0 out)

/-- R305, R356 (log entry 4): UNPAD over a written final block that ends in a padding of `p` bytes completes: DLEN
shrinks by `p` and nothing else but STATUS changes. An error UNPAD_FN raises of the final block whatever values its
UNWRITTEN bytes have, if any, is reported with DLEN unchanged; and where the written bytes settle no error, an UNWRITTEN
byte is consumed. -/
def Obligations.UnpadCompletes : Prop :=
  ∀ (s : State) (bs : Nat) (style : Style), 1 ≤ bs → bs ≤ 255 → style ≠ .unrecognized →
    s.dlen.toNat ≠ 0 → s.dlen.toNat % bs = 0 → s.dlen.toNat ≤ s.cfg.bufSize →
    let settles : Detail → Prop := fun e =>
      ∀ f : List Byte, f.length = bs → s.dbuf.agrees (s.dlen.toNat - bs) f → unpadFn f bs style = .error e
    (∀ x p, 1 ≤ p → p ≤ bs → x.length = bs - p → s.dbuf.holds (s.dlen.toNat - bs) (x ++ padBytes p style) →
      exec (.unpad bs style) s =
        .next { s with dlen := BitVec.ofNat 32 (s.dlen.toNat - p), status := 0x00050000 }) ∧
    (∀ e, settles e → exec (.unpad bs style) s = .next { s with status := failWord 0x5 e }) ∧
    (s.dbuf.hasUnwritten (s.dlen.toNat - bs) bs → (∀ e, ¬ settles e) →
      exec (.unpad bs style) s = .fault .unwrittenUse)

/-- R306: DECRYPT_UNPAD, every check passed and every operand written, completes on a plaintext UNPAD_FN accepts:
the whole plaintext stands in DBUF and DLEN is the unpadded length; a plaintext it rejects is reported and released
nowhere. R356 (log entry 4): when the key, the last ciphertext block `c` and the block `prev` it is chained on are
written, whatever the other cells hold, a padding error that the last plaintext block `q` shows is reported. -/
def Obligations.DecryptUnpadCompletes : Prop :=
  (∀ (s : State) (ivp : Bool) (bs keylen ivlen : Nat) (key iv data : List Byte),
    keylen = 16 ∨ keylen = 24 ∨ keylen = 32 → (ivp = true → ivlen = 16) →
    s.dlen.toNat % 16 = 0 → s.dlen.toNat ≤ s.cfg.bufSize → 1 ≤ bs → bs ≤ 255 →
    s.dlen.toNat ≠ 0 → s.dlen.toNat % bs = 0 →
    key.length = keylen → s.keyIn.holds 0 key →
    iv.length = 16 → (ivp = true → s.ivIn.holds 0 iv) → (ivp = false → iv = List.replicate 16 0x00) →
    data.length = s.dlen.toNat → s.dbuf.holds 0 data →
    ∃ pt ch, modeApply .aes .cbc key .dec iv data = .ok (pt, ch) ∧ pt.length = s.dlen.toNat ∧
      (∀ n, unpadFn pt bs .pkcs7 = .ok n →
        ∃ m, exec (.decryptUnpad ivp bs keylen ivlen) s =
            .next { s with dbuf := m, dlen := BitVec.ofNat 32 n, status := 0x00060000 } ∧
          m.holds 0 pt ∧ ∀ k, s.dlen.toNat ≤ k → Memory.get m k = Memory.get s.dbuf k) ∧
      (∀ e, unpadFn pt bs .pkcs7 = .error e →
        exec (.decryptUnpad ivp bs keylen ivlen) s = .next { s with status := failWord 0x6 e })) ∧
  (∀ (s : State) (ivp : Bool) (bs keylen ivlen : Nat) (key c prev q : List Byte) (p : Nat),
    keylen = 16 ∨ keylen = 24 ∨ keylen = 32 → (ivp = true → ivlen = 16) →
    s.dlen.toNat % 16 = 0 → s.dlen.toNat ≤ s.cfg.bufSize → 1 ≤ bs → bs ≤ 255 →
    s.dlen.toNat ≠ 0 → s.dlen.toNat % bs = 0 →
    key.length = keylen → s.keyIn.holds 0 key →
    c.length = 16 → s.dbuf.holds (s.dlen.toNat - 16) c → prev.length = 16 →
    (s.dlen.toNat ≠ 16 → s.dbuf.holds (s.dlen.toNat - 32) prev) →
    (s.dlen.toNat = 16 → ivp = true → s.ivIn.holds 0 prev) →
    (s.dlen.toNat = 16 → ivp = false → prev = List.replicate 16 0x00) →
    q = xorBytes (aesDec key c) prev → p = (q.getD 15 0).toNat →
      (p < 1 ∨ bs < p →
        exec (.decryptUnpad ivp bs keylen ivlen) s = .next { s with status := failWord 0x6 .padRange }) ∧
      (1 ≤ p → p ≤ bs → (∃ j, 16 ≤ j + p ∧ j < 16 ∧ (q.getD j 0).toNat ≠ p) →
        exec (.decryptUnpad ivp bs keylen ivlen) s = .next { s with status := failWord 0x6 .padPattern }))

/-- R306, 92 D27: a successful DECRYPT_UNPAD leaves the data that INIT, DECRYPT and UNPAD in turn would leave, and
the context untouched. -/
def Obligations.DecryptUnpadIsTheComposition : Prop :=
  ∀ (ivp : Bool) (bs keylen ivlen : Nat) (s t : State),
    exec (.decryptUnpad ivp bs keylen ivlen) s = .next t → statusErr t.status = 0 →
    ∃ s1 s2 s3, exec (.init .aes .cbc ivp keylen ivlen) s = .next s1 ∧ statusErr s1.status = 0 ∧
      exec .decrypt s1 = .next s2 ∧ statusErr s2.status = 0 ∧
      exec (.unpad bs .pkcs7) s2 = .next s3 ∧ statusErr s3.status = 0 ∧
      t.dbuf = s3.dbuf ∧ t.dlen = s3.dlen ∧ t.ctx = s.ctx ∧ t.ckey = s.ckey ∧ t.chain = s.chain

/-- R50, R356 (log entry 4): what an UNWRITTEN cell would hold bears on nothing a command answers: when a command
answers a next state, then with any of the UNWRITTEN cells written instead it answers the same, each cell apart that it
does not write. -/
def Obligations.UnwrittenCellsBearOnNothing : Prop :=
  ∀ (i : Instr) (s s' : State) (k v d : Memory),
    s.keyIn.extendedBy k → s.ivIn.extendedBy v → s.dbuf.extendedBy d → exec i s = .next s' →
    ∃ d', exec i { s with keyIn := k, ivIn := v, dbuf := d } =
        .next { s' with keyIn := k, ivIn := v, dbuf := d' } ∧
      s'.dbuf.extendedBy d'

/-! ## Frames -/

/-- R301, R305, R307, R343: what INIT, RELEASE and UNPAD leave alone, whenever they answer a next state. They store
to no cell. -/
def Obligations.FrameOfCommandsThatStoreNothing : Prop :=
  ∀ (s t : State),
    ((∃ alg mode ivp keylen ivlen, exec (.init alg mode ivp keylen ivlen) s = .next t) ∨
        exec .release s = .next t →
      t.cfg = s.cfg ∧ t.cmdr = s.cmdr ∧ t.dlen = s.dlen ∧ t.pending = s.pending ∧ t.reads = s.reads ∧
      ∀ k, Memory.get t.keyIn k = Memory.get s.keyIn k ∧ Memory.get t.ivIn k = Memory.get s.ivIn k ∧
        Memory.get t.dbuf k = Memory.get s.dbuf k) ∧
    ((∃ bs style, exec (.unpad bs style) s = .next t) →
      t.cfg = s.cfg ∧ t.cmdr = s.cmdr ∧ t.ctx = s.ctx ∧ t.ckey = s.ckey ∧ t.chain = s.chain ∧
      t.pending = s.pending ∧ t.reads = s.reads ∧
      ∀ k, Memory.get t.keyIn k = Memory.get s.keyIn k ∧ Memory.get t.ivIn k = Memory.get s.ivIn k ∧
        Memory.get t.dbuf k = Memory.get s.dbuf k)

/-- R302 to R304, R306, R343: what ENCRYPT, DECRYPT, PAD and DECRYPT_UNPAD leave alone, whenever they answer a next
state: every cell of DBUF outside the bytes they store to (`dataLen` bytes from 0, or `padLen` bytes from
`dataLen`), and every register their rules do not name. -/
def Obligations.FrameOfStoringCommands : Prop :=
  ∀ (s t : State),
    (exec .encrypt s = .next t ∨ exec .decrypt s = .next t →
      t.cfg = s.cfg ∧ t.cmdr = s.cmdr ∧ t.ctx = s.ctx ∧ t.ckey = s.ckey ∧ t.dlen = s.dlen ∧
      t.pending = s.pending ∧ t.reads = s.reads ∧
      (s.ctx.mode = .ecb → t.chain = s.chain) ∧
      (∀ j, blockSize s.ctx.alg ≤ j → t.chain.toList.getD j 0 = s.chain.toList.getD j 0) ∧
      ∀ k, Memory.get t.keyIn k = Memory.get s.keyIn k ∧ Memory.get t.ivIn k = Memory.get s.ivIn k ∧
        (dataLen s ≤ k → Memory.get t.dbuf k = Memory.get s.dbuf k)) ∧
    (∀ bs style, exec (.pad bs style) s = .next t →
      t.cfg = s.cfg ∧ t.cmdr = s.cmdr ∧ t.ctx = s.ctx ∧ t.ckey = s.ckey ∧ t.chain = s.chain ∧
      t.pending = s.pending ∧ t.reads = s.reads ∧
      ∀ k, Memory.get t.keyIn k = Memory.get s.keyIn k ∧ Memory.get t.ivIn k = Memory.get s.ivIn k ∧
        (k < dataLen s ∨ dataLen s + padLen (dataLen s) bs ≤ k → Memory.get t.dbuf k = Memory.get s.dbuf k)) ∧
    (∀ ivp bs keylen ivlen, exec (.decryptUnpad ivp bs keylen ivlen) s = .next t →
      t.cfg = s.cfg ∧ t.cmdr = s.cmdr ∧ t.ctx = s.ctx ∧ t.ckey = s.ckey ∧ t.chain = s.chain ∧
      t.pending = s.pending ∧ t.reads = s.reads ∧
      ∀ k, Memory.get t.keyIn k = Memory.get s.keyIn k ∧ Memory.get t.ivIn k = Memory.get s.ivIn k ∧
        (dataLen s ≤ k → Memory.get t.dbuf k = Memory.get s.dbuf k))
end

