-- ==== Sys2Proof/Laws/Cipher.lean ====
section
/-! SUPPORT. Lengths through the ciphers and the mode controller, and what MODE_APPLY answers. -/

namespace Sys2Proof.Machine

/-! ## Blocks -/

@[simp] theorem be32inv_length (w : Word) : (be32inv w).length = 4 := rfl

@[simp] theorem be64inv_length (v : BitVec 64) : (be64inv v).length = 8 := rfl

@[simp] theorem desCore_length (b : List Byte) (ks : List (BitVec 48)) : (desCore b ks).length = 8 := rfl

@[simp] theorem desEnc_length (k b : List Byte) : (desEnc k b).length = 8 := rfl

@[simp] theorem desDec_length (k b : List Byte) : (desDec k b).length = 8 := rfl

@[simp] theorem tdesEnc_length (k b : List Byte) : (tdesEnc k b).length = 8 := rfl

@[simp] theorem tdesDec_length (k b : List Byte) : (tdesDec k b).length = 8 := rfl

@[simp] theorem aesEnc_length (k b : List Byte) : (aesEnc k b).length = 16 := rfl

@[simp] theorem aesDec_length (k b : List Byte) : (aesDec k b).length = 16 := rfl

/-- "All cipher transforms consume and produce exactly one Block" (00_scope.md R8). -/
@[simp] theorem bcEnc_length (alg : Alg) (k b : List Byte) : (bcEnc alg k b).length = blockSize alg := by
  cases alg <;> simp [bcEnc, blockSize]

@[simp] theorem bcDec_length (alg : Alg) (k b : List Byte) : (bcDec alg k b).length = blockSize alg := by
  cases alg <;> simp [bcDec, blockSize]

theorem blockSize_pos (alg : Alg) : 0 < blockSize alg := by cases alg <;> decide

theorem blockSize_le (alg : Alg) : blockSize alg ≤ 16 := by cases alg <;> decide

@[simp] theorem xorBytes_length (a b : List Byte) : (xorBytes a b).length = min a.length b.length := by
  simp [xorBytes]

/-! ## One block and the loop -/

theorem modeBlock_length (alg : Alg) (mode : Mode) (k : List Byte) (dir : Dir) {st x : List Byte}
    (hst : st.length = blockSize alg) (hx : x.length = blockSize alg) :
    (modeBlock alg mode k dir st x).1.length = blockSize alg ∧
      (modeBlock alg mode k dir st x).2.length = blockSize alg := by
  cases mode <;> cases dir <;> simp [modeBlock, hst, hx]

theorem modeLoop_length (alg : Alg) (mode : Mode) (k : List Byte) (dir : Dir) (n : Nat) {st data : List Byte}
    (hst : st.length = blockSize alg) (hd : data.length = n * blockSize alg) :
    (modeLoop alg mode k dir n st data).1.length = n * blockSize alg ∧
      (modeLoop alg mode k dir n st data).2.length = blockSize alg := by
  induction n generalizing st data with
  | zero => simp [modeLoop, hst]
  | succ n ih =>
    have hx : (data.take (blockSize alg)).length = blockSize alg := by
      rw [List.length_take, hd, Nat.succ_mul]
      omega
    have hy := modeBlock_length alg mode k dir hst hx
    have hr : (data.drop (blockSize alg)).length = n * blockSize alg := by
      rw [List.length_drop, hd, Nat.succ_mul]
      omega
    obtain ⟨h1, h2⟩ := ih hy.2 hr
    refine ⟨?_, h2⟩
    simp only [modeLoop, List.length_append, hy.1, h1, Nat.succ_mul]
    omega

/-- ECB leaves the chaining state alone (44_modes.md R282). -/
theorem modeLoop_ecb_state (alg : Alg) (k : List Byte) (dir : Dir) (n : Nat) (st data : List Byte) :
    (modeLoop alg .ecb k dir n st data).2 = st := by
  induction n generalizing data with
  | zero => rfl
  | succ n ih =>
    have : (modeBlock alg .ecb k dir st (data.take (blockSize alg))).2 = st := by cases dir <;> rfl
    simp only [modeLoop, this, ih]

/-! ## MODE_APPLY -/

/-- MODE_APPLY raises only DATA_LEN, and exactly on data that is no whole number of blocks (44_modes.md R281). -/
theorem modeApply_error_iff (alg : Alg) (mode : Mode) (k : List Byte) (dir : Dir) (ch data : List Byte) (d : Detail) :
    modeApply alg mode k dir ch data = .error d ↔ data.length % blockSize alg ≠ 0 ∧ d = .dataLen := by
  simp only [modeApply]
  split <;> simp_all [eq_comm]

/-- What a MODE_APPLY that answers has answered: as many bytes as it was given, and 16 bytes of chaining state of
which only the first block may differ, and in ECB none (R286, R288). -/
theorem modeApply_ok {alg : Alg} {mode : Mode} {k : List Byte} {dir : Dir} {ch data : List Byte}
    {r : List Byte × List Byte} (hch : ch.length = 16) (h : modeApply alg mode k dir ch data = .ok r) :
    data.length % blockSize alg = 0 ∧ r.1.length = data.length ∧ r.2.length = 16 ∧
      r.2.drop (blockSize alg) = ch.drop (blockSize alg) ∧ (mode = .ecb → r.2 = ch) := by
  simp only [modeApply] at h
  split at h
  · cases h
  · rename_i hmod
    have hmod : data.length % blockSize alg = 0 := by omega
    have hdiv : data.length = data.length / blockSize alg * blockSize alg :=
      (Nat.div_mul_cancel (Nat.dvd_of_mod_eq_zero hmod)).symm
    have hst : (ch.take (blockSize alg)).length = blockSize alg := by
      have := blockSize_le alg
      rw [List.length_take]
      omega
    obtain ⟨h1, h2⟩ := modeLoop_length alg mode k dir (data.length / blockSize alg) hst hdiv
    cases h
    have hle := blockSize_le alg
    refine ⟨hmod, by rw [h1]; exact hdiv.symm, ?_, ?_, ?_⟩
    · split
      · rw [List.length_append, h2, List.length_drop, hch]
        omega
      · exact hch
    · split
      · rw [List.drop_append_of_le_length (by omega), List.drop_of_length_le (by omega), List.nil_append]
      · rfl
    · rintro rfl
      rfl

end Sys2Proof.Machine
end

