-- ==== Sys2Proof/Laws/Memory.lean ====
section
/-! SUPPORT. The laws of window cells: read after write, everything else unchanged, and that every operation keeps
the canonical form. -/

namespace Sys2Proof.Machine

/-! ## Reading one cell -/

@[simp] theorem Memory.get_nil (a : Nat) : Memory.get [] a = none := rfl

theorem Memory.get_cons (k : Nat) (b : Byte) (m : Memory) (a : Nat) :
    Memory.get ((k, b) :: m) a = if k = a then some b else Memory.get m a := rfl

theorem Memory.get_append (m m' : Memory) (a : Nat) :
    Memory.get (m ++ m') a = (Memory.get m a).or (Memory.get m' a) := by
  induction m with
  | nil => simp
  | cons c m ih =>
    obtain ⟨k, b⟩ := c
    simp only [List.cons_append, Memory.get_cons]
    split <;> simp [ih]

/-- A cell not among the listed ones is UNWRITTEN. -/
theorem Memory.get_eq_none {m : Memory} {a : Nat} (h : ∀ c ∈ m, c.1 ≠ a) : Memory.get m a = none := by
  induction m with
  | nil => rfl
  | cons c m ih =>
    obtain ⟨k, b⟩ := c
    have hk : k ≠ a := h (k, b) (by simp)
    rw [Memory.get_cons, if_neg hk]
    exact ih fun d hd => h d (by simp [hd])

/-- A filter on indices keeps the cells it passes. -/
theorem Memory.get_filter_of_pos (m : Memory) (p : Nat → Bool) {a : Nat} (h : p a = true) :
    Memory.get (m.filter fun c => p c.1) a = Memory.get m a := by
  induction m with
  | nil => rfl
  | cons c m ih =>
    obtain ⟨k, b⟩ := c
    by_cases hk : k = a
    · subst hk; simp [h, Memory.get_cons]
    · by_cases hp : p k = true <;> simp [hp, Memory.get_cons, hk, ih]

/-- A filter on indices removes the cells it does not pass. -/
theorem Memory.get_filter_of_neg (m : Memory) (p : Nat → Bool) {a : Nat} (h : p a = false) :
    Memory.get (m.filter fun c => p c.1) a = none := by
  apply Memory.get_eq_none
  intro c hc hca
  have := (List.mem_filter.mp hc).2
  rw [hca, h] at this
  exact absurd this (by simp)

/-! ## A run of cells -/

theorem mem_cellsFrom {a : Nat} {s : List Byte} {c : Host.Cell} (h : c ∈ cellsFrom a s) :
    a ≤ c.1 ∧ c.1 < a + s.length := by
  induction s generalizing a with
  | nil => simp [cellsFrom] at h
  | cons b s ih =>
    simp only [cellsFrom, List.mem_cons] at h
    rcases h with rfl | h
    · simp
    · have := ih h
      simp only [List.length_cons]
      omega

theorem cellsFrom_wf (a : Nat) (s : List Byte) : Memory.wf (cellsFrom a s) := by
  induction s generalizing a with
  | nil => exact List.Pairwise.nil
  | cons b s ih =>
    refine List.Pairwise.cons (fun c hc => ?_) (ih (a + 1))
    have := mem_cellsFrom hc
    show a < c.1
    omega

theorem get_cellsFrom_inside (a : Nat) (s : List Byte) {j : Nat} (h : j < s.length) :
    Memory.get (cellsFrom a s) (a + j) = some (s.getD j 0) := by
  induction s generalizing a j with
  | nil => simp at h
  | cons b s ih =>
    cases j with
    | zero => simp [cellsFrom, Memory.get_cons]
    | succ j =>
      have hne : a ≠ a + (j + 1) := by omega
      have := ih (a + 1) (j := j) (by simpa using h)
      rw [cellsFrom, Memory.get_cons, if_neg hne, show a + (j + 1) = a + 1 + j by omega, this]
      simp

theorem get_cellsFrom_outside (a : Nat) (s : List Byte) {k : Nat} (h : k < a ∨ a + s.length ≤ k) :
    Memory.get (cellsFrom a s) k = none := by
  apply Memory.get_eq_none
  intro c hc hk
  have := mem_cellsFrom hc
  omega

/-! ## Writing a run -/

/-- Read after write: a cell the run covers holds the run's byte. -/
theorem Memory.get_write_inside (m : Memory) (a : Nat) (s : List Byte) {j : Nat} (h : j < s.length) :
    Memory.get (Memory.write m a s) (a + j) = some (s.getD j 0) := by
  rw [Memory.write, Memory.get_append, Memory.get_append, get_cellsFrom_inside a s h,
    Memory.get_filter_of_neg m (fun k => decide (k < a)) (by simp)]
  simp

/-- A write leaves every other cell alone. -/
theorem Memory.get_write_outside (m : Memory) (a : Nat) (s : List Byte) {k : Nat} (h : k < a ∨ a + s.length ≤ k) :
    Memory.get (Memory.write m a s) k = Memory.get m k := by
  rw [Memory.write, Memory.get_append, Memory.get_append, get_cellsFrom_outside a s h]
  rcases h with h | h
  · rw [Memory.get_filter_of_pos m (fun k => decide (k < a)) (by simpa using h),
      Memory.get_filter_of_neg m (fun k => decide (a + s.length ≤ k)) (by simp; omega)]
    simp
  · rw [Memory.get_filter_of_neg m (fun k => decide (k < a)) (by simp; omega),
      Memory.get_filter_of_pos m (fun k => decide (a + s.length ≤ k)) (by simpa using h)]
    simp

/-- A write makes no cell UNWRITTEN (10_state.md R50). -/
theorem Memory.get_write_isSome (m : Memory) (a : Nat) (s : List Byte) {k : Nat}
    (h : (Memory.get m k).isSome) : (Memory.get (Memory.write m a s) k).isSome := by
  by_cases hk : a ≤ k ∧ k < a + s.length
  · obtain ⟨j, rfl⟩ := Nat.exists_eq_add_of_le hk.1
    rw [Memory.get_write_inside m a s (by omega)]
    rfl
  · rw [Memory.get_write_outside m a s (by omega)]
    exact h

/-- A write keeps the canonical form. -/
theorem Memory.write_wf {m : Memory} (h : m.wf) (a : Nat) (s : List Byte) : (Memory.write m a s).wf := by
  unfold Memory.write Memory.wf
  rw [List.pairwise_append, List.pairwise_append]
  refine ⟨⟨h.filter _, cellsFrom_wf a s, fun c hc d hd => ?_⟩, h.filter _, fun c hc d hd => ?_⟩
  · have hc := (List.mem_filter.mp hc).2
    have hd := mem_cellsFrom hd
    simp at hc
    omega
  · have hd := (List.mem_filter.mp hd).2
    simp at hd
    rcases List.mem_append.mp hc with hc | hc
    · have hc := (List.mem_filter.mp hc).2
      simp at hc
      omega
    · have hc := mem_cellsFrom hc
      omega

/-- A write inside a window of `n` cells keeps the window's bound. -/
theorem Memory.write_below {m : Memory} {n : Nat} (h : m.below n) {a : Nat} {s : List Byte}
    (hs : a + s.length ≤ n) : (Memory.write m a s).below n := by
  intro c hc
  unfold Memory.write at hc
  simp only [List.mem_append] at hc
  rcases hc with (hc | hc) | hc
  · exact h c (List.mem_filter.mp hc).1
  · have := mem_cellsFrom hc
    omega
  · exact h c (List.mem_filter.mp hc).1

/-- Writing the empty string changes no cell. -/
theorem Memory.get_write_nil (m : Memory) (a k : Nat) : Memory.get (Memory.write m a []) k = Memory.get m k :=
  Memory.get_write_outside m a [] (by simp; omega)

/-- Writing the same run twice is writing it once (20_memory.md R89). -/
theorem Memory.write_write (m : Memory) (a : Nat) (s : List Byte) :
    Memory.write (Memory.write m a s) a s = Memory.write m a s := by
  have hlow : (cellsFrom a s).filter (fun c => decide (c.1 < a)) = [] := by
    rw [List.filter_eq_nil_iff]
    intro c hc
    have := mem_cellsFrom hc
    simp
    omega
  have hhigh : (cellsFrom a s).filter (fun c => decide (a + s.length ≤ c.1)) = [] := by
    rw [List.filter_eq_nil_iff]
    intro c hc
    have := mem_cellsFrom hc
    simp
    omega
  have h1 : (m.filter fun c => decide (a + s.length ≤ c.1)).filter (fun c => decide (c.1 < a)) = [] := by
    rw [List.filter_eq_nil_iff]
    intro c hc
    have := (List.mem_filter.mp hc).2
    simp at this ⊢
    omega
  have h2 : (m.filter fun c => decide (c.1 < a)).filter (fun c => decide (a + s.length ≤ c.1)) = [] := by
    rw [List.filter_eq_nil_iff]
    intro c hc
    have := (List.mem_filter.mp hc).2
    simp at this ⊢
    omega
  unfold Memory.write
  simp [hlow, hhigh, h1, h2, List.filter_append, List.filter_filter]

/-! ## Reading a run -/

/-- A read answers a byte string exactly when the window holds it. -/
theorem Memory.read_eq_some_iff (m : Memory) (a n : Nat) (b : List Byte) :
    Memory.read m a n = some b ↔ b.length = n ∧ m.holds a b := by
  induction n generalizing a b with
  | zero =>
    simp only [Memory.read, Option.some.injEq]
    constructor
    · rintro rfl
      exact ⟨rfl, fun j hj => by simp at hj⟩
    · rintro ⟨h, -⟩
      exact (List.length_eq_zero_iff.mp h).symm
  | succ n ih =>
    simp only [Memory.read]
    constructor
    · intro h
      split at h
      · cases h
      · rename_i x hx
        split at h
        · cases h
        · rename_i xs hxs
          cases h
          obtain ⟨hl, hh⟩ := (ih (a + 1) xs).mp hxs
          refine ⟨by simp [hl], fun j hj => ?_⟩
          cases j with
          | zero => simpa using hx
          | succ j =>
            have := hh j (by simpa using hj)
            rw [show a + (j + 1) = a + 1 + j by omega, this]
            simp
    · rintro ⟨hl, hh⟩
      cases b with
      | nil => simp at hl
      | cons x xs =>
        have hx : Memory.get m a = some x := by simpa using hh 0 (by simp)
        have hxs : Memory.read m (a + 1) n = some xs := by
          refine (ih (a + 1) xs).mpr ⟨by simpa using hl, fun j hj => ?_⟩
          have := hh (j + 1) (by simpa using hj)
          rw [show a + 1 + j = a + (j + 1) by omega, this]
          simp
        rw [hx, hxs]

theorem Memory.read_length {m : Memory} {a n : Nat} {b : List Byte} (h : Memory.read m a n = some b) :
    b.length = n := ((Memory.read_eq_some_iff m a n b).mp h).1

/-- A read answers none exactly when one of its cells is UNWRITTEN. -/
theorem Memory.read_eq_none_iff (m : Memory) (a n : Nat) :
    Memory.read m a n = none ↔ m.hasUnwritten a n := by
  induction n generalizing a with
  | zero => simp [Memory.read, Memory.hasUnwritten]
  | succ n ih =>
    simp only [Memory.read]
    cases hx : Memory.get m a with
    | none =>
      simp only [true_iff]
      exact ⟨0, by omega, by simpa using hx⟩
    | some x =>
      have hcons : ∀ o : Option (List Byte),
          ((match o with | none => none | some bs => some (x :: bs) : Option (List Byte)) = none ↔ o = none) := by
        intro o
        cases o <;> simp
      refine (hcons _).trans ((ih (a + 1)).trans ?_)
      constructor
      · rintro ⟨j, hj, hn⟩
        exact ⟨j + 1, by omega, by rw [show a + (j + 1) = a + 1 + j by omega]; exact hn⟩
      · rintro ⟨j, hj, hn⟩
        cases j with
        | zero => simp [hx] at hn
        | succ j => exact ⟨j, by omega, by rw [show a + 1 + j = a + (j + 1) by omega]; exact hn⟩

/-! ## Cells -/

@[simp] theorem Memory.cells_length (m : Memory) (a n : Nat) : (Memory.cells m a n).length = n := by
  induction n generalizing a with
  | zero => rfl
  | succ n ih => simp [Memory.cells, ih]

theorem Memory.cells_getD (m : Memory) (a n : Nat) {j : Nat} (h : j < n) :
    (Memory.cells m a n).getD j none = Memory.get m (a + j) := by
  induction n generalizing a j with
  | zero => omega
  | succ n ih =>
    cases j with
    | zero => rfl
    | succ j =>
      have := ih (a + 1) (j := j) (by omega)
      rw [show a + (j + 1) = a + 1 + j by omega]
      simpa [Memory.cells] using this

/-- The strings that fill the cells are those that agree with the written ones. -/
theorem Memory.fills_cells_iff (m : Memory) (a n : Nat) (f : List Byte) :
    fills (Memory.cells m a n) f ↔ f.length = n ∧ m.agrees a f := by
  unfold fills Memory.agrees
  rw [Memory.cells_length]
  constructor
  · rintro ⟨hl, h⟩
    exact ⟨hl, fun j hj b hb => h j hj b (by rw [Memory.cells_getD m a n (by omega)]; exact hb)⟩
  · rintro ⟨hl, h⟩
    exact ⟨hl, fun j hj b hb => h j hj b (by rw [← Memory.cells_getD m a n (by omega)]; exact hb)⟩

/-- Cells that are all written are the bytes a read answers. -/
theorem cellBytes_cells (m : Memory) (a n : Nat) : cellBytes (Memory.cells m a n) = Memory.read m a n := by
  induction n generalizing a with
  | zero => rfl
  | succ n ih =>
    simp only [Memory.cells, Memory.read]
    cases Memory.get m a with
    | none => rfl
    | some b =>
      simp only [cellBytes, ih]
      cases Memory.read m (a + 1) n <;> rfl

/-- What was just written reads back as written. -/
theorem Memory.write_holds (m : Memory) (a : Nat) (s : List Byte) : (Memory.write m a s).holds a s :=
  fun _ hj => Memory.get_write_inside m a s hj

/-! ## CHAIN -/

theorem chainOf_toList (c : Vector Byte 16) : chainOf c.toList = c := by
  obtain ⟨⟨l⟩, h⟩ := c
  match l, h with
  | [_, _, _, _, _, _, _, _, _, _, _, _, _, _, _, _], _ => rfl

theorem chainOf_getD (s : List Byte) {j : Nat} (hj : j < 16) : (chainOf s).toList.getD j 0 = s.getD j 0 := by
  interval_cases j <;> simp [chainOf]

theorem chainOf_nil : chainOf [] = zeroChain := rfl

end Sys2Proof.Machine
end

