-- ==== Sys2Proof/Laws/Padding.lean ====
section
/-! SUPPORT. Lengths of the padding, the bound on what UNPAD_FN answers, and which of its errors the written bytes of
an input settle. -/

namespace Sys2Proof.Machine

@[simp] theorem bytesOf_length (n : Nat) (v : Byte) : (bytesOf n v).length = n := by simp [bytesOf]

/-- "The result always lies in [1, bs]" (40_padding.md R140). -/
theorem padLen_bounds {bs : Nat} (len : Nat) (h : 1 ≤ bs) : 1 ≤ padLen len bs ∧ padLen len bs ≤ bs := by
  have := Nat.mod_lt len (show 0 < bs by omega)
  unfold padLen
  omega

/-- "The output length is `len(d) + p`, a multiple of `bs`" (R141). -/
theorem padLen_mod {bs : Nat} (len : Nat) (h : 1 ≤ bs) : (len + padLen len bs) % bs = 0 := by
  have hlt := Nat.mod_lt len (show 0 < bs by omega)
  have hdm := Nat.div_add_mod len bs
  have : len + padLen len bs = bs * (len / bs + 1) := by
    rw [Nat.mul_add, Nat.mul_one]
    unfold padLen
    omega
  rw [this, Nat.mul_mod_right]

/-- The padding has the length it is asked for. -/
theorem padBytes_length {p : Nat} {style : Style} (hp : 1 ≤ p) (hs : style ≠ .unrecognized) :
    (padBytes p style).length = p := by
  cases style <;> simp [padBytes] at * <;> omega

theorem lastMarker_lt {f : List Byte} {j : Nat} (h : lastMarker f = some j) : j < f.length := by
  induction f generalizing j with
  | nil => simp [lastMarker] at h
  | cons b f ih =>
    simp only [lastMarker] at h
    split at h
    · rename_i i hi
      cases h
      have := ih hi
      simp
      omega
    · split at h
      · cases h
        simp
      · cases h

/-- UNPAD_FN answers a proper part of its input, at most one block shorter (R145, R149). -/
theorem unpadFn_ok {d : List Byte} {bs n : Nat} {style : Style} (h : unpadFn d bs style = .ok n) :
    1 ≤ bs ∧ bs ≤ 255 ∧ d.length % bs = 0 ∧ n < d.length ∧ d.length ≤ n + bs := by
  unfold unpadFn at h
  split at h
  · cases h
  rename_i hbs
  split at h
  · cases h
  split at h
  · cases h
  rename_i hlen
  have hmod : d.length % bs = 0 := by omega
  have hpos : 0 < d.length := by omega
  have hbsle : bs ≤ d.length := Nat.le_of_dvd hpos (Nat.dvd_of_mod_eq_zero hmod)
  have hcounted : ∀ st, unpadCounted d bs st = .ok n → n < d.length ∧ d.length ≤ n + bs := by
    intro st h
    simp only [unpadCounted] at h
    split at h
    · cases h
    split at h
    · cases h
    cases h
    omega
  have hmarked : unpadMarked d bs = .ok n → n < d.length ∧ d.length ≤ n + bs := by
    intro h
    simp only [unpadMarked] at h
    split at h
    · cases h
    rename_i j hj
    split at h
    · cases h
    have := lastMarker_lt hj
    rw [List.length_drop] at this
    cases h
    omega
  refine ⟨by omega, by omega, hmod, ?_⟩
  cases style
  · exact hcounted _ h
  · exact hcounted _ h
  · exact hmarked h
  · cases h

/-- UNPAD_FN raises no other detail than those of 60_exceptions.md R341, and after its three configuration checks
only the data-integrity ones. -/
theorem unpadFn_error {d : List Byte} {bs : Nat} {style : Style} {e : Detail} (h : unpadFn d bs style = .error e) :
    (e = .blockSize ∧ (bs < 1 ∨ 255 < bs)) ∨ (e = .style ∧ style = .unrecognized) ∨
      (e = .unpadLen ∧ (d.length = 0 ∨ d.length % bs ≠ 0)) ∨
      ((e = .padRange ∨ e = .padPattern) ∧ (style = .pkcs7 ∨ style = .x923)) ∨
      ((e = .noMarker ∨ e = .markerTrail) ∧ style = .iso7816) := by
  unfold unpadFn at h
  split at h
  · cases h; simp_all
  split at h
  · cases h; simp_all
  split at h
  · cases h; simp_all
  have hcounted : ∀ st, unpadCounted d bs st = .error e → e = .padRange ∨ e = .padPattern := by
    intro st h
    simp only [unpadCounted] at h
    split at h
    · cases h; simp
    split at h
    · cases h; simp
    cases h
  have hmarked : unpadMarked d bs = .error e → e = .noMarker ∨ e = .markerTrail := by
    intro h
    simp only [unpadMarked] at h
    split at h
    · cases h; simp
    split at h
    · cases h; simp
    cases h
  cases style
  · simp [hcounted _ h]
  · simp [hcounted _ h]
  · simp [hmarked h]
  · simp_all

/-! ## What the written bytes settle (60_exceptions.md R356; log entry 4) -/

/-- The byte `b` is a value the cell `c` can have. -/
def valueOf (c : Option Byte) (b : Byte) : Prop := ∀ x, c = some x → b = x

theorem fills_iff_forall2 (c : List (Option Byte)) (f : List Byte) : fills c f ↔ List.Forall₂ valueOf c f := by
  unfold fills
  induction c generalizing f with
  | nil =>
    cases f with
    | nil => simp
    | cons b f => simp
  | cons x c ih =>
    cases f with
    | nil => simp
    | cons b f =>
      rw [List.forall₂_cons, ← ih]
      constructor
      · rintro ⟨hl, h⟩
        refine ⟨fun y hy => by simpa using h 0 (by simp) y (by simpa using hy), by simpa using hl, fun j hj y hy => ?_⟩
        simpa using h (j + 1) (by simpa using hj) y (by simpa using hy)
      · rintro ⟨hx, hl, h⟩
        refine ⟨by simpa using hl, fun j hj y hy => ?_⟩
        cases j with
        | zero => simpa using hx y (by simpa using hy)
        | succ j => simpa using h j (by simpa using hj) y (by simpa using hy)

/-- Every UNWRITTEN byte given the value `v`. -/
def fillWith (v : Byte) (c : List (Option Byte)) : List Byte := c.map (fun x => x.getD v)

theorem fillWith_valueOf (v : Byte) (c : List (Option Byte)) : List.Forall₂ valueOf c (fillWith v c) := by
  induction c with
  | nil => exact .nil
  | cons x c ih => exact .cons (fun y hy => by simp [hy]) ih

/-- An UNWRITTEN byte can have a value that is not `b`, and a written one cannot have the value it differs from. -/
theorem cellDiffers_eq_true {c : Option Byte} {b : Byte} : cellDiffers c b = true ↔ ¬ valueOf c b := by
  cases c with
  | none => simp [cellDiffers, valueOf]
  | some x =>
    simp only [cellDiffers, valueOf, Option.some.injEq, bne_iff_ne]
    constructor
    · exact fun h k => h (k x rfl).symm
    · exact fun h k => h fun y hy => by rw [← k, hy]

/-- Cells fit a pattern unless one of them differs from its byte. -/
theorem zipWith_cellDiffers (c : List (Option Byte)) (pat : List Byte) (h : c.length = pat.length) :
    (List.zipWith cellDiffers c pat).any id = true ↔ ¬ List.Forall₂ valueOf c pat := by
  induction c generalizing pat with
  | nil =>
    cases pat with
    | nil => simp
    | cons b pat => simp at h
  | cons x c ih =>
    cases pat with
    | nil => simp at h
    | cons b pat =>
      have := ih pat (by simpa using h)
      simp only [List.zipWith_cons_cons, List.any_cons, id_eq, Bool.or_eq_true, cellDiffers_eq_true, this,
        List.forall₂_cons, not_and_or]

/-- The error settled for pkcs7 or x923 is raised whatever the UNWRITTEN bytes hold. -/
theorem settledCounted_sound {c : List (Option Byte)} {bs : Nat} {style : Style} {d : Detail}
    (hc : bs ≤ c.length) (hun : style ≠ .unrecognized) (h : settledCounted c bs style = some d) :
    ∀ f, fills c f → unpadCounted f bs style = .error d := by
  intro f hf
  have hl := hf.1
  unfold settledCounted at h
  split at h
  · cases h
  · rename_i b hb
    have : f.getD (f.length - 1) 0 = b :=
      have hpos : c.length ≠ 0 := by intro h0; rw [List.length_eq_zero_iff.mp h0] at hb; cases hb
      hf.2 _ (by omega) b (by rw [hl]; exact hb)
    simp only [unpadCounted, this]
    simp only at h
    split at h
    · rename_i hr
      cases h
      rw [if_pos hr]
    · rename_i hr
      rw [if_neg hr]
      split at h
      · rename_i hd
        cases h
        rw [zipWith_cellDiffers _ _ (by rw [padBytes_length (by omega) hun, List.length_drop]; omega)] at hd
        rw [if_pos]
        intro hcontra
        apply hd
        rw [← hcontra, hl]
        exact List.forall₂_drop _ ((fills_iff_forall2 _ _).mp hf)
      · cases h

/-- For pkcs7 and x923 exactly the errors that no filling avoids are settled. -/
theorem settledCounted_iff {c : List (Option Byte)} {bs : Nat} {style : Style} {d : Detail} (h1 : 1 ≤ bs)
    (hc : bs ≤ c.length) (hs : style = .pkcs7 ∨ style = .x923) :
    settledCounted c bs style = some d ↔ ∀ f, fills c f → unpadCounted f bs style = .error d := by
  have hun : style ≠ .unrecognized := by rcases hs with rfl | rfl <;> simp
  -- a filling that ends in the padding of `p` bytes settles no error
  have hpadded : ∀ p, 1 ≤ p → p ≤ bs → p ≤ 255 → List.Forall₂ valueOf (c.drop (c.length - p)) (padBytes p style) →
      ∃ f, fills c f ∧ unpadCounted f bs style = .ok (f.length - p) := by
    intro p hp hpb hp255 hfit
    have hpl := padBytes_length hp hun
    have hfill : List.Forall₂ valueOf c (fillWith 0 (c.take (c.length - p)) ++ padBytes p style) := by
      have := List.rel_append (fillWith_valueOf 0 (c.take (c.length - p))) hfit
      simpa only [List.take_append_drop] using this
    have hfl := hfill.length_eq
    refine ⟨_, (fills_iff_forall2 _ _).mpr hfill, ?_⟩
    have htl : (fillWith 0 (c.take (c.length - p))).length = c.length - p := by simp [fillWith]
    have hb : (fillWith 0 (c.take (c.length - p)) ++ padBytes p style).getD
        ((fillWith 0 (c.take (c.length - p)) ++ padBytes p style).length - 1) 0 = BitVec.ofNat 8 p := by
      rw [List.length_append, hpl, htl, List.getD_append_right _ _ _ _ (by omega), htl]
      rcases hs with rfl | rfl
      · simp only [padBytes, bytesOf]
        rw [List.getD_eq_getElem _ _ (by simp; omega), List.getElem_replicate]
      · simp only [padBytes, bytesOf]
        rw [List.getD_append_right _ _ _ _ (by simp; omega), List.length_replicate,
          show c.length - p + p - 1 - (c.length - p) - (p - 1) = 0 by omega]
        simp
    have hpn : (BitVec.ofNat 8 p).toNat = p := by simp; omega
    simp only [unpadCounted, hb, hpn]
    rw [if_neg (by omega), if_neg]
    rw [List.length_append, hpl, Nat.add_sub_cancel, List.drop_left]
    simp
  refine ⟨settledCounted_sound hc hun, ?_⟩
  · intro h
    cases hset : settledCounted c bs style with
    | none =>
      exfalso
      unfold settledCounted at hset
      split at hset
      · rename_i hb
        obtain ⟨f, hf, hok⟩ := hpadded 1 (by omega) h1 (by omega) (by
          have hd : c.drop (c.length - 1) = [none] := by
            rw [List.drop_eq_getElem_cons (by omega)]
            rw [List.getD_eq_getElem _ _ (by omega)] at hb
            simp [hb]
            omega
          rw [hd]
          rcases hs with rfl | rfl <;> simp [padBytes, bytesOf, valueOf])
        rw [h f hf] at hok
        cases hok
      · rename_i b hb
        simp only at hset
        split at hset
        · cases hset
        · rename_i hr
          split at hset
          · cases hset
          · rename_i hd
            rw [zipWith_cellDiffers _ _ (by rw [padBytes_length (by omega) hun, List.length_drop]; omega),
              not_not] at hd
            obtain ⟨f, hf, hok⟩ := hpadded b.toNat (by omega) (by omega) (by omega) hd
            rw [h f hf] at hok
            cases hok
    | some e =>
      have hf := (fills_iff_forall2 _ _).mpr (fillWith_valueOf 0 c)
      have := (settledCounted_sound hc hun hset _ hf).symm.trans (h _ hf)
      rw [Except.error.inj this]

theorem lastMarker_append (f : List Byte) (b : Byte) :
    lastMarker (f ++ [b]) = if b = 0x80 then some f.length else lastMarker f := by
  induction f with
  | nil => rfl
  | cons x f ih =>
    simp only [List.cons_append, lastMarker, ih, List.length_cons]
    by_cases h : b = 0x80
    · simp only [if_pos h]
    · simp only [if_neg h]

theorem lastMarker_eq_none {f : List Byte} : lastMarker f = none ↔ (0x80 : Byte) ∉ f := by
  induction f with
  | nil => simp [lastMarker]
  | cons x f ih =>
    simp only [lastMarker, List.mem_cons, not_or, ← ih]
    cases lastMarker f with
    | some j => simp
    | none =>
      by_cases hx : x = 0x80
      · subst hx
        simp
      · simp only [if_neg hx, and_true, true_iff]
        exact Ne.symm hx

/-- What R148 and R149 find in a final block: the error, or none. -/
def markedError (f : List Byte) : Option Detail :=
  match lastMarker f with
  | none => some .noMarker
  | some j => if (f.drop (j + 1)).any (fun b => b != 0x00) then some .markerTrail else none

theorem unpadMarked_eq_error {d : List Byte} {bs : Nat} {e : Detail} :
    unpadMarked d bs = .error e ↔ markedError (d.drop (d.length - bs)) = some e := by
  simp only [unpadMarked, markedError]
  cases lastMarker (d.drop (d.length - bs)) with
  | none => simp only [Except.error.injEq, Option.some.injEq]
  | some j =>
    dsimp only
    split
    · simp only [Except.error.injEq, Option.some.injEq]
    · simp only [reduceCtorEq]

/-- The checks of R148 and R149, read from the last byte of the block backwards. -/
theorem markedError_append (f : List Byte) (b : Byte) :
    markedError (f ++ [b]) =
      if b = 0x00 then markedError f
      else if b = 0x80 then none
      else if (0x80 : Byte) ∈ f then some .markerTrail
      else some .noMarker := by
  simp only [markedError, lastMarker_append]
  by_cases h80 : b = 0x80
  · subst h80
    simp
  rw [if_neg h80, if_neg h80]
  cases hm : lastMarker f with
  | none =>
    rw [if_neg (lastMarker_eq_none.mp hm), ite_self]
  | some j =>
    have hj := lastMarker_lt hm
    have hin : (0x80 : Byte) ∈ f := by
      by_contra hn
      rw [lastMarker_eq_none.mpr hn] at hm
      cases hm
    have hdrop : (f ++ [b]).drop (j + 1) = f.drop (j + 1) ++ [b] := List.drop_append_of_le_length (by omega)
    simp only [hdrop, List.any_append, if_pos hin]
    by_cases h0 : b = 0x00
    · rw [if_pos h0, h0]
      simp
    · rw [if_neg h0, if_pos]
      simp only [List.any_cons, bne_iff_ne.mpr h0, Bool.true_or, Bool.or_true]

theorem mem_of_written {r : List (Option Byte)} {g : List Byte} (h : List.Forall₂ valueOf r g) {b : Byte}
    (hb : some b ∈ r) : b ∈ g := by
  induction h with
  | nil => cases hb
  | cons hx _ ih =>
    rcases List.mem_cons.mp hb with hb | hb
    · rw [hx b hb.symm]
      exact List.mem_cons_self
    · exact List.mem_cons_of_mem _ (ih hb)

theorem mem_fillWith {v b : Byte} {r : List (Option Byte)} (h : b ∈ fillWith v r) :
    some b ∈ r ∨ (none ∈ r ∧ b = v) := by
  obtain ⟨x, hx, rfl⟩ := List.mem_map.mp h
  cases x with
  | none => exact .inr ⟨hx, rfl⟩
  | some y => exact .inl hx

theorem fillWith_mem {v : Byte} {r : List (Option Byte)} (h : none ∈ r) : v ∈ fillWith v r :=
  List.mem_map.mpr ⟨none, h, rfl⟩

theorem eq_fillWith {r : List (Option Byte)} {g : List Byte} (h : List.Forall₂ valueOf r g) (hn : none ∉ r)
    (v : Byte) : g = fillWith v r := by
  induction h with
  | nil => rfl
  | @cons x b _ _ hx _ ih =>
    simp only [List.mem_cons, not_or] at hn
    cases x with
    | none => exact absurd rfl hn.1
    | some y => rw [hx y rfl, ih hn.2]; rfl

/-- For iso7816 exactly the errors that no filling avoids are settled, block and fillings read backwards. -/
theorem settledMarked_iff (r : List (Option Byte)) (d : Detail) :
    settledMarked r = some d ↔ ∀ g, List.Forall₂ valueOf r g → markedError g.reverse = some d := by
  induction r with
  | nil => simp [settledMarked, markedError, lastMarker]
  | cons x r ih =>
    have hcons := fun b (g : List Byte) =>
      (congrArg markedError List.reverse_cons).trans (markedError_append g.reverse b)
    have hfill := fun v => fillWith_valueOf v r
    cases x with
    | none =>
      constructor
      · intro h
        cases h
      · intro h
        have := h (0x80 :: fillWith 0 r) (.cons (fun y hy => by cases hy) (hfill 0))
        rw [hcons] at this
        cases this
    | some b =>
      have hsplit : (∀ g, List.Forall₂ valueOf (some b :: r) g → markedError g.reverse = some d) ↔
          ∀ g, List.Forall₂ valueOf r g → markedError (b :: g).reverse = some d := by
        constructor
        · exact fun h g hg => h _ (.cons (fun y hy => Option.some.inj hy) hg)
        · intro h g hg
          cases hg with
          | cons hb hg =>
            rw [hb b rfl]
            exact h _ hg
      rw [hsplit]
      simp only [settledMarked, hcons, List.mem_reverse]
      by_cases h0 : b = 0x00
      · simp only [if_pos h0]
        exact ih
      by_cases h80 : b = 0x80
      · simp only [if_neg h0, if_pos h80, reduceCtorEq, false_iff]
        exact fun h => h _ (hfill 0)
      simp only [if_neg h0, if_neg h80]
      by_cases hm : some (0x80 : Byte) ∈ r
      · rw [if_pos (List.contains_iff_mem.mpr hm)]
        constructor
        · intro h g hg
          rw [if_pos (mem_of_written hg hm), h]
        · intro h
          rw [← h _ (hfill 0), if_pos (mem_of_written (hfill 0) hm)]
      rw [if_neg (fun h => hm (List.contains_iff_mem.mp h))]
      have hzero : (0x80 : Byte) ∉ fillWith 0 r := by
        intro h
        rcases mem_fillWith h with h | ⟨-, h⟩
        · exact hm h
        · cases h
      by_cases hn : none ∈ r
      · rw [if_pos (List.contains_iff_mem.mpr hn)]
        constructor
        · intro h
          cases h
        · intro h
          have h1 := h _ (hfill 0)
          have h2 := h _ (hfill 0x80)
          rw [if_neg hzero] at h1
          rw [if_pos (fillWith_mem hn), ← h1] at h2
          cases h2
      · rw [if_neg (fun h => hn (List.contains_iff_mem.mp h))]
        constructor
        · intro h g hg
          rw [eq_fillWith hg hn 0, if_neg hzero, h]
        · intro h
          rw [← h _ (hfill 0), if_neg hzero]

/-- **What is settled, exactly**: past the checks of R144, the error that UNPAD_FN raises whatever values the
UNWRITTEN bytes have. -/
theorem settledError_iff {c : List (Option Byte)} {bs : Nat} {style : Style} {d : Detail} (h1 : 1 ≤ bs)
    (h255 : bs ≤ 255) (hst : style ≠ .unrecognized) (h0 : c.length ≠ 0) (hm : c.length % bs = 0) :
    settledError c bs style = some d ↔ ∀ f, fills c f → unpadFn f bs style = .error d := by
  have hbs : bs ≤ c.length := Nat.le_of_dvd (by omega) (Nat.dvd_of_mod_eq_zero hm)
  have hchecks : ∀ f, fills c f → unpadFn f bs style =
      match style with
      | .pkcs7 => unpadCounted f bs .pkcs7
      | .x923 => unpadCounted f bs .x923
      | .iso7816 => unpadMarked f bs
      | .unrecognized => .error .style := by
    intro f hf
    have hl := hf.1
    have hml : f.length % bs = 0 := hl ▸ hm
    unfold unpadFn
    rw [if_neg (by omega), if_neg hst, if_neg (by omega)]
    cases style <;> rfl
  rw [show (∀ f, fills c f → unpadFn f bs style = .error d) ↔ _ from
    forall₂_congr fun f hf => by rw [hchecks f hf]]
  cases style with
  | pkcs7 => exact settledCounted_iff h1 hbs (.inl rfl)
  | x923 => exact settledCounted_iff h1 hbs (.inr rfl)
  | iso7816 =>
    simp only [settledError, unpadMarked_eq_error, settledMarked_iff]
    constructor
    · intro h f hf
      have hb := List.forall₂_drop (c.length - bs) ((fills_iff_forall2 _ _).mp hf)
      have := h _ (List.forall₂_reverse_iff.mpr hb)
      rwa [List.reverse_reverse, ← hf.1] at this
    · intro h g hg
      have hrev : List.Forall₂ valueOf (c.drop (c.length - bs)) g.reverse := by
        have := List.forall₂_reverse_iff.mpr hg
        rwa [List.reverse_reverse] at this
      have hall := List.rel_append (fillWith_valueOf 0 (c.take (c.length - bs))) hrev
      simp only [List.take_append_drop] at hall
      have hl := hall.length_eq
      have := h _ ((fills_iff_forall2 _ _).mpr hall)
      rw [← hl] at this
      rwa [List.drop_left' (by simp [fillWith])] at this
  | unrecognized => exact absurd rfl hst

end Sys2Proof.Machine
end

