-- ==== Sys2Proof/Laws/State.lean ====
section
/-! SUPPORT. One lemma per field per update of State, each true by `rfl` once the update is unfolded, so that no proof unfolds a record update. -/

namespace Sys2Proof.Machine

/-! ## reportError -/

@[simp] theorem reportError_cfg (opc : BitVec 4) (d : Detail) (s : State) : (reportError opc d s).cfg = s.cfg := by unfold reportError; rfl
@[simp] theorem reportError_cmdr (opc : BitVec 4) (d : Detail) (s : State) : (reportError opc d s).cmdr = s.cmdr := by unfold reportError; rfl
@[simp] theorem reportError_status (opc : BitVec 4) (d : Detail) (s : State) : (reportError opc d s).status = failWord opc d := by unfold reportError; rfl
@[simp] theorem reportError_ctx (opc : BitVec 4) (d : Detail) (s : State) : (reportError opc d s).ctx = s.ctx := by unfold reportError; rfl
@[simp] theorem reportError_ckey (opc : BitVec 4) (d : Detail) (s : State) : (reportError opc d s).ckey = s.ckey := by unfold reportError; rfl
@[simp] theorem reportError_dlen (opc : BitVec 4) (d : Detail) (s : State) : (reportError opc d s).dlen = s.dlen := by unfold reportError; rfl
@[simp] theorem reportError_keyIn (opc : BitVec 4) (d : Detail) (s : State) : (reportError opc d s).keyIn = s.keyIn := by unfold reportError; rfl
@[simp] theorem reportError_ivIn (opc : BitVec 4) (d : Detail) (s : State) : (reportError opc d s).ivIn = s.ivIn := by unfold reportError; rfl
@[simp] theorem reportError_chain (opc : BitVec 4) (d : Detail) (s : State) : (reportError opc d s).chain = s.chain := by unfold reportError; rfl
@[simp] theorem reportError_dbuf (opc : BitVec 4) (d : Detail) (s : State) : (reportError opc d s).dbuf = s.dbuf := by unfold reportError; rfl
@[simp] theorem reportError_pending (opc : BitVec 4) (d : Detail) (s : State) : (reportError opc d s).pending = s.pending := by unfold reportError; rfl
@[simp] theorem reportError_reads (opc : BitVec 4) (d : Detail) (s : State) : (reportError opc d s).reads = s.reads := by unfold reportError; rfl

/-! ## reportSuccess -/

@[simp] theorem reportSuccess_cfg (opc : BitVec 4) (s : State) : (reportSuccess opc s).cfg = s.cfg := by unfold reportSuccess; rfl
@[simp] theorem reportSuccess_cmdr (opc : BitVec 4) (s : State) : (reportSuccess opc s).cmdr = s.cmdr := by unfold reportSuccess; rfl
@[simp] theorem reportSuccess_status (opc : BitVec 4) (s : State) : (reportSuccess opc s).status = successWord opc := by unfold reportSuccess; rfl
@[simp] theorem reportSuccess_ctx (opc : BitVec 4) (s : State) : (reportSuccess opc s).ctx = s.ctx := by unfold reportSuccess; rfl
@[simp] theorem reportSuccess_ckey (opc : BitVec 4) (s : State) : (reportSuccess opc s).ckey = s.ckey := by unfold reportSuccess; rfl
@[simp] theorem reportSuccess_dlen (opc : BitVec 4) (s : State) : (reportSuccess opc s).dlen = s.dlen := by unfold reportSuccess; rfl
@[simp] theorem reportSuccess_keyIn (opc : BitVec 4) (s : State) : (reportSuccess opc s).keyIn = s.keyIn := by unfold reportSuccess; rfl
@[simp] theorem reportSuccess_ivIn (opc : BitVec 4) (s : State) : (reportSuccess opc s).ivIn = s.ivIn := by unfold reportSuccess; rfl
@[simp] theorem reportSuccess_chain (opc : BitVec 4) (s : State) : (reportSuccess opc s).chain = s.chain := by unfold reportSuccess; rfl
@[simp] theorem reportSuccess_dbuf (opc : BitVec 4) (s : State) : (reportSuccess opc s).dbuf = s.dbuf := by unfold reportSuccess; rfl
@[simp] theorem reportSuccess_pending (opc : BitVec 4) (s : State) : (reportSuccess opc s).pending = s.pending := by unfold reportSuccess; rfl
@[simp] theorem reportSuccess_reads (opc : BitVec 4) (s : State) : (reportSuccess opc s).reads = s.reads := by unfold reportSuccess; rfl

/-! ## memWrite -/

@[simp] theorem memWrite_cfg (s : State) (a : Nat) (b : List Byte) : (memWrite s a b).cfg = s.cfg := by unfold memWrite; rfl
@[simp] theorem memWrite_cmdr (s : State) (a : Nat) (b : List Byte) : (memWrite s a b).cmdr = s.cmdr := by unfold memWrite; rfl
@[simp] theorem memWrite_status (s : State) (a : Nat) (b : List Byte) : (memWrite s a b).status = s.status := by unfold memWrite; rfl
@[simp] theorem memWrite_ctx (s : State) (a : Nat) (b : List Byte) : (memWrite s a b).ctx = s.ctx := by unfold memWrite; rfl
@[simp] theorem memWrite_ckey (s : State) (a : Nat) (b : List Byte) : (memWrite s a b).ckey = s.ckey := by unfold memWrite; rfl
@[simp] theorem memWrite_dlen (s : State) (a : Nat) (b : List Byte) : (memWrite s a b).dlen = s.dlen := by unfold memWrite; rfl
@[simp] theorem memWrite_keyIn (s : State) (a : Nat) (b : List Byte) : (memWrite s a b).keyIn = s.keyIn := by unfold memWrite; rfl
@[simp] theorem memWrite_ivIn (s : State) (a : Nat) (b : List Byte) : (memWrite s a b).ivIn = s.ivIn := by unfold memWrite; rfl
@[simp] theorem memWrite_chain (s : State) (a : Nat) (b : List Byte) : (memWrite s a b).chain = s.chain := by unfold memWrite; rfl
@[simp] theorem memWrite_dbuf (s : State) (a : Nat) (b : List Byte) : (memWrite s a b).dbuf = Memory.write s.dbuf a b := by unfold memWrite; rfl
@[simp] theorem memWrite_pending (s : State) (a : Nat) (b : List Byte) : (memWrite s a b).pending = s.pending := by unfold memWrite; rfl
@[simp] theorem memWrite_reads (s : State) (a : Nat) (b : List Byte) : (memWrite s a b).reads = s.reads := by unfold memWrite; rfl

/-! ## withContext -/

@[simp] theorem withContext_cfg (s : State) (alg : Alg) (mode : Mode) (n : Nat) (key iv : List Byte) : (withContext s alg mode n key iv).cfg = s.cfg := by unfold withContext; rfl
@[simp] theorem withContext_cmdr (s : State) (alg : Alg) (mode : Mode) (n : Nat) (key iv : List Byte) : (withContext s alg mode n key iv).cmdr = s.cmdr := by unfold withContext; rfl
@[simp] theorem withContext_status (s : State) (alg : Alg) (mode : Mode) (n : Nat) (key iv : List Byte) : (withContext s alg mode n key iv).status = s.status := by unfold withContext; rfl
@[simp] theorem withContext_ctx (s : State) (alg : Alg) (mode : Mode) (n : Nat) (key iv : List Byte) : (withContext s alg mode n key iv).ctx = ⟨true, alg, mode, BitVec.ofNat 6 n⟩ := by unfold withContext; rfl
@[simp] theorem withContext_ckey (s : State) (alg : Alg) (mode : Mode) (n : Nat) (key iv : List Byte) : (withContext s alg mode n key iv).ckey = key := by unfold withContext; rfl
@[simp] theorem withContext_dlen (s : State) (alg : Alg) (mode : Mode) (n : Nat) (key iv : List Byte) : (withContext s alg mode n key iv).dlen = s.dlen := by unfold withContext; rfl
@[simp] theorem withContext_keyIn (s : State) (alg : Alg) (mode : Mode) (n : Nat) (key iv : List Byte) : (withContext s alg mode n key iv).keyIn = s.keyIn := by unfold withContext; rfl
@[simp] theorem withContext_ivIn (s : State) (alg : Alg) (mode : Mode) (n : Nat) (key iv : List Byte) : (withContext s alg mode n key iv).ivIn = s.ivIn := by unfold withContext; rfl
@[simp] theorem withContext_chain (s : State) (alg : Alg) (mode : Mode) (n : Nat) (key iv : List Byte) : (withContext s alg mode n key iv).chain = chainOf iv := by unfold withContext; rfl
@[simp] theorem withContext_dbuf (s : State) (alg : Alg) (mode : Mode) (n : Nat) (key iv : List Byte) : (withContext s alg mode n key iv).dbuf = s.dbuf := by unfold withContext; rfl
@[simp] theorem withContext_pending (s : State) (alg : Alg) (mode : Mode) (n : Nat) (key iv : List Byte) : (withContext s alg mode n key iv).pending = s.pending := by unfold withContext; rfl
@[simp] theorem withContext_reads (s : State) (alg : Alg) (mode : Mode) (n : Nat) (key iv : List Byte) : (withContext s alg mode n key iv).reads = s.reads := by unfold withContext; rfl

/-! ## withoutContext -/

@[simp] theorem withoutContext_cfg (s : State) : (withoutContext s).cfg = s.cfg := by unfold withoutContext; rfl
@[simp] theorem withoutContext_cmdr (s : State) : (withoutContext s).cmdr = s.cmdr := by unfold withoutContext; rfl
@[simp] theorem withoutContext_status (s : State) : (withoutContext s).status = s.status := by unfold withoutContext; rfl
@[simp] theorem withoutContext_ctx (s : State) : (withoutContext s).ctx = Ctx.empty := by unfold withoutContext; rfl
@[simp] theorem withoutContext_ckey (s : State) : (withoutContext s).ckey = [] := by unfold withoutContext; rfl
@[simp] theorem withoutContext_dlen (s : State) : (withoutContext s).dlen = s.dlen := by unfold withoutContext; rfl
@[simp] theorem withoutContext_keyIn (s : State) : (withoutContext s).keyIn = s.keyIn := by unfold withoutContext; rfl
@[simp] theorem withoutContext_ivIn (s : State) : (withoutContext s).ivIn = s.ivIn := by unfold withoutContext; rfl
@[simp] theorem withoutContext_chain (s : State) : (withoutContext s).chain = chainOf [] := by unfold withoutContext; rfl
@[simp] theorem withoutContext_dbuf (s : State) : (withoutContext s).dbuf = s.dbuf := by unfold withoutContext; rfl
@[simp] theorem withoutContext_pending (s : State) : (withoutContext s).pending = s.pending := by unfold withoutContext; rfl
@[simp] theorem withoutContext_reads (s : State) : (withoutContext s).reads = s.reads := by unfold withoutContext; rfl

/-! ## withCipherOutput -/

@[simp] theorem withCipherOutput_cfg (s : State) (out ch : List Byte) : (withCipherOutput s out ch).cfg = s.cfg := by unfold withCipherOutput; rfl
@[simp] theorem withCipherOutput_cmdr (s : State) (out ch : List Byte) : (withCipherOutput s out ch).cmdr = s.cmdr := by unfold withCipherOutput; rfl
@[simp] theorem withCipherOutput_status (s : State) (out ch : List Byte) : (withCipherOutput s out ch).status = s.status := by unfold withCipherOutput; rfl
@[simp] theorem withCipherOutput_ctx (s : State) (out ch : List Byte) : (withCipherOutput s out ch).ctx = s.ctx := by unfold withCipherOutput; rfl
@[simp] theorem withCipherOutput_ckey (s : State) (out ch : List Byte) : (withCipherOutput s out ch).ckey = s.ckey := by unfold withCipherOutput; rfl
@[simp] theorem withCipherOutput_dlen (s : State) (out ch : List Byte) : (withCipherOutput s out ch).dlen = s.dlen := by unfold withCipherOutput; rfl
@[simp] theorem withCipherOutput_keyIn (s : State) (out ch : List Byte) : (withCipherOutput s out ch).keyIn = s.keyIn := by unfold withCipherOutput; rfl
@[simp] theorem withCipherOutput_ivIn (s : State) (out ch : List Byte) : (withCipherOutput s out ch).ivIn = s.ivIn := by unfold withCipherOutput; rfl
@[simp] theorem withCipherOutput_chain (s : State) (out ch : List Byte) : (withCipherOutput s out ch).chain = chainOf ch := by unfold withCipherOutput; rfl
@[simp] theorem withCipherOutput_dbuf (s : State) (out ch : List Byte) : (withCipherOutput s out ch).dbuf = Memory.write s.dbuf 0 out := by unfold withCipherOutput; rfl
@[simp] theorem withCipherOutput_pending (s : State) (out ch : List Byte) : (withCipherOutput s out ch).pending = s.pending := by unfold withCipherOutput; rfl
@[simp] theorem withCipherOutput_reads (s : State) (out ch : List Byte) : (withCipherOutput s out ch).reads = s.reads := by unfold withCipherOutput; rfl

/-! ## withPadding -/

@[simp] theorem withPadding_cfg (s : State) (p : List Byte) : (withPadding s p).cfg = s.cfg := by unfold withPadding; rfl
@[simp] theorem withPadding_cmdr (s : State) (p : List Byte) : (withPadding s p).cmdr = s.cmdr := by unfold withPadding; rfl
@[simp] theorem withPadding_status (s : State) (p : List Byte) : (withPadding s p).status = s.status := by unfold withPadding; rfl
@[simp] theorem withPadding_ctx (s : State) (p : List Byte) : (withPadding s p).ctx = s.ctx := by unfold withPadding; rfl
@[simp] theorem withPadding_ckey (s : State) (p : List Byte) : (withPadding s p).ckey = s.ckey := by unfold withPadding; rfl
@[simp] theorem withPadding_dlen (s : State) (p : List Byte) : (withPadding s p).dlen = BitVec.ofNat 32 (dataLen s + p.length) := by unfold withPadding; rfl
@[simp] theorem withPadding_keyIn (s : State) (p : List Byte) : (withPadding s p).keyIn = s.keyIn := by unfold withPadding; rfl
@[simp] theorem withPadding_ivIn (s : State) (p : List Byte) : (withPadding s p).ivIn = s.ivIn := by unfold withPadding; rfl
@[simp] theorem withPadding_chain (s : State) (p : List Byte) : (withPadding s p).chain = s.chain := by unfold withPadding; rfl
@[simp] theorem withPadding_dbuf (s : State) (p : List Byte) : (withPadding s p).dbuf = Memory.write s.dbuf (dataLen s) p := by unfold withPadding; rfl
@[simp] theorem withPadding_pending (s : State) (p : List Byte) : (withPadding s p).pending = s.pending := by unfold withPadding; rfl
@[simp] theorem withPadding_reads (s : State) (p : List Byte) : (withPadding s p).reads = s.reads := by unfold withPadding; rfl

/-! ## withDataLen -/

@[simp] theorem withDataLen_cfg (s : State) (n : Nat) : (withDataLen s n).cfg = s.cfg := by unfold withDataLen; rfl
@[simp] theorem withDataLen_cmdr (s : State) (n : Nat) : (withDataLen s n).cmdr = s.cmdr := by unfold withDataLen; rfl
@[simp] theorem withDataLen_status (s : State) (n : Nat) : (withDataLen s n).status = s.status := by unfold withDataLen; rfl
@[simp] theorem withDataLen_ctx (s : State) (n : Nat) : (withDataLen s n).ctx = s.ctx := by unfold withDataLen; rfl
@[simp] theorem withDataLen_ckey (s : State) (n : Nat) : (withDataLen s n).ckey = s.ckey := by unfold withDataLen; rfl
@[simp] theorem withDataLen_dlen (s : State) (n : Nat) : (withDataLen s n).dlen = BitVec.ofNat 32 n := by unfold withDataLen; rfl
@[simp] theorem withDataLen_keyIn (s : State) (n : Nat) : (withDataLen s n).keyIn = s.keyIn := by unfold withDataLen; rfl
@[simp] theorem withDataLen_ivIn (s : State) (n : Nat) : (withDataLen s n).ivIn = s.ivIn := by unfold withDataLen; rfl
@[simp] theorem withDataLen_chain (s : State) (n : Nat) : (withDataLen s n).chain = s.chain := by unfold withDataLen; rfl
@[simp] theorem withDataLen_dbuf (s : State) (n : Nat) : (withDataLen s n).dbuf = s.dbuf := by unfold withDataLen; rfl
@[simp] theorem withDataLen_pending (s : State) (n : Nat) : (withDataLen s n).pending = s.pending := by unfold withDataLen; rfl
@[simp] theorem withDataLen_reads (s : State) (n : Nat) : (withDataLen s n).reads = s.reads := by unfold withDataLen; rfl

/-! ## withPlaintext -/

@[simp] theorem withPlaintext_cfg (s : State) (pt : List Byte) (n : Nat) : (withPlaintext s pt n).cfg = s.cfg := by unfold withPlaintext; rfl
@[simp] theorem withPlaintext_cmdr (s : State) (pt : List Byte) (n : Nat) : (withPlaintext s pt n).cmdr = s.cmdr := by unfold withPlaintext; rfl
@[simp] theorem withPlaintext_status (s : State) (pt : List Byte) (n : Nat) : (withPlaintext s pt n).status = s.status := by unfold withPlaintext; rfl
@[simp] theorem withPlaintext_ctx (s : State) (pt : List Byte) (n : Nat) : (withPlaintext s pt n).ctx = s.ctx := by unfold withPlaintext; rfl
@[simp] theorem withPlaintext_ckey (s : State) (pt : List Byte) (n : Nat) : (withPlaintext s pt n).ckey = s.ckey := by unfold withPlaintext; rfl
@[simp] theorem withPlaintext_dlen (s : State) (pt : List Byte) (n : Nat) : (withPlaintext s pt n).dlen = BitVec.ofNat 32 n := by unfold withPlaintext; rfl
@[simp] theorem withPlaintext_keyIn (s : State) (pt : List Byte) (n : Nat) : (withPlaintext s pt n).keyIn = s.keyIn := by unfold withPlaintext; rfl
@[simp] theorem withPlaintext_ivIn (s : State) (pt : List Byte) (n : Nat) : (withPlaintext s pt n).ivIn = s.ivIn := by unfold withPlaintext; rfl
@[simp] theorem withPlaintext_chain (s : State) (pt : List Byte) (n : Nat) : (withPlaintext s pt n).chain = s.chain := by unfold withPlaintext; rfl
@[simp] theorem withPlaintext_dbuf (s : State) (pt : List Byte) (n : Nat) : (withPlaintext s pt n).dbuf = Memory.write s.dbuf 0 pt := by unfold withPlaintext; rfl
@[simp] theorem withPlaintext_pending (s : State) (pt : List Byte) (n : Nat) : (withPlaintext s pt n).pending = s.pending := by unfold withPlaintext; rfl
@[simp] theorem withPlaintext_reads (s : State) (pt : List Byte) (n : Nat) : (withPlaintext s pt n).reads = s.reads := by unfold withPlaintext; rfl

/-! ## hostReceives -/

@[simp] theorem hostReceives_cfg (s : State) (v : Word) : (hostReceives s v).cfg = s.cfg := by unfold hostReceives; rfl
@[simp] theorem hostReceives_cmdr (s : State) (v : Word) : (hostReceives s v).cmdr = s.cmdr := by unfold hostReceives; rfl
@[simp] theorem hostReceives_status (s : State) (v : Word) : (hostReceives s v).status = s.status := by unfold hostReceives; rfl
@[simp] theorem hostReceives_ctx (s : State) (v : Word) : (hostReceives s v).ctx = s.ctx := by unfold hostReceives; rfl
@[simp] theorem hostReceives_ckey (s : State) (v : Word) : (hostReceives s v).ckey = s.ckey := by unfold hostReceives; rfl
@[simp] theorem hostReceives_dlen (s : State) (v : Word) : (hostReceives s v).dlen = s.dlen := by unfold hostReceives; rfl
@[simp] theorem hostReceives_keyIn (s : State) (v : Word) : (hostReceives s v).keyIn = s.keyIn := by unfold hostReceives; rfl
@[simp] theorem hostReceives_ivIn (s : State) (v : Word) : (hostReceives s v).ivIn = s.ivIn := by unfold hostReceives; rfl
@[simp] theorem hostReceives_chain (s : State) (v : Word) : (hostReceives s v).chain = s.chain := by unfold hostReceives; rfl
@[simp] theorem hostReceives_dbuf (s : State) (v : Word) : (hostReceives s v).dbuf = s.dbuf := by unfold hostReceives; rfl
@[simp] theorem hostReceives_pending (s : State) (v : Word) : (hostReceives s v).pending = s.pending := by unfold hostReceives; rfl
@[simp] theorem hostReceives_reads (s : State) (v : Word) : (hostReceives s v).reads = s.reads ++ [v] := by unfold hostReceives; rfl

/-! ## issued -/

@[simp] theorem issued_cfg (s : State) (w : Word) (rest : List HostEvent) : (issued s w rest).cfg = s.cfg := by unfold issued; rfl
@[simp] theorem issued_cmdr (s : State) (w : Word) (rest : List HostEvent) : (issued s w rest).cmdr = w := by unfold issued; rfl
@[simp] theorem issued_status (s : State) (w : Word) (rest : List HostEvent) : (issued s w rest).status = s.status := by unfold issued; rfl
@[simp] theorem issued_ctx (s : State) (w : Word) (rest : List HostEvent) : (issued s w rest).ctx = s.ctx := by unfold issued; rfl
@[simp] theorem issued_ckey (s : State) (w : Word) (rest : List HostEvent) : (issued s w rest).ckey = s.ckey := by unfold issued; rfl
@[simp] theorem issued_dlen (s : State) (w : Word) (rest : List HostEvent) : (issued s w rest).dlen = s.dlen := by unfold issued; rfl
@[simp] theorem issued_keyIn (s : State) (w : Word) (rest : List HostEvent) : (issued s w rest).keyIn = s.keyIn := by unfold issued; rfl
@[simp] theorem issued_ivIn (s : State) (w : Word) (rest : List HostEvent) : (issued s w rest).ivIn = s.ivIn := by unfold issued; rfl
@[simp] theorem issued_chain (s : State) (w : Word) (rest : List HostEvent) : (issued s w rest).chain = s.chain := by unfold issued; rfl
@[simp] theorem issued_dbuf (s : State) (w : Word) (rest : List HostEvent) : (issued s w rest).dbuf = s.dbuf := by unfold issued; rfl
@[simp] theorem issued_pending (s : State) (w : Word) (rest : List HostEvent) : (issued s w rest).pending = rest := by unfold issued; rfl
@[simp] theorem issued_reads (s : State) (w : Word) (rest : List HostEvent) : (issued s w rest).reads = s.reads := by unfold issued; rfl

/-! ## resetBlock -/

@[simp] theorem resetBlock_cfg (s : State) : (resetBlock s).cfg = s.cfg := by unfold resetBlock; rfl
@[simp] theorem resetBlock_cmdr (s : State) : (resetBlock s).cmdr = 0 := by unfold resetBlock; rfl
@[simp] theorem resetBlock_status (s : State) : (resetBlock s).status = 0 := by unfold resetBlock; rfl
@[simp] theorem resetBlock_ctx (s : State) : (resetBlock s).ctx = Ctx.empty := by unfold resetBlock; rfl
@[simp] theorem resetBlock_ckey (s : State) : (resetBlock s).ckey = [] := by unfold resetBlock; rfl
@[simp] theorem resetBlock_dlen (s : State) : (resetBlock s).dlen = 0 := by unfold resetBlock; rfl
@[simp] theorem resetBlock_keyIn (s : State) : (resetBlock s).keyIn = [] := by unfold resetBlock; rfl
@[simp] theorem resetBlock_ivIn (s : State) : (resetBlock s).ivIn = [] := by unfold resetBlock; rfl
@[simp] theorem resetBlock_chain (s : State) : (resetBlock s).chain = zeroChain := by unfold resetBlock; rfl
@[simp] theorem resetBlock_dbuf (s : State) : (resetBlock s).dbuf = [] := by unfold resetBlock; rfl
@[simp] theorem resetBlock_pending (s : State) : (resetBlock s).pending = s.pending := by unfold resetBlock; rfl
@[simp] theorem resetBlock_reads (s : State) : (resetBlock s).reads = s.reads := by unfold resetBlock; rfl

end Sys2Proof.Machine
end

