-- ==== Sys2Proof/Laws/Command.lean ====
section
/-! SUPPORT. What the command frame and the rule of each command can do, said once. -/

namespace Sys2Proof.Machine

/-! ## The command frame -/

/-- A command that answers a next state has either committed or reported an error. -/
theorem finish_next {opc : BitVec 4} {s t : State} {r : CmdResult} (h : finish opc s r = .next t) :
    (∃ s', r = .commit s' ∧ t = reportSuccess opc s') ∨ (∃ d, r = .raised d ∧ t = reportError opc d s) := by
  cases r <;> simp [finish] at h <;> simp [h]

/-- A command that stops has met a model fault. -/
theorem finish_fault {opc : BitVec 4} {s : State} {r : CmdResult} {f : Fault} (h : finish opc s r = .fault f) :
    r = .stop f := by
  cases r <;> simp [finish] at h
  rw [h]

/-- No command is refused. -/
theorem finish_not_refused {opc : BitVec 4} {s : State} {r : CmdResult} {f : Refusal} :
    finish opc s r ≠ .refused f := by
  cases r <;> simp [finish]

/-- The rule each command runs under the frame. -/
def ruleOf (i : Instr) (s : State) : CmdResult :=
  match i with
  | .init alg mode ivp keylen ivlen => initRule alg mode ivp keylen ivlen s
  | .encrypt => cipherRule .enc s
  | .decrypt => cipherRule .dec s
  | .pad bs style => padRule bs style s
  | .unpad bs style => unpadRule bs style s
  | .decryptUnpad ivp bs keylen ivlen => decryptUnpadRule ivp bs keylen ivlen s
  | .release => .commit (withoutContext s)

/-- Every command is its rule inside the one frame (45_commands.md R300). -/
theorem exec_eq_finish (i : Instr) (s : State) : exec i s = finish i.opc s (ruleOf i s) := by
  cases i <;> rfl

/-! ## The words of STATUS -/

theorem successWord_err (opc : BitVec 4) : statusErr (successWord opc) = 0 := by
  revert opc
  decide

theorem failWord_err (opc : BitVec 4) (d : Detail) : statusErr (failWord opc d) = 1 := by
  revert opc
  cases d <;> decide

/-! ## INIT -/

theorem ivOrZero_eq_some {s : State} {r : Bool} {n : Nat} {iv : List Byte} (h : ivOrZero s r n = some iv) :
    iv.length = n ∧ (r = true → s.ivIn.holds 0 iv) ∧ (r = false → iv = bytesOf n 0) := by
  cases r with
  | false => simp [ivOrZero] at h; subst h; simp
  | true =>
    simp only [ivOrZero, if_true, ivRead] at h
    have := (Memory.read_eq_some_iff s.ivIn 0 n iv).mp h
    exact ⟨this.1, fun _ => this.2, by simp⟩

theorem initRule_commit {alg : Alg} {mode : Mode} {ivp : Bool} {keylen ivlen : Nat} {s t : State}
    (h : initRule alg mode ivp keylen ivlen s = .commit t) :
    keylen ∈ keySet alg ∧ ∃ key iv, keyRead s keylen = some key ∧
      ivOrZero s (initReadsIv mode ivp) (blockSize alg) = some iv ∧ t = withContext s alg mode keylen key iv := by
  unfold initRule at h
  split at h
  · cases h
  rename_i hk
  split at h
  · cases h
  split at h
  · rename_i key iv hkey hiv
    cases h
    exact ⟨by simpa using hk, key, iv, hkey, hiv, rfl⟩
  · cases h

theorem initRule_raised {alg : Alg} {mode : Mode} {ivp : Bool} {keylen ivlen : Nat} {s : State} {d : Detail}
    (h : initRule alg mode ivp keylen ivlen s = .raised d) : d = .keyLen ∨ d = .ivLen := by
  unfold initRule at h
  split at h
  · cases h; simp
  split at h
  · cases h; simp
  split at h <;> cases h

/-! ## ENCRYPT and DECRYPT -/

theorem cipherRule_commit {dir : Dir} {s t : State} (h : cipherRule dir s = .commit t) :
    s.ctx.valid = true ∧ dataLen s % blockSize s.ctx.alg = 0 ∧ dataLen s ≤ s.cfg.bufSize ∧
      ∃ data r, memRead s 0 (dataLen s) = some data ∧
        modeApply s.ctx.alg s.ctx.mode s.ckey dir s.chain.toList data = .ok r ∧
        t = withCipherOutput s r.1 r.2 := by
  unfold cipherRule at h
  split at h
  · cases h
  rename_i hv
  split at h
  · cases h
  split at h
  · cases h
  split at h
  · cases h
  rename_i data hdata
  split at h
  · cases h
  rename_i r hr
  cases h
  exact ⟨by simpa using hv, by omega, by omega, data, r, hdata, hr, rfl⟩

theorem cipherRule_raised {dir : Dir} {s : State} {d : Detail} (h : cipherRule dir s = .raised d) :
    d = .noContext ∨ d = .dataLen ∨ d = .bounds := by
  unfold cipherRule at h
  split at h
  · cases h; simp
  split at h
  · cases h; simp
  split at h
  · cases h; simp
  split at h
  · cases h
  split at h
  · rename_i e he
    cases h
    simp [((modeApply_error_iff _ _ _ _ _ _ _).mp he).2]
  · cases h

/-! ## PAD and UNPAD -/

theorem padRule_commit {bs : Nat} {style : Style} {s t : State} (h : padRule bs style s = .commit t) :
    1 ≤ bs ∧ bs ≤ 255 ∧ style ≠ .unrecognized ∧ dataLen s + padLen (dataLen s) bs ≤ s.cfg.bufSize ∧
      t = withPadding s (padBytes (padLen (dataLen s) bs) style) := by
  unfold padRule at h
  split at h
  · cases h
  split at h
  · cases h
  split at h
  · cases h
  split at h
  · cases h
  cases h
  exact ⟨by omega, by omega, by assumption, by omega, rfl⟩

theorem padRule_not_stop {bs : Nat} {style : Style} {s : State} {f : Fault} : padRule bs style s ≠ .stop f := by
  unfold padRule
  split_ifs <;> simp

theorem padRule_raised {bs : Nat} {style : Style} {s : State} {d : Detail} (h : padRule bs style s = .raised d) :
    d = .blockSize ∨ d = .style ∨ d = .bounds := by
  unfold padRule at h
  split_ifs at h <;> cases h <;> simp

/-- A padding check over partly written bytes reports the settled error, or stops. -/
theorem checkPartlyWritten_eq (f : List (Option Byte)) (bs : Nat) (style : Style) :
    (∃ d, settledError f bs style = some d ∧ checkPartlyWritten f bs style = .raised d) ∨
      (settledError f bs style = none ∧ checkPartlyWritten f bs style = .stop .unwrittenUse) := by
  unfold checkPartlyWritten
  cases h : settledError f bs style with
  | none => exact .inr ⟨rfl, rfl⟩
  | some d => exact .inl ⟨d, rfl, rfl⟩

theorem checkPartlyWritten_ne_commit {f : List (Option Byte)} {bs : Nat} {style : Style} {t : State} :
    checkPartlyWritten f bs style ≠ .commit t := by
  rcases checkPartlyWritten_eq f bs style with ⟨d, -, h⟩ | ⟨-, h⟩ <;> rw [h] <;> simp

theorem unpadRule_commit {bs : Nat} {style : Style} {s t : State} (h : unpadRule bs style s = .commit t) :
    1 ≤ bs ∧ bs ≤ 255 ∧ style ≠ .unrecognized ∧ 0 < dataLen s ∧ dataLen s % bs = 0 ∧
      dataLen s ≤ s.cfg.bufSize ∧
      ∃ f n, memRead s (dataLen s - bs) bs = some f ∧ unpadFn f bs style = .ok n ∧
        t = withDataLen s (n + (dataLen s - bs)) := by
  unfold unpadRule at h
  split at h
  · cases h
  split at h
  · cases h
  split at h
  · cases h
  split at h
  · cases h
  split at h
  · exact absurd h checkPartlyWritten_ne_commit
  rename_i f hf
  split at h
  · cases h
  rename_i n hn
  cases h
  exact ⟨by omega, by omega, by assumption, by omega, by omega, by omega, f, n, hf, hn, rfl⟩

/-! ## DECRYPT_UNPAD -/

theorem decryptUnpadData_commit {bs : Nat} {key iv data : List Byte} {s t : State}
    (h : decryptUnpadData bs key iv data s = .commit t) :
    ∃ r n, modeApply .aes .cbc key .dec iv data = .ok r ∧ unpadFn r.1 bs .pkcs7 = .ok n ∧
      t = withPlaintext s r.1 n := by
  unfold decryptUnpadData at h
  split at h
  · cases h
  rename_i r hr
  split at h
  · cases h
  rename_i n hn
  cases h
  exact ⟨r, n, hr, hn, rfl⟩

theorem decryptUnpadRule_commit {ivp : Bool} {bs keylen ivlen : Nat} {s t : State}
    (h : decryptUnpadRule ivp bs keylen ivlen s = .commit t) :
    keylen ∈ keySet .aes ∧ dataLen s % 16 = 0 ∧ dataLen s ≤ s.cfg.bufSize ∧
      ∃ key iv data r n, keyRead s keylen = some key ∧ ivOrZero s ivp 16 = some iv ∧
        memRead s 0 (dataLen s) = some data ∧ modeApply .aes .cbc key .dec iv data = .ok r ∧
        unpadFn r.1 bs .pkcs7 = .ok n ∧ t = withPlaintext s r.1 n := by
  unfold decryptUnpadRule at h
  split at h
  · cases h
  rename_i hk
  split at h
  · cases h
  split at h
  · cases h
  split at h
  · cases h
  split at h
  · cases h
  split at h
  · cases h
  split at h
  · rename_i key iv data hkey hiv hdata
    obtain ⟨r, n, hr, hn, rfl⟩ := decryptUnpadData_commit h
    exact ⟨by simpa using hk, by omega, by omega, key, iv, data, r, n, hkey, hiv, hdata, hr, hn, rfl⟩
  · exact absurd h checkPartlyWritten_ne_commit

/-! ## Every command -/

/-- A next state of a command: its rule committed, or it reported an error. -/
theorem exec_next {i : Instr} {s t : State} (h : exec i s = .next t) :
    (∃ s', ruleOf i s = .commit s' ∧ t = reportSuccess i.opc s') ∨
      (∃ d, ruleOf i s = .raised d ∧ t = reportError i.opc d s) :=
  finish_next (exec_eq_finish i s ▸ h)

end Sys2Proof.Machine
end

