-- ==== Sys2Proof/Laws/PerInstr.lean ====
section
/-! SUPPORT. The fields of a packed word, and the per-constructor family `EncodeFitsRow`: the word of a command
carries its row's fixed bits (30_encoding.md R112). -/

namespace Sys2Proof

/-! ## Each field of a packed word is the field it was packed from (R110) -/

section Fields

variable (rsv : BitVec 3) (ivlen : BitVec 5) (keylen : BitVec 6) (style : BitVec 2) (bs : BitVec 8)
  (ivp mode : BitVec 1) (alg : BitVec 2) (opc : BitVec 4)

@[simp] theorem opc_packWord : Word.opc (packWord rsv ivlen keylen style bs ivp mode alg opc) = opc := by
  ext i hi
  simp only [Word.opc, packWord, BitVec.getElem_extractLsb', BitVec.getLsbD_append]
  interval_cases i <;> simp

@[simp] theorem alg_packWord : Word.alg (packWord rsv ivlen keylen style bs ivp mode alg opc) = alg := by
  ext i hi
  simp only [Word.alg, packWord, BitVec.getElem_extractLsb', BitVec.getLsbD_append]
  interval_cases i <;> simp

@[simp] theorem mode_packWord : Word.mode (packWord rsv ivlen keylen style bs ivp mode alg opc) = mode := by
  ext i hi
  simp only [Word.mode, packWord, BitVec.getElem_extractLsb', BitVec.getLsbD_append]
  interval_cases i
  simp

@[simp] theorem ivp_packWord : Word.ivp (packWord rsv ivlen keylen style bs ivp mode alg opc) = ivp := by
  ext i hi
  simp only [Word.ivp, packWord, BitVec.getElem_extractLsb', BitVec.getLsbD_append]
  interval_cases i
  simp

@[simp] theorem bs_packWord : Word.bs (packWord rsv ivlen keylen style bs ivp mode alg opc) = bs := by
  ext i hi
  simp only [Word.bs, packWord, BitVec.getElem_extractLsb', BitVec.getLsbD_append]
  interval_cases i <;> simp

@[simp] theorem style_packWord : Word.style (packWord rsv ivlen keylen style bs ivp mode alg opc) = style := by
  ext i hi
  simp only [Word.style, packWord, BitVec.getElem_extractLsb', BitVec.getLsbD_append]
  interval_cases i <;> simp

@[simp] theorem keylen_packWord : Word.keylen (packWord rsv ivlen keylen style bs ivp mode alg opc) = keylen := by
  ext i hi
  simp only [Word.keylen, packWord, BitVec.getElem_extractLsb', BitVec.getLsbD_append]
  interval_cases i <;> simp

@[simp] theorem ivlen_packWord : Word.ivlen (packWord rsv ivlen keylen style bs ivp mode alg opc) = ivlen := by
  ext i hi
  simp only [Word.ivlen, packWord, BitVec.getElem_extractLsb', BitVec.getLsbD_append]
  interval_cases i <;> simp

@[simp] theorem rsv_packWord : Word.rsv (packWord rsv ivlen keylen style bs ivp mode alg opc) = rsv := by
  ext i hi
  simp only [Word.rsv, packWord, BitVec.getElem_extractLsb', BitVec.getLsbD_append]
  interval_cases i <;> simp

end Fields

/-- A word is the packing of its own fields. -/
theorem packWord_fields (w : Word) :
    packWord (Word.rsv w) (Word.ivlen w) (Word.keylen w) (Word.style w) (Word.bs w) (Word.ivp w) (Word.mode w)
      (Word.alg w) (Word.opc w) = w := by
  apply BitVec.eq_of_getLsbD_eq
  intro i hi
  simp only [packWord, Word.rsv, Word.ivlen, Word.keylen, Word.style, Word.bs, Word.ivp, Word.mode, Word.alg,
    Word.opc, BitVec.getLsbD_append, BitVec.getLsbD_extractLsb']
  interval_cases i <;> simp

namespace Laws.EncodeFitsRow

/-- The word of the command has its row's fixed bits under its row's mask. -/
def Statement (i : Instr) : Prop := i.row.encodedBy (encode i) = true

theorem init (alg : Alg) (mode : Mode) (ivp : Bool) (keylen ivlen : Nat) :
    Statement (.init alg mode ivp keylen ivlen) := by
  simp only [Statement, OpcodeRow.encodedBy, Instr.row, rowInit, encode, beq_iff_eq]
  apply BitVec.eq_of_getLsbD_eq
  intro i hi
  simp only [packWord, BitVec.getLsbD_and, BitVec.getLsbD_append]
  interval_cases i <;> simp

theorem encrypt : Statement .encrypt := by unfold Statement; decide

theorem decrypt : Statement .decrypt := by unfold Statement; decide

theorem pad (bs : Nat) (style : Style) : Statement (.pad bs style) := by
  simp only [Statement, OpcodeRow.encodedBy, Instr.row, rowPad, encode, beq_iff_eq]
  apply BitVec.eq_of_getLsbD_eq
  intro i hi
  simp only [packWord, BitVec.getLsbD_and, BitVec.getLsbD_append]
  interval_cases i <;> simp

theorem unpad (bs : Nat) (style : Style) : Statement (.unpad bs style) := by
  simp only [Statement, OpcodeRow.encodedBy, Instr.row, rowUnpad, encode, beq_iff_eq]
  apply BitVec.eq_of_getLsbD_eq
  intro i hi
  simp only [packWord, BitVec.getLsbD_and, BitVec.getLsbD_append]
  interval_cases i <;> simp

theorem decryptUnpad (ivp : Bool) (bs keylen ivlen : Nat) : Statement (.decryptUnpad ivp bs keylen ivlen) := by
  simp only [Statement, OpcodeRow.encodedBy, Instr.row, rowDecryptUnpad, encode, beq_iff_eq]
  apply BitVec.eq_of_getLsbD_eq
  intro i hi
  simp only [packWord, BitVec.getLsbD_and, BitVec.getLsbD_append]
  interval_cases i <;> simp

theorem release : Statement .release := by unfold Statement; decide

end Laws.EncodeFitsRow

end Sys2Proof
end

