-- ==== Sys2Proof/Laws/Step.lean ====
section
/-! SUPPORT. What one step, one bus write and one EXECUTE can do, said once. -/

namespace Sys2Proof.Machine

/-- The accesses the port has (20_memory.md R82). -/
theorem accessOk_iff (width : AccessWidth) (a : BitVec 16) :
    accessOk width a = true ↔ width = .word ∧ a.toNat % 4 = 0 := by
  simp [accessOk]

/-- No word a host reads depends on where the host stands or on what it has read. -/
@[simp] theorem busRead_host (s : State) (p : List HostEvent) (r : List Word) (a : Nat) :
    busRead { s with pending := p, reads := r } a = busRead s a := rfl

@[simp] theorem busRead_pending (s : State) (p : List HostEvent) (a : Nat) :
    busRead { s with pending := p } a = busRead s a := rfl

/-- EXECUTE of a word that answers a next state: an error of DECODE, or the decoded command (45_commands.md R300). -/
theorem execute_next {w : Word} {s t : State} (h : execute w s = .next t) :
    (∃ d, decode w = .illegal d ∧ t = reportError (Word.opc w) d s) ∨ (∃ i, decode w = .cmd i ∧ exec i s = .next t) := by
  unfold execute at h
  split at h
  · rename_i d hd
    cases h
    exact .inl ⟨d, hd, rfl⟩
  · rename_i i hi
    exact .inr ⟨i, hi, h⟩

/-- A bus write that answers a next state: a command, a stored DLEN or window word, or nothing (20_memory.md R88). -/
theorem busWrite_next {s t : State} {a : Nat} {v : Word} (h : busWrite s a v = .next t) :
    (a = 0x0000 ∧ execute v { s with cmdr := v } = .next t) ∨
    (a = 0x000C ∧ t = { s with dlen := v }) ∨
    (0x0040 ≤ a ∧ a < 0x0060 ∧ t = { s with keyIn := store s.keyIn (a - 0x0040) v }) ∨
    (0x0060 ≤ a ∧ a < 0x0070 ∧ t = { s with ivIn := store s.ivIn (a - 0x0060) v }) ∨
    (0x1000 ≤ a ∧ a + 4 ≤ 0x1000 + s.cfg.bufSize ∧ t = { s with dbuf := store s.dbuf (a - 0x1000) v }) ∨
    t = s := by
  unfold busWrite target at h
  split_ifs at h with h0 h1 h2 h3 h4 hk hv hc hd
  · exact .inl ⟨h0, h⟩
  all_goals injection h with h; subst h
  · simp
  · simp
  · exact .inr (.inl ⟨h3, rfl⟩)
  · simp
  · exact .inr (.inr (.inl ⟨hk.1, hk.2, rfl⟩))
  · exact .inr (.inr (.inr (.inl ⟨hv.1, hv.2, rfl⟩)))
  · simp
  · exact .inr (.inr (.inr (.inr (.inl ⟨hd.1, hd.2, rfl⟩))))
  · simp

/-- A step that answers a next state: idleness, a read, a write, or RESET (10_state.md R30, 70_reset_and_hazards.md
R370). -/
theorem step_next {s t : State} (h : step s = .next t) :
    (s.pending = [] ∧ t = s) ∨
    ∃ rest,
      (∃ a v, s.pending = .read .word a :: rest ∧ a.toNat % 4 = 0 ∧ busRead s a.toNat = some v ∧
        t = { s with pending := rest, reads := s.reads ++ [v] }) ∨
      (∃ a v, s.pending = .write .word a v :: rest ∧ a.toNat % 4 = 0 ∧
        busWrite { s with pending := rest } a.toNat v = .next t) ∨
      (s.pending = .reset :: rest ∧ t = resetBlock { s with pending := rest }) := by
  unfold step hostStep at h
  split at h
  · rename_i hp
    cases h
    exact .inl ⟨hp, rfl⟩
  · rename_i e rest hp
    refine .inr ⟨rest, ?_⟩
    cases e with
    | read width a =>
      simp only [hostEvent] at h
      split at h
      · rename_i hok
        obtain ⟨rfl, ha⟩ := (accessOk_iff width a).mp hok
        split at h
        · rename_i v hv
          cases h
          exact .inl ⟨a, v, hp, ha, hv, rfl⟩
        · cases h
      · cases h
    | write width a v =>
      simp only [hostEvent] at h
      split at h
      · rename_i hok
        obtain ⟨rfl, ha⟩ := (accessOk_iff width a).mp hok
        exact .inr (.inl ⟨a, v, hp, ha, h⟩)
      · cases h
    | reset =>
      cases h
      exact .inr (.inr ⟨hp, rfl⟩)

end Sys2Proof.Machine
end

