-- ==== Sys2Proof/Tests/Slice0.lean ====
section
/-! SUPPORT. Tests of the definitions, with values taken from the spec's own tables and vectors (95_test_vectors.md),
and for every obligation with hypotheses a witness that meets them. -/

namespace Sys2Proof.Tests

set_option Elab.async false

open Sys2Proof Sys2Proof.Machine

/-! ## Helpers -/

/-- The outcome is a next state with the property `P`. -/
abbrev nextWith (o : Host.Outcome State Fault Refusal) (P : State → Prop) : Prop := ∃ t, o = .next t ∧ P t

theorem nextWith_of {o : Host.Outcome State Fault Refusal} {P : State → Prop} [DecidablePred P]
    (h : (match o with
      | .next t => decide (P t)
      | .fault _ => false
      | .refused _ => false) = true) : nextWith o P := by
  cases o with
  | next t => exact ⟨t, rfl, of_decide_eq_true h⟩
  | fault f => exact absurd h Bool.false_ne_true
  | refused r => exact absurd h Bool.false_ne_true

/-- The reset state with the windows and DLEN staged: the three strings stand from index 0 of theirs. -/
def staged (key iv data : List Byte) : State :=
  { State.reset with
    keyIn := cellsFrom 0 key
    ivIn := cellsFrom 0 iv
    dbuf := cellsFrom 0 data
    dlen := BitVec.ofNat 32 data.length }

/-- A state with a context of its own. -/
def withCtx (alg : Alg) (mode : Mode) (key iv data : List Byte) : State :=
  withContext (staged [] [] data) alg mode key.length key iv

/-- The state whose host is about to make these accesses. -/
def hostDoes (s : State) (es : List HostEvent) : State := { s with pending := es }

/-- The DES key of V20. -/
def desKey : List Byte := [0x13, 0x34, 0x57, 0x79, 0x9B, 0xBC, 0xDF, 0xF1]
/-- The DES plaintext of V20. -/
def desText : List Byte := [0x01, 0x23, 0x45, 0x67, 0x89, 0xAB, 0xCD, 0xEF]
/-- The DES ciphertext of V20. -/
def desCipher : List Byte := [0x85, 0xE8, 0x13, 0x54, 0x0F, 0x0A, 0xB4, 0x05]
/-- The bytes 0, 1, 2, … -/
def counting (n : Nat) : List Byte := (List.range n).map (fun i => BitVec.ofNat 8 i)
/-- The plaintext of V23 to V25. -/
def aesText : List Byte := (List.range 16).map (fun i => BitVec.ofNat 8 (17 * i))
/-- The AES key of V36 and V40. -/
def aesKey : List Byte :=
  [0x2b, 0x7e, 0x15, 0x16, 0x28, 0xae, 0xd2, 0xa6, 0xab, 0xf7, 0x15, 0x88, 0x09, 0xcf, 0x4f, 0x3c]
/-- The ciphertext of V40. -/
def v40Cipher : List Byte :=
  [0xd8, 0x66, 0x6e, 0xa8, 0xaa, 0xd6, 0x5c, 0xc0, 0x83, 0x54, 0xb4, 0xbc, 0x43, 0xd4, 0xff, 0x56]
/-- The padded plaintext of V40. -/
def v40Plain : List Byte :=
  [0x68, 0x65, 0x6c, 0x6c, 0x6f, 0x0b, 0x0b, 0x0b, 0x0b, 0x0b, 0x0b, 0x0b, 0x0b, 0x0b, 0x0b, 0x0b]
/-- "hello" (V1). -/
def hello : List Byte := [0x68, 0x65, 0x6c, 0x6c, 0x6f]
/-- Another machine than the reference one: the smallest legal BUF_SIZE (R12). -/
def smallest : Config := ⟨256⟩
/-- The largest legal BUF_SIZE (R12). -/
def largest : Config := ⟨0xF000⟩

/-! ## WellFormed refuses each ill-formed length (R116, R118, R119) -/

theorem test_wf_refuses_key_length : (Instr.init .aes .cbc true 64 16).wf = false := by decide +kernel
theorem test_wf_refuses_iv_length : (Instr.init .aes .cbc true 16 32).wf = false := by decide +kernel
theorem test_wf_refuses_pad_block_size : (Instr.pad 256 .pkcs7).wf = false := by decide +kernel
theorem test_wf_refuses_unpad_block_size : (Instr.unpad 256 .x923).wf = false := by decide +kernel
theorem test_wf_refuses_composite_block_size : (Instr.decryptUnpad true 256 16 16).wf = false := by decide +kernel
theorem test_wf_refuses_composite_key_length : (Instr.decryptUnpad true 16 64 16).wf = false := by decide +kernel
theorem test_wf_refuses_composite_iv_length : (Instr.decryptUnpad true 16 16 32).wf = false := by decide +kernel

/-! ## Decoding: words written out field by field, RSV IVLEN KEYLEN STYLE BS IVP MODE ALG OPC (R110, V41) -/

theorem test_decode_init :
    decode 0b000_01000_011000_00_00000000_1_1_01_0001#32 = .cmd (.init .tdes .cbc true 24 8) := by decide +kernel
theorem test_decode_encrypt : decode 0b000_00000_000000_00_00000000_0_0_00_0010#32 = .cmd .encrypt := by decide +kernel
theorem test_decode_decrypt : decode 0b000_00000_000000_00_00000000_0_0_00_0011#32 = .cmd .decrypt := by decide +kernel
theorem test_decode_pad :
    decode 0b000_00000_000000_10_00000100_0_0_00_0100#32 = .cmd (.pad 4 .iso7816) := by decide +kernel
theorem test_decode_unpad :
    decode 0b000_00000_000000_11_11111111_0_0_00_0101#32 = .cmd (.unpad 255 .unrecognized) := by decide +kernel
theorem test_decode_decrypt_unpad :
    decode 0b000_10000_100000_00_00010000_1_0_00_0110#32 = .cmd (.decryptUnpad true 16 32 16) := by decide +kernel
theorem test_decode_release : decode 0b000_00000_000000_00_00000000_0_0_00_0111#32 = .cmd .release := by decide +kernel

/-- R120, R121, R113 and V43's illegal words: the reserved OPC values, a must-be-zero field of each row, ALG = 3. -/
theorem test_decode_refuses :
    decode 0x00000000 = .illegal .badOpc ∧ decode 0x00000008 = .illegal .badOpc ∧
      decode 0xFFFFFFFF = .illegal .badOpc ∧ decode 0x00400121 = .illegal .reservedField ∧
      decode 0x80000002 = .illegal .reservedField ∧ decode 0x00000814 = .illegal .reservedField ∧
      decode 0x00401046 = .illegal .reservedField ∧ decode 0x00000107 = .illegal .reservedField ∧
      decode 0x00400031 = .illegal .badAlg ∧ decode 0x00400131 = .illegal .reservedField := by decide +kernel

/-- R112: the table's rows are pairwise disjoint, at most one encodes any word. -/
theorem test_rows_are_disjoint :
    opcodeTable.Pairwise (fun r q => (r.fixed ^^^ q.fixed) &&& r.mask &&& q.mask ≠ 0) := by decide +kernel

/-- R125's two examples and V41's `DECRYPT_UNPAD key=32, bs=16`, from their text. -/
theorem test_assembler :
    (readLine "INIT alg=AES, mode=CBC, key=16, iv=16").map assemble = some 0x104000E1 ∧
      (readLine "pad bs=8, style=PKCS7").map assemble = some 0x00000804 ∧
      (readLine "DECRYPT_UNPAD key=0x20, bs=16").map assemble = some 0x00801006 := by decide +kernel

/-! ## The pure functions: known answers -/

/-- V20. -/
theorem test_des_enc : desEnc desKey desText = desCipher := by decide +kernel
/-- V20, the subkeys of rounds 1 and 16. -/
theorem test_des_subkeys : (desKS desKey).getD 0 0 = 0x1b02effc7072 ∧ (desKS desKey).getD 15 0 = 0xcb3d8b0e17f5 := by
  decide +kernel
/-- V20: F(R0, K1). -/
theorem test_des_round_function : desF 0xf0aaf0aa 0x1b02effc7072 = 0x234aa9bb := by decide +kernel
/-- V23, FIPS 197 C.1. -/
theorem test_aes128_enc :
    aesEnc (counting 16) aesText =
      [0x69, 0xc4, 0xe0, 0xd8, 0x6a, 0x7b, 0x04, 0x30, 0xd8, 0xcd, 0xb7, 0x80, 0x70, 0xb4, 0xc5, 0x5a] := by
  decide +kernel
/-- V24, FIPS 197 C.2. -/
theorem test_aes192_enc :
    aesEnc (counting 24) aesText =
      [0xdd, 0xa9, 0x7c, 0xa4, 0x86, 0x4c, 0xdf, 0xe0, 0x6e, 0xaf, 0x70, 0xa0, 0xec, 0x0d, 0x71, 0x91] := by
  decide +kernel
/-- V25, FIPS 197 C.3, decrypted. -/
theorem test_aes256_dec :
    aesDec (counting 32)
        [0x8e, 0xa2, 0xb7, 0xca, 0x51, 0x67, 0x45, 0xbf, 0xea, 0xfc, 0x49, 0x90, 0x4b, 0x49, 0x60, 0x89] =
      aesText := by decide +kernel
/-- V27: products, and MixColumns on one column. -/
theorem test_field :
    gmul 0x57 0x83 = 0xc1 ∧ gmul 0x57 0x13 = 0xfe ∧ xtime 0xae = 0x47 ∧
      circulant 0x02 0x03 0x01 0x01 ⟨0xdb, 0x13, 0x53, 0x45⟩ = ⟨0x8e, 0x4d, 0xa1, 0xbc⟩ := by decide +kernel
/-- V28, the first block of the three-key example. -/
theorem test_tdes_three_keys :
    tdesEnc
        [0x01, 0x23, 0x45, 0x67, 0x89, 0xAB, 0xCD, 0xEF, 0x23, 0x45, 0x67, 0x89, 0xAB, 0xCD, 0xEF, 0x01,
         0x45, 0x67, 0x89, 0xAB, 0xCD, 0xEF, 0x01, 0x23]
        [0x54, 0x68, 0x65, 0x20, 0x71, 0x75, 0x66, 0x63] =
      [0xa8, 0x26, 0xfd, 0x8c, 0xe5, 0x3b, 0x85, 0x5f] := by decide +kernel
/-- V29, the two-key option. -/
theorem test_tdes_two_keys :
    tdesEnc
        [0x01, 0x23, 0x45, 0x67, 0x89, 0xAB, 0xCD, 0xEF, 0xFE, 0xDC, 0xBA, 0x98, 0x76, 0x54, 0x32, 0x10]
        [0x4E, 0x6F, 0x77, 0x20, 0x69, 0x73, 0x20, 0x74] =
      [0xd8, 0x0a, 0x0d, 0x8b, 0x2b, 0xae, 0x5e, 0x4e] := by decide +kernel
/-- V33, the first two blocks: DES-CBC. -/
theorem test_des_cbc :
    modeApply .des .cbc [0x01, 0x23, 0x45, 0x67, 0x89, 0xab, 0xcd, 0xef] .enc
        ([0x12, 0x34, 0x56, 0x78, 0x90, 0xab, 0xcd, 0xef] ++ bytesOf 8 0)
        [0x4e, 0x6f, 0x77, 0x20, 0x69, 0x73, 0x20, 0x74, 0x68, 0x65, 0x20, 0x74, 0x69, 0x6d, 0x65, 0x20] =
      .ok ([0xe5, 0xc7, 0xcd, 0xde, 0x87, 0x2b, 0xf2, 0x7c, 0x43, 0xe9, 0x34, 0x00, 0x8c, 0x38, 0x9c, 0x0f],
        [0x43, 0xe9, 0x34, 0x00, 0x8c, 0x38, 0x9c, 0x0f] ++ bytesOf 8 0) := by decide +kernel
/-- V1 to V3, V5. -/
theorem test_pad_fn :
    padFn hello 8 .pkcs7 = .ok (hello ++ [3, 3, 3]) ∧ padFn [0x61, 0x62] 4 .x923 = .ok [0x61, 0x62, 0x00, 0x02] ∧
      padFn [0x61, 0x62] 4 .iso7816 = .ok [0x61, 0x62, 0x80, 0x00] ∧
      padFn [0x61, 0x62, 0x63, 0x64] 4 .pkcs7 = .ok [0x61, 0x62, 0x63, 0x64, 4, 4, 4, 4] := by decide +kernel
/-- V9, the rows with an error in the padding. -/
theorem test_unpad_fn_errors :
    unpadFn (hello ++ [3, 3, 0]) 8 .pkcs7 = .error .padRange ∧
      unpadFn (hello ++ [3, 3, 9]) 8 .pkcs7 = .error .padRange ∧
      unpadFn (hello ++ [3, 2, 3]) 8 .pkcs7 = .error .padPattern ∧
      unpadFn [0x61, 0x62, 0x01, 0x02] 4 .x923 = .error .padPattern ∧
      unpadFn [0x80, 0, 0, 0, 0x61, 0x62, 0x63, 0x64] 4 .iso7816 = .error .noMarker ∧
      unpadFn [0x61, 0x80, 0x01, 0x00] 4 .iso7816 = .error .markerTrail := by decide +kernel
/-- V9 and V10, the rows with a result. -/
theorem test_unpad_fn_results :
    unpadFn (hello ++ [3, 3, 3]) 8 .pkcs7 = .ok 5 ∧ unpadFn [0x61, 0x62, 0x00, 0x02] 4 .x923 = .ok 2 ∧
      unpadFn [0x61, 0x62, 0x63, 0x64, 0x80, 0, 0, 0] 4 .iso7816 = .ok 4 ∧
      unpadFn (hello ++ [3, 3, 1]) 8 .pkcs7 = .ok 7 ∧ unpadFn [0x80, 0, 0, 0] 4 .iso7816 = .ok 0 := by decide +kernel

/-! ## One step of each command (V40, V43; the examples of R301 to R307) -/

/-- V43: IV of a DES context, CTX and CHAIN after INIT. -/
theorem test_init_des_cbc :
    nextWith (exec (.init .des .cbc true 8 8) (staged desKey (counting 16) []))
      (fun t => ctxWord t.ctx = 0x00200841 ∧ t.chain.toList = counting 8 ++ bytesOf 8 0 ∧ t.ckey = desKey ∧
        t.status = 0x00010000) := nextWith_of (by decide +kernel)
/-- V43: an ECB context ignores the IV, whatever its length field. -/
theorem test_init_ecb_ignores_iv :
    nextWith (exec (.init .aes .ecb true 16 8) (staged aesKey [] []))
      (fun t => ctxWord t.ctx = 0x00401021 ∧ t.chain = zeroChain ∧ t.status = 0x00010000) := nextWith_of (by decide +kernel)
/-- The example of R302. -/
theorem test_encrypt :
    nextWith (exec .encrypt (withCtx .des .ecb desKey [] desText))
      (fun t => Memory.read t.dbuf 0 8 = some desCipher ∧ t.dlen = 8 ∧ t.status = 0x00020000) :=
  nextWith_of (by decide +kernel)
/-- V43: ENCRYPT without a context. -/
theorem test_encrypt_without_context :
    nextWith (exec .encrypt (staged [] [] desText)) (fun t => t.status = 0x00020706) := nextWith_of (by decide +kernel)
/-- The example of R303. -/
theorem test_decrypt :
    nextWith (exec .decrypt (withCtx .des .ecb desKey [] desCipher))
      (fun t => Memory.read t.dbuf 0 8 = some desText ∧ t.status = 0x00030000) := nextWith_of (by decide +kernel)
/-- R284: in CBC the chaining state becomes the old ciphertext in DBUF. -/
theorem test_decrypt_chains_on_its_input :
    nextWith (exec .decrypt (withCtx .des .cbc desKey (bytesOf 8 0) desCipher))
      (fun t => Memory.read t.dbuf 0 8 = some desText ∧ t.chain.toList = desCipher ++ bytesOf 8 0) :=
  nextWith_of (by decide +kernel)
/-- V1 as a command. -/
theorem test_pad :
    nextWith (exec (.pad 8 .pkcs7) (staged [] [] hello))
      (fun t => Memory.read t.dbuf 0 8 = some (hello ++ [3, 3, 3]) ∧ t.dlen = 8 ∧ t.status = 0x00040000) :=
  nextWith_of (by decide +kernel)
/-- V43: the data and its padding must fit in BUF_SIZE. -/
theorem test_pad_bounds :
    nextWith (exec (.pad 16 .pkcs7) { State.reset with dlen := 4096 })
      (fun t => t.dlen = 4096 ∧ t.status = 0x00040806) := nextWith_of (by decide +kernel)
/-- V4 as a command. -/
theorem test_unpad :
    nextWith (exec (.unpad 8 .pkcs7) (staged [] [] (hello ++ [3, 3, 3])))
      (fun t => Memory.read t.dbuf 0 8 = some (hello ++ [3, 3, 3]) ∧ t.dlen = 5 ∧ t.status = 0x00050000) :=
  nextWith_of (by decide +kernel)
/-- R356: the one written byte of the final block, 0x00, settles PAD_RANGE, and DLEN stays. -/
theorem test_unpad_partly_written :
    nextWith (exec (.unpad 8 .pkcs7) { State.reset with dlen := 8, dbuf := [(7, 0x00)] })
      (fun t => t.dlen = 8 ∧ t.status = 0x0005110A) := nextWith_of (by decide +kernel)
/-- V40. -/
theorem test_decrypt_unpad :
    nextWith (exec (.decryptUnpad true 16 16 16) (staged aesKey (counting 16) v40Cipher))
      (fun t => Memory.read t.dbuf 0 16 = some v40Plain ∧ t.dlen = 5 ∧ ctxWord t.ctx = 0 ∧ t.chain = zeroChain ∧
        t.status = 0x00060000) := nextWith_of (by decide +kernel)
/-- V43: 16 zero bytes are no padded plaintext, and none of it is released. -/
theorem test_decrypt_unpad_range :
    nextWith (exec (.decryptUnpad false 16 16 0) (staged aesKey [] (bytesOf 16 0)))
      (fun t => Memory.read t.dbuf 0 16 = some (bytesOf 16 0) ∧ t.dlen = 16 ∧ t.status = 0x0006110A) :=
  nextWith_of (by decide +kernel)
/-- The example of R307, on a CBC context. -/
theorem test_release :
    nextWith (exec .release (withCtx .aes .cbc aesKey (counting 16) []))
      (fun t => ctxWord t.ctx = 0 ∧ t.ckey = [] ∧ t.chain = zeroChain ∧ t.status = 0x00070000) :=
  nextWith_of (by decide +kernel)

/-! ## The bus (20_memory.md) and the model faults (V45) -/

/-- V45: `RD 0x1000` after reset. -/
theorem test_unwritten_read :
    step (hostDoes State.reset [.read .word 0x1000]) = .fault .unwrittenRead := rfl
/-- V45: ENCRYPT consumes bytes that were never written. -/
theorem test_unwritten_use :
    step (hostDoes { withCtx .des .ecb desKey [] [] with dlen := 8 } [.write .word 0x0000 2]) =
      .fault .unwrittenUse := rfl
/-- V45: `RD 0x0002`. -/
theorem test_misaligned : step (hostDoes State.reset [.read .word 0x0002]) = .fault .busMisaligned := rfl
/-- The little-endian lanes (R84) and V2: the word of 61 62 00 02 reads 0x02006261. -/
theorem test_lanes :
    nextWith (step (hostDoes (staged [] [] [0x61, 0x62, 0x00, 0x02]) [.read .word 0x1000]))
      (fun t => t.reads = [0x02006261]) := nextWith_of (by decide +kernel)
/-- R41: the first offset past DBUF reads 0, and its last word is DBUF's. -/
theorem test_dbuf_end :
    busRead State.reset (0x1000 + 4096) = some 0 ∧ busRead State.reset (0x1000 + 4092) = none := by decide +kernel
/-- V43: the word 0 sets CMDR and reports BAD_OPC. -/
theorem test_zero_word :
    nextWith (step (hostDoes State.reset [.write .word 0x0000 0]))
      (fun t => t.cmdr = 0 ∧ t.status = 0x0000210E ∧ t.pending = []) := nextWith_of (by decide +kernel)

/-! ## Witnesses: concrete states and operands that meet the hypotheses of each obligation -/

/-- Well-formed commands at the largest lengths. -/
theorem witness_DecodeOfEncodeIsTheCommand :
    (Instr.init .aes .cbc true 63 31).wf = true ∧ Instr.encrypt.wf = true ∧ Instr.decrypt.wf = true ∧
      (Instr.pad 255 .unrecognized).wf = true ∧ (Instr.unpad 255 .iso7816).wf = true ∧
      (Instr.decryptUnpad true 255 63 31).wf = true ∧ Instr.release.wf = true := by decide +kernel

theorem witness_AssembledWordIsTheSumOfItsFields :
    (lineInstr (.init .aes .cbc 63 (some 31))).wf = true ∧ (lineInstr (.init .des .ecb 0 none)).wf = true ∧
      (lineInstr .encrypt).wf = true ∧ (lineInstr .decrypt).wf = true ∧
      (lineInstr (.pad 255 .unrecognized)).wf = true ∧ (lineInstr (.unpad 0 .x923)).wf = true ∧
      (lineInstr (.decryptUnpad 63 (some 31) 255)).wf = true ∧ (lineInstr .release).wf = true := by decide +kernel

/-- The largest INIT word DECODE accepts, and the largest DECRYPT_UNPAD word. -/
theorem witness_EncodeOfDecodeIsTheWord :
    decode 0x1FFC00E1 = .cmd (.init .aes .cbc true 63 31) ∧
      decode 0x1FFCFF86 = .cmd (.decryptUnpad true 255 63 31) := by decide +kernel

/-- Each clause: the OPC values 0 and 8 beside the first and last command's; RSV alone; BAD_ALG; the word 0. -/
theorem witness_IllegalWordsChangeStatusOnly :
    (hostDoes State.reset [.write .word 0x0000 0x00000008]).pending = [.write .word 0x0000 0x00000008] ∧
      ¬ namesCommand (Word.opc 0x00000000) ∧ ¬ namesCommand (Word.opc 0x00000008) ∧
      (namesCommand (Word.opc 0x20000007) ∧ ¬ mustBeZero 0x20000007) ∧
      (namesCommand (Word.opc 0x00000101) ∧ ¬ mustBeZero 0x00000101) ∧
      (Word.opc 0x00400031 = 0x1 ∧ mustBeZero 0x00400031 ∧ Word.alg 0x00400031 = 3) := by
  refine ⟨rfl, by decide, by decide, ⟨by decide, ?_⟩, ⟨by decide, ?_⟩, by decide, ?_, by decide⟩ <;>
    (unfold mustBeZero; decide)

theorem witness_StepRunsTheDecodedCommand :
    (hostDoes State.reset [.write .word 0x0000 0x00000804]).pending = .write .word 0x0000 0x00000804 :: [] ∧
      decode 0x00000804 = .cmd (.pad 8 .pkcs7) ∧ decodeTableWord 32 0x00000804 = some (.pad 8 .pkcs7) := by decide +kernel

/-- A reset with a context, a written key and work still to do. -/
theorem witness_ResetEventGivesTheResetState :
    (hostDoes (withCtx .aes .cbc aesKey (counting 16) desText) [.reset, .read .word 0x0004]).pending =
      .reset :: [.read .word 0x0004] := rfl

/-- Both bounds of BUF_SIZE, and the offsets at both ends of every range. -/
theorem witness_ResetStateReadsBack :
    smallest.legal ∧ largest.legal ∧ Config.reference.legal ∧
      ([0x0000, 0x000C, 0x0010, 0x0014, 0x003C, 0x0040, 0x006C, 0x0070, 0x007C, 0x0080, 0x0FFC, 0x1000, 0x10FC, 0x1100,
        0xFFFC] : List (BitVec 16)).all (fun a => a.toNat % 4 = 0) := by decide +kernel

theorem witness_IdleBlockKeepsItsState : (withCtx .des .ecb desKey [] desText).pending = [] := rfl

/-- A halfword read at an aligned offset, and a word write one byte past one. -/
theorem witness_MisalignedAccessFaults :
    (AccessWidth.half ≠ .word ∧ (hostDoes State.reset [.read .half 0x0004]).pending = .read .half 0x0004 :: []) ∧
      ((0x1001 : BitVec 16).toNat % 4 ≠ 0 ∧
        (hostDoes State.reset [.write .word 0x1001 7]).pending = .write .word 0x1001 7 :: []) := by decide +kernel

/-- Every clause: the offsets at the ends of each range are aligned, the windows written there (or not), and the
smallest DBUF's last word beside the first reserved offset after it. -/
theorem witness_BusReadReturnsTheMappedWord :
    let s : State := { staged (counting 32) (counting 16) (counting 256) with cfg := smallest }
    (hostDoes s [.read .word 0x0008]).pending = .read .word 0x0008 :: [] ∧ s.ctx.valid = false ∧
      (withCtx .aes .cbc aesKey [] []).ctx.valid = true ∧
      ([0x0000, 0x0004, 0x0008, 0x000C, 0x0010, 0x0014, 0x003C, 0x0040, 0x005C, 0x0060, 0x006C, 0x0070, 0x007C,
        0x0080, 0x0FFC, 0x1000, 0x10FC, 0x1100, 0xFFFC] : List (BitVec 16)).all (fun a => a.toNat % 4 = 0) ∧
      (∀ j, j < 4 → (Memory.get s.keyIn (0x5C - 0x40 + j)).isSome ∧ (Memory.get s.ivIn (0x6C - 0x60 + j)).isSome ∧
        (Memory.get s.dbuf (0x10FC - 0x1000 + j)).isSome) ∧
      (0x10FC : BitVec 16).toNat + 4 ≤ 0x1000 + s.cfg.bufSize ∧
      0x1000 + s.cfg.bufSize < (0x1100 : BitVec 16).toNat + 4 ∧
      (staged (counting 30) [] []).keyIn.hasUnwritten (0x5C - 0x40) 4 ∧
      State.reset.ivIn.hasUnwritten 0 4 ∧ State.reset.dbuf.hasUnwritten 4092 4 := by decide +kernel

/-- Every clause: the offsets at the ends of each writable range and of each that ignores writes. -/
theorem witness_BusWriteStoresTheMappedWord :
    (hostDoes State.reset [.write .word 0x1FFC 0xDEADBEEF]).pending = .write .word 0x1FFC 0xDEADBEEF :: [] ∧
      (0x1FFC : BitVec 16).toNat + 4 ≤ 0x1000 + State.reset.cfg.bufSize ∧
      0x1000 + State.reset.cfg.bufSize < (0x2000 : BitVec 16).toNat + 4 ∧ (0x0041 : BitVec 16).toNat % 4 ≠ 0 ∧
      ([0x0000, 0x0004, 0x0008, 0x000C, 0x0010, 0x003C, 0x0040, 0x005C, 0x0060, 0x006C, 0x0070, 0x0FFC, 0x1000,
        0x1FFC, 0x2000, 0xFFFC] : List (BitVec 16)).all (fun a => a.toNat % 4 = 0) := by decide +kernel

/-- DLEN, the ends of KEY_IN and IV_IN, and DBUF's last word. -/
theorem witness_WriteThenReadReturnsTheWord :
    ([0x000C, 0x0040, 0x006C, 0x1000, 0x1FFC] : List (BitVec 16)).all fun a =>
      (hostDoes State.reset [.write .word a 0xA1B2C3D4, .read .word a]).pending =
          .write .word a 0xA1B2C3D4 :: .read .word a :: [] ∧
        a.toNat % 4 = 0 ∧
        (a = 0x000C ∨ (0x0040 ≤ a.toNat ∧ a.toNat < 0x0070) ∨
          (0x1000 ≤ a.toNat ∧ a.toNat + 4 ≤ 0x1000 + State.reset.cfg.bufSize)) := by decide +kernel

theorem witness_RepeatedWriteIsOneWrite :
    ([0x0004, 0x000C, 0x0040, 0x0080, 0x1000, 0xFFFC] : List (BitVec 16)).all fun a => a.toNat % 4 = 0 ∧ a ≠ 0x0000 := by decide +kernel

/-- The empty string, a string that ends inside a word, and one that fills the buffer. -/
theorem witness_LoadDataStagesTheString :
    smallest.legal ∧ ([] : List Byte).length ≤ smallest.bufSize ∧ hello.length ≤ smallest.bufSize ∧
      (counting 256).length ≤ smallest.bufSize := by decide +kernel

/-- A write to a window cell, no reset, with a written cell in each window. -/
theorem witness_CellsStayWritten :
    let s := hostDoes (staged desKey (counting 16) hello) [.write .word 0x1000 0]
    nextWith (step s) (fun t => t.dbuf ≠ s.dbuf) ∧ (∀ rest, s.pending ≠ .reset :: rest) ∧
      (Memory.get s.keyIn 7).isSome ∧ (Memory.get s.ivIn 15).isSome ∧ (Memory.get s.dbuf 4).isSome :=
  ⟨nextWith_of (by decide +kernel), by intro rest h; simp [hostDoes] at h, by decide +kernel, by decide +kernel, by decide +kernel⟩

theorem witness_BufSizeNeverChanges :
    nextWith (step (hostDoes { withCtx .des .ecb desKey [] [] with cfg := largest } [.reset]))
      (fun t => t.cfg = largest) := nextWith_of (by decide +kernel)

/-- The invariant holds of a state with a DES-CBC context, written windows and an error in STATUS, and a step from it
is a next state. -/
theorem witness_StepKeepsTheInvariant :
    let s : State :=
      { staged desKey (counting 16) hello with
        ctx := ⟨true, .des, .cbc, 8⟩
        ckey := desKey
        chain := chainOf (counting 8)
        status := 0x00020306
        pending := [.write .word 0x0000 0x00000804] }
    StateInv s ∧ nextWith (step s) (fun t => t.dlen = 8) := by
  intro s
  refine ⟨⟨by decide +kernel, by decide +kernel, by decide +kernel, by decide +kernel, by decide +kernel, by decide +kernel, by decide +kernel, ?_, by decide +kernel⟩,
    nextWith_of (by decide +kernel)⟩
  intro j h1 h2
  exact (show ∀ j, j < 16 → 8 ≤ j → (chainOf (counting 8)).toList.getD j 0 = 0 by decide +kernel) j h2 h1

/-- Both bounds of BUF_SIZE. -/
theorem witness_ResetMeetsTheInvariant : smallest.legal ∧ largest.legal := by decide +kernel

/-- The three faults happen: a read of a half-written word, a command on unwritten data past its checks, an UNPAD whose
written bytes settle no error, and two accesses the port does not have. -/
theorem witness_StepsStopExactlyAtModelFaults :
    step (hostDoes (staged (counting 30) [] []) [.read .word 0x005C]) = .fault .unwrittenRead ∧
      step (hostDoes (staged (counting 15) [] []) [.write .word 0x0000 0x00400021]) = .fault .unwrittenUse ∧
      step (hostDoes { State.reset with dlen := 8 } [.write .word 0x0000 0x00000805]) = .fault .unwrittenUse ∧
      step (hostDoes State.reset [.write .byte 0x0000 0x00000007]) = .fault .busMisaligned ∧
      step (hostDoes State.reset [.read .word 0x1FFE]) = .fault .busMisaligned ∧
      (firstFailing (configChecks (.init .aes .ecb false 16 0) (staged (counting 15) [] [])) = none ∧
        (staged (counting 15) [] []).keyIn.hasUnwritten 0 16) ∧
      (firstFailing (configChecks (.unpad 8 .pkcs7) { State.reset with dlen := 8 }) = none ∧
        State.reset.dbuf.hasUnwritten 0 8 ∧
        settledPaddingError (.unpad 8 .pkcs7) { State.reset with dlen := 8 } = none) :=
  ⟨rfl, rfl, rfl, rfl, rfl, by decide +kernel, by decide +kernel⟩

/-- A success, a failure of a command and a refused word. -/
theorem witness_StatusWordAfterEveryCommand :
    nextWith (execute 0x00000805 (staged [] [] (hello ++ [3, 3, 3]))) (fun t => t.status = 0x00050000) ∧
      nextWith (execute 0x00000805 (staged [] [] (hello ++ [3, 2, 3]))) (fun t => t.status = 0x0005120A) ∧
      nextWith (execute 0x00000000 State.reset) (fun t => t.status = 0x0000210E) :=
  ⟨nextWith_of (by decide +kernel), nextWith_of (by decide +kernel), nextWith_of (by decide +kernel)⟩

/-- A detail of each kind, reported by a command and by DECODE. -/
theorem witness_DetailsAreReportedByTheirCommands :
    nextWith (exec (.unpad 4 .iso7816) (staged [] [] [0x61, 0x80, 0x01, 0x00]))
        (fun t => t.status = failWord (Instr.unpad 4 .iso7816).opc .markerTrail) ∧
      nextWith (exec .decrypt State.reset) (fun t => t.status = failWord Instr.decrypt.opc .noContext) ∧
      decode 0x00000031 = .illegal .badAlg :=
  ⟨nextWith_of (by decide +kernel), nextWith_of (by decide +kernel), by decide +kernel⟩

theorem witness_FailingCommandChangesStatusOnly :
    nextWith (execute 0x00000002 { withCtx .des .cbc desKey (counting 8) hello with status := 0x00050000 })
      (fun t => statusErr t.status = 1) := nextWith_of (by decide +kernel)

/-- A first failing check with another behind it, and a command past its checks that still reports an error. -/
theorem witness_FirstFailingCheckIsReported :
    firstFailing (configChecks (.decryptUnpad true 0 8 8) { State.reset with dlen := 20 }) = some .keyLen ∧
      (firstFailing (configChecks (.unpad 8 .pkcs7) (staged [] [] (hello ++ [3, 3, 0]))) = none ∧
        nextWith (exec (.unpad 8 .pkcs7) (staged [] [] (hello ++ [3, 3, 0])))
          (fun t => t.status = failWord (Instr.unpad 8 .pkcs7).opc .padRange)) :=
  ⟨by decide +kernel, by decide +kernel, nextWith_of (by decide +kernel)⟩

/-- An INIT over an older context: not an ENCRYPT, not a DECRYPT. -/
theorem witness_KeyIsInvisible :
    let s := hostDoes { withCtx .des .ecb desKey [] [] with keyIn := cellsFrom 0 aesKey }
      [.write .word 0x0000 0x00400021]
    ∀ w rest, s.pending = .write .word 0x0000 w :: rest → decode w ≠ .cmd .encrypt ∧ decode w ≠ .cmd .decrypt := by
  intro s w rest h
  obtain rfl : w = 0x00400021 := by simp [s, hostDoes] at h; exact h.1.symm
  decide +kernel

/-- A RELEASE that changes the context, and a CBC ENCRYPT that changes CHAIN. -/
theorem witness_ContextChangesOnlyByItsCommands :
    (let s := hostDoes (withCtx .des .cbc desKey (counting 8) desText) [.write .word 0x0000 0x00000007];
      nextWith (step s) (fun t => t.ctx ≠ s.ctx ∧ t.ckey ≠ s.ckey ∧ t.chain ≠ s.chain)) ∧
    (let s := hostDoes (withCtx .des .cbc desKey (counting 8) desText) [.write .word 0x0000 0x00000002];
      nextWith (step s) (fun t => t.chain ≠ s.chain) ∧ ∀ rest, s.pending ≠ .reset :: rest) :=
  ⟨nextWith_of (by decide +kernel), nextWith_of (by decide +kernel), by intro rest h; simp [hostDoes] at h⟩

theorem witness_CtxWordHasItsFields :
    Ctx.empty.valid = false ∧ (Ctx.mk true .aes .cbc 32).valid = true := by decide +kernel

/-- Every key length of every algorithm; in CBC with an IV of one block. -/
theorem witness_InitCompletes :
    (∀ n ∈ [8, 16, 24, 32], (counting n).length = n ∧ (staged (counting n) [] []).keyIn.holds 0 (counting n)) ∧
      (∀ alg ∈ [Alg.des, .tdes, .aes],
        (counting (blockSize alg)).length = blockSize alg ∧
          (staged [] (counting 16) []).ivIn.holds 0 (counting (blockSize alg))) := by decide +kernel

theorem witness_DefaultIvIsZero :
    (∀ alg ∈ [Alg.des, .tdes, .aes],
        (staged aesKey (bytesOf 16 0) []).ivIn.holds 0 (List.replicate (blockSize alg) 0x00)) ∧
      (staged aesKey (bytesOf 16 0) v40Cipher).ivIn.holds 0 (List.replicate 16 0x00) := by decide +kernel

/-- One DES block, no data at all, and the whole of the smallest buffer. -/
theorem witness_EncryptAndDecryptComplete :
    ∀ data ∈ [desText, [], counting 256],
      let s : State := { withCtx .des .cbc desKey (counting 8) data with cfg := smallest }
      s.ctx.valid = true ∧ s.dlen.toNat % blockSize s.ctx.alg = 0 ∧ s.dlen.toNat ≤ s.cfg.bufSize ∧
        data.length = s.dlen.toNat ∧ s.dbuf.holds 0 data := by decide +kernel

/-- No block, and at least two blocks of each size. -/
theorem witness_EcbTransformsEachBlockAlone :
    ∀ alg ∈ [Alg.des, .tdes, .aes], ([] : List Byte).length % blockSize alg = 0 ∧
      (counting 32).length % blockSize alg = 0 ∧ 1 < (counting 32).length / blockSize alg := by decide +kernel

theorem witness_CbcEncryptChains :
    (counting 16).length = 16 ∧ ∀ alg ∈ [Alg.des, .tdes, .aes], (counting 32).length % blockSize alg = 0 := by decide +kernel

theorem witness_CbcDecryptChains :
    (counting 16).length = 16 ∧ ∀ alg ∈ [Alg.des, .tdes, .aes], (counting 48).length % blockSize alg = 0 := by decide +kernel

theorem witness_StreamingIsOneCall :
    (counting 16).length = 16 ∧ (counting 16).length % blockSize .des = 0 ∧
      (counting 24).length % blockSize .des = 0 ∧ (counting 48).length % blockSize .aes = 0 := by decide +kernel

theorem witness_DecryptionInvertsEncryption :
    (counting 24).length ∈ keySet .tdes ∧ (counting 24).length ∈ keySet .aes ∧ desKey.length ∈ keySet .des ∧
      (counting 16).length = 16 ∧ (counting 32).length % blockSize .aes = 0 := by decide +kernel

theorem witness_DesDecryptInvertsEncrypt : desKey.length = 8 ∧ desText.length = 8 := by decide +kernel

/-- V22: two keys that differ in every parity bit. -/
theorem witness_DesParityBitsAreIgnored :
    (bytesOf 8 0x01).length = 8 ∧ (bytesOf 8 0x00).length = 8 ∧
      ∀ j, j < 8 → (bytesOf 8 0x01).getD j 0 >>> 1 = (bytesOf 8 0x00).getD j 0 >>> 1 := by decide +kernel

theorem witness_TdesSplitsItsKey :
    desKey.length = 8 ∧ desText.length = 8 ∧ desCipher.length = 8 ∧ (counting 8).length = 8 := by decide +kernel

theorem witness_TdesInvertsAndDegenerates :
    (counting 16).length = 16 ∧ (counting 24).length = 24 ∧ desKey.length = 8 ∧ desText.length = 8 := by decide +kernel

theorem witness_AesDecryptInvertsEncrypt :
    (counting 16).length = 16 ∧ (counting 24).length = 24 ∧ (counting 32).length = 32 ∧ aesText.length = 16 := by
  decide +kernel

theorem witness_AesKeyExpansionRecurrence :
    (counting 16).length = 4 * 4 ∧ (counting 24).length = 4 * 6 ∧ (counting 32).length = 4 * 8 := by decide +kernel

/-- A byte with an inverse, and the first and last round constants the recurrence reaches. -/
theorem witness_AesTablesAreTheirDefinitions :
    ((0x01 : Byte) ≠ 0 ∧ gmul 0x01 0x01 = 0x01) ∧ (1 ≤ 1 ∧ 1 < 10) ∧ (1 ≤ 9 ∧ 9 < 10) := by decide +kernel

/-- Both ends of the block sizes, and the values beside them. -/
theorem witness_PadFnAppendsThePadding :
    ((1 ≤ 1 ∧ 1 ≤ 255) ∧ (1 ≤ 255 ∧ 255 ≤ 255)) ∧ (0 < 1 ∨ 255 < 0) ∧ (256 < 1 ∨ 255 < 256) ∧
      padFn [] 255 .pkcs7 = .ok (bytesOf 255 255) := by decide +kernel

theorem witness_UnpadInvertsPad :
    ∀ bs ∈ [1, 255], ∀ style ∈ [Style.pkcs7, .x923, .iso7816], 1 ≤ bs ∧ bs ≤ 255 ∧ style ≠ .unrecognized := by decide +kernel

theorem witness_UnpadAcceptsExactlyThePadded :
    (1 ≤ 8 ∧ 8 ≤ 255 ∧ Style.pkcs7 ≠ .unrecognized) ∧ unpadFn (hello ++ [3, 3, 3]) 8 .pkcs7 = .ok 5 := by decide +kernel

/-- Each clause of R144 to R147: no data, a length no multiple, a length byte 0 and one above `bs`, a wrong and a
right pattern at `p = 1` and at `p = bs`. -/
theorem witness_UnpadCountedPaddings :
    (0 < 1 ∨ 255 < 0) ∧ (([] : List Byte).length = 0 ∨ ([] : List Byte).length % 4 ≠ 0) ∧
      (hello.length = 0 ∨ hello.length % 4 ≠ 0) ∧
      (∀ d ∈ [[0x61, 0x62, 0x00, 0x00], [0x61, 0x62, 0x00, 0x05], [0x61, 0x62, 0x03, 0x01], [0x61, 0x62, 0x01, 0x02],
        [0x04, 0x04, 0x04, 0x04], [0x00, 0x00, 0x00, 0x04], ([0x61, 0x04, 0x04, 0x04] : List Byte)],
        d.length ≠ 0 ∧ d.length % 4 = 0) ∧
      ([0x61, 0x62, 0x00, 0x00].getD 3 (0 : Byte)).toNat < 1 ∧ 4 < ([0x61, 0x62, 0x00, 0x05].getD 3 (0 : Byte)).toNat ∧
      (∃ j, j < 4 ∧ 4 - 2 ≤ j ∧ ([0x61, 0x62, 0x01, 0x02].getD j (0 : Byte)).toNat ≠ 2) ∧
      (∃ j, j < 4 - 1 ∧ 4 - 2 ≤ j ∧ [0x61, 0x62, 0x01, 0x02].getD j (0 : Byte) ≠ 0x00) ∧
      (∀ j, j < 4 → 4 - 4 ≤ j → ([0x04, 0x04, 0x04, 0x04].getD j (0 : Byte)).toNat = 4) ∧
      (∀ j, j < 4 - 1 → 4 - 4 ≤ j → [0x00, 0x00, 0x00, 0x04].getD j (0 : Byte) = 0x00) ∧
      (∀ j, j < 4 → 4 - 1 ≤ j → ([0x61, 0x62, 0x03, 0x01].getD j (0 : Byte)).toNat = 1) := by decide +kernel

/-- Each clause of R148 and R149 on one final block of 4: no marker, a trailer, a marker at the end and one at the
start of the block. -/
theorem witness_UnpadMarkedPaddings :
    (∀ i, i < 4 → 4 - 4 ≤ i → [0x61, 0x62, 0x00, 0x00].getD i (0 : Byte) ≠ 0x80) ∧
      ([0x61, 0x80, 0x01, 0x00].getD 1 (0 : Byte) = 0x80 ∧
        (∀ i, i < 4 → 1 < i → [0x61, 0x80, 0x01, 0x00].getD i (0 : Byte) ≠ 0x80) ∧
        ∃ i, i < 4 ∧ 1 < i ∧ [0x61, 0x80, 0x01, 0x00].getD i (0 : Byte) ≠ 0x00) ∧
      ([0x61, 0x62, 0x63, 0x80].getD 3 (0 : Byte) = 0x80 ∧
        ∀ i, i < 4 → 3 < i → [0x61, 0x62, 0x63, 0x80].getD i (0 : Byte) = 0x00) ∧
      ([0x80, 0x00, 0x00, 0x00].getD 0 (0 : Byte) = 0x80 ∧
        (∀ i, i < 4 → 0 < i → [0x80, 0x00, 0x00, 0x00].getD i (0 : Byte) ≠ 0x80) ∧
        ∀ i, i < 4 → 0 < i → [0x80, 0x00, 0x00, 0x00].getD i (0 : Byte) = 0x00) := by decide +kernel

/-- Room for exactly the padding, with the data unwritten; and "hello" written. -/
theorem witness_PadCompletes :
    (let s : State := { State.resetWith smallest with dlen := 255 };
      s.cfg.legal ∧ (1 ≤ 1 ∧ 1 ≤ 255) ∧ Style.pkcs7 ≠ .unrecognized ∧
        s.dlen.toNat + padLen s.dlen.toNat 1 ≤ s.cfg.bufSize) ∧
    (let s := staged [] [] hello;
      s.cfg.legal ∧ (1 ≤ 8 ∧ 8 ≤ 255) ∧ s.dlen.toNat + padLen s.dlen.toNat 8 ≤ s.cfg.bufSize ∧
        hello.length = s.dlen.toNat ∧ s.dbuf.holds 0 hello) := by decide +kernel

/-- A padding of 3 bytes with only the final block written, and one of a whole block; a block of which only its last
byte is written, 0x00, which settles PAD_RANGE; and one of which nothing is written, which settles no error. -/
theorem witness_UnpadCompletes :
    (let s : State := { State.reset with dlen := 16, dbuf := cellsFrom 8 (hello ++ [3, 3, 3]) };
      (1 ≤ 8 ∧ 8 ≤ 255) ∧ Style.pkcs7 ≠ .unrecognized ∧ s.dlen.toNat ≠ 0 ∧ s.dlen.toNat % 8 = 0 ∧
        s.dlen.toNat ≤ s.cfg.bufSize ∧ hello.length = 8 - 3 ∧
        s.dbuf.holds (s.dlen.toNat - 8) (hello ++ padBytes 3 .pkcs7)) ∧
    ((cellsFrom 8 (bytesOf 8 8)).holds (16 - 8) ([] ++ padBytes 8 .pkcs7) ∧ ([] : List Byte).length = 8 - 8) ∧
    (∀ f : List Byte, f.length = 8 → Memory.agrees [(7, 0x00)] (8 - 8) f → unpadFn f 8 .pkcs7 = .error .padRange) ∧
    (Memory.hasUnwritten [] (8 - 8) 8 ∧
      ∀ e, ¬ ∀ f : List Byte, f.length = 8 → Memory.agrees [] (8 - 8) f → unpadFn f 8 .pkcs7 = .error e) := by
  have settled (m : Memory) (e : Detail) :
      settledError (Memory.cells m 0 8) 8 .pkcs7 = some e ↔
        ∀ f : List Byte, f.length = 8 → m.agrees 0 f → unpadFn f 8 .pkcs7 = .error e :=
    (settledError_iff (by decide) (by decide) (by decide) (by simp) (by simp)).trans
      ⟨fun h f hl ha => h f ((m.fills_cells_iff 0 8 f).mpr ⟨hl, ha⟩),
        fun h f hf => h f ((m.fills_cells_iff 0 8 f).mp hf).1 ((m.fills_cells_iff 0 8 f).mp hf).2⟩
  exact ⟨by decide +kernel, by decide +kernel, (settled _ _).mp (by decide +kernel),
    by decide +kernel, fun e h => nomatch
      (show settledError (Memory.cells [] 0 8) 8 .pkcs7 = none from rfl).symm.trans ((settled _ e).mpr h)⟩

/-- V40, for a plaintext that is accepted, and V43's 16 zero bytes for one that is rejected; with the first of three
blocks UNWRITTEN, a last block whose length byte is out of range; with the IV UNWRITTEN, V40's ciphertext chained on a
block that breaks its pattern. -/
theorem witness_DecryptUnpadCompletes :
    (let s := staged aesKey (counting 16) v40Cipher;
      s.dlen.toNat % 16 = 0 ∧ s.dlen.toNat ≤ s.cfg.bufSize ∧ (1 ≤ 16 ∧ 16 ≤ 255) ∧ s.dlen.toNat ≠ 0 ∧
        aesKey.length = 16 ∧ s.keyIn.holds 0 aesKey ∧ (counting 16).length = 16 ∧ s.ivIn.holds 0 (counting 16) ∧
        v40Cipher.length = s.dlen.toNat ∧ s.dbuf.holds 0 v40Cipher ∧
        modeApply .aes .cbc aesKey .dec (counting 16) v40Cipher = .ok (v40Plain, v40Cipher) ∧
        unpadFn v40Plain 16 .pkcs7 = .ok 5) ∧
    (let s := staged aesKey [] (bytesOf 16 0);
      (false = true → s.ivIn.holds 0 (bytesOf 16 0)) ∧ bytesOf 16 0 = List.replicate 16 0x00 ∧
        s.keyIn.holds 0 aesKey ∧ s.dbuf.holds 0 (bytesOf 16 0) ∧
        (bytesOf 16 0).length = s.dlen.toNat) ∧
    (let s : State := { staged aesKey [] [] with dlen := 48, dbuf := cellsFrom 16 (bytesOf 32 0) };
      s.dlen.toNat % 16 = 0 ∧ s.dlen.toNat ≤ s.cfg.bufSize ∧ s.dlen.toNat ≠ 0 ∧ s.keyIn.holds 0 aesKey ∧
        s.dbuf.holds (s.dlen.toNat - 16) (bytesOf 16 0) ∧ s.dbuf.holds (s.dlen.toNat - 32) (bytesOf 16 0) ∧
        16 < ((xorBytes (aesDec aesKey (bytesOf 16 0)) (bytesOf 16 0)).getD 15 0).toNat) ∧
    (let s := staged aesKey [] ((counting 16).set 14 0x0f ++ v40Cipher);
      s.dlen.toNat % 16 = 0 ∧ s.dlen.toNat ≤ s.cfg.bufSize ∧ s.dlen.toNat ≠ 0 ∧ s.keyIn.holds 0 aesKey ∧
        s.dbuf.holds (s.dlen.toNat - 16) v40Cipher ∧ s.dbuf.holds (s.dlen.toNat - 32) ((counting 16).set 14 0x0f) ∧
        ((xorBytes (aesDec aesKey v40Cipher) ((counting 16).set 14 0x0f)).getD 15 0).toNat = 11 ∧ 16 ≤ 14 + 11 ∧
        ((xorBytes (aesDec aesKey v40Cipher) ((counting 16).set 14 0x0f)).getD 14 0).toNat ≠ 11) :=
  ⟨by decide +kernel, by decide +kernel, by decide +kernel, by decide +kernel⟩

/-- V40 again: a DECRYPT_UNPAD that succeeds. -/
theorem witness_DecryptUnpadIsTheComposition :
    nextWith (exec (.decryptUnpad true 16 16 16) (staged aesKey (counting 16) v40Cipher))
      (fun t => statusErr t.status = 0) := nextWith_of (by decide +kernel)

/-- An UNPAD that reports PAD_RANGE by the one written byte of its block, and a window in which the others are
written too. -/
theorem witness_UnwrittenCellsBearOnNothing :
    Memory.extendedBy [] (cellsFrom 0 desKey) ∧ Memory.extendedBy [(7, 0x00)] (cellsFrom 0 (counting 7 ++ [0x00])) ∧
      nextWith (exec (.unpad 8 .pkcs7) { State.reset with dlen := 8, dbuf := [(7, 0x00)] })
        (fun t => t.status = 0x0005110A) := by
  refine ⟨fun k b h => (by cases h), fun k b h => ?_, nextWith_of (by decide +kernel)⟩
  rw [Memory.get_cons] at h
  split at h
  · subst k
    rw [← h]
    decide +kernel
  · cases h

/-- INIT, RELEASE and UNPAD that end in a next state; each changes something. -/
theorem witness_FrameOfCommandsThatStoreNothing :
    nextWith (exec (.init .tdes .ecb false 16 0) (staged aesKey [] [])) (fun t => t.ckey = aesKey) ∧
      nextWith (exec .release (withCtx .des .cbc desKey (counting 8) [])) (fun t => t.ckey = []) ∧
      nextWith (exec (.unpad 4 .x923) (staged [] [] [0x61, 0x62, 0x00, 0x02])) (fun t => t.dlen = 2) :=
  ⟨nextWith_of (by decide +kernel), nextWith_of (by decide +kernel), nextWith_of (by decide +kernel)⟩

/-- ENCRYPT and DECRYPT on an ECB context, PAD and DECRYPT_UNPAD that end in a next state; each stores something. -/
theorem witness_FrameOfStoringCommands :
    nextWith (exec .encrypt (withCtx .des .ecb desKey [] desText)) (fun t => Memory.read t.dbuf 0 8 = some desCipher) ∧
      nextWith (exec .decrypt (withCtx .des .ecb desKey [] desCipher))
        (fun t => Memory.read t.dbuf 0 8 = some desText) ∧
      (withCtx .des .ecb desKey [] desText).ctx.mode = .ecb ∧
      nextWith (exec (.pad 4 .iso7816) (staged [] [] [0x61, 0x62])) (fun t => Memory.get t.dbuf 2 = some 0x80) ∧
      nextWith (exec (.decryptUnpad true 16 16 16) (staged aesKey (counting 16) v40Cipher))
        (fun t => Memory.get t.dbuf 0 = some 0x68) :=
  ⟨nextWith_of (by decide +kernel), nextWith_of (by decide +kernel), by decide +kernel, nextWith_of (by decide +kernel),
    nextWith_of (by decide +kernel)⟩

end Sys2Proof.Tests
end

section
/-! SUPPORT. What one step of the machine can do, said once as the inductive relation `StepsTo`: an access that
stores a word, a command that commits or reports an error, RESET, or nothing but the host's own fields. -/

namespace Sys2Proof.Machine

/-! ## The step as the event it takes -/

/-- A step over an aligned word write is that bus write. -/
theorem step_write {s : State} {rest : List HostEvent} {a : BitVec 16} {v : Word}
    (hp : s.pending = .write .word a v :: rest) (ha : a.toNat % 4 = 0) :
    step s = busWrite { s with pending := rest } a.toNat v := by
  simp [step, hostStep, hp, hostEvent, accessOk, ha]

/-- A step over a write to CMD is EXECUTE of the word (20_memory.md R86, R88). -/
theorem step_command {s : State} {rest : List HostEvent} {w : Word} (hp : s.pending = .write .word 0x0000 w :: rest) :
    step s = execute w (issued s w rest) :=
  step_write hp rfl

theorem execute_cmd {w : Word} {i : Instr} (h : decode w = .cmd i) (s : State) : execute w s = exec i s := by
  simp [execute, h]

/-- The word `decodeTableWord` reads is one that DECODE accepts. -/
theorem decode_of_decodeTableWord {nbits w : Nat} {i : Instr} (h : decodeTableWord nbits w = some i) :
    decode (tableWord nbits w) = .cmd i := by
  unfold decodeTableWord at h
  split at h
  · split at h
    · rename_i hi
      rw [hi, Option.some.inj h]
    · cases h
  · cases h

/-! ## What a step can do -/

/-- The next states of a step, one constructor for each thing a step can do. -/
inductive StepsTo (s : State) : State → Prop where
  /-- The host issues nothing (60_exceptions.md R355). -/
  | idles (hp : s.pending = []) : StepsTo s s
  /-- A bus read (20_memory.md R87). -/
  | reads {rest : List HostEvent} {a : BitVec 16} {v : Word} (hp : s.pending = .read .word a :: rest)
      (h4 : a.toNat % 4 = 0) (hv : busRead s a.toNat = some v) :
      StepsTo s { s with pending := rest, reads := s.reads ++ [v] }
  /-- A bus write that has no effect (R88). -/
  | ignores {rest : List HostEvent} {a : BitVec 16} {v : Word} (hp : s.pending = .write .word a v :: rest)
      (h4 : a.toNat % 4 = 0) : StepsTo s { s with pending := rest }
  | storesDlen {rest : List HostEvent} {v : Word} (hp : s.pending = .write .word 0x000C v :: rest) :
      StepsTo s { s with pending := rest, dlen := v }
  | storesKey {rest : List HostEvent} {a : BitVec 16} {v : Word} (hp : s.pending = .write .word a v :: rest)
      (h4 : a.toNat % 4 = 0) (hlo : 0x0040 ≤ a.toNat) (hhi : a.toNat < 0x0060) :
      StepsTo s { s with pending := rest, keyIn := store s.keyIn (a.toNat - 0x0040) v }
  | storesIv {rest : List HostEvent} {a : BitVec 16} {v : Word} (hp : s.pending = .write .word a v :: rest)
      (h4 : a.toNat % 4 = 0) (hlo : 0x0060 ≤ a.toNat) (hhi : a.toNat < 0x0070) :
      StepsTo s { s with pending := rest, ivIn := store s.ivIn (a.toNat - 0x0060) v }
  | storesData {rest : List HostEvent} {a : BitVec 16} {v : Word} (hp : s.pending = .write .word a v :: rest)
      (h4 : a.toNat % 4 = 0) (hlo : 0x1000 ≤ a.toNat) (hhi : a.toNat + 4 ≤ 0x1000 + s.cfg.bufSize) :
      StepsTo s { s with pending := rest, dbuf := store s.dbuf (a.toNat - 0x1000) v }
  /-- A word that DECODE refuses (45_commands.md R308). -/
  | refuses {rest : List HostEvent} {w : Word} {d : Detail} (hp : s.pending = .write .word 0x0000 w :: rest)
      (hd : decode w = .illegal d) : StepsTo s (reportError (Word.opc w) d (issued s w rest))
  /-- A command that fails (60_exceptions.md R343). -/
  | raises {rest : List HostEvent} {w : Word} {i : Instr} {d : Detail} (hp : s.pending = .write .word 0x0000 w :: rest)
      (hd : decode w = .cmd i) (hr : ruleOf i (issued s w rest) = .raised d) :
      StepsTo s (reportError i.opc d (issued s w rest))
  /-- A command that succeeds (45_commands.md R300). -/
  | commits {rest : List HostEvent} {w : Word} {i : Instr} {t : State} (hp : s.pending = .write .word 0x0000 w :: rest)
      (hd : decode w = .cmd i) (hr : ruleOf i (issued s w rest) = .commit t) : StepsTo s (reportSuccess i.opc t)
  /-- RESET (70_reset_and_hazards.md R370). -/
  | resets {rest : List HostEvent} (hp : s.pending = .reset :: rest) :
      StepsTo s (resetBlock { s with pending := rest })

/-- EXECUTE of the word a step writes to CMD. -/
theorem stepsTo_of_execute {s t : State} {w : Word} {rest : List HostEvent}
    (hp : s.pending = .write .word 0x0000 w :: rest) (h : execute w (issued s w rest) = .next t) : StepsTo s t := by
  rcases execute_next h with ⟨d, hd, rfl⟩ | ⟨i, hd, hi⟩
  · exact .refuses hp hd
  · rcases exec_next hi with ⟨t', hr, rfl⟩ | ⟨d, hr, rfl⟩
    · exact .commits hp hd hr
    · exact .raises hp hd hr

/-- **What a step can do**: every next state of a step is one of `StepsTo`. -/
theorem stepsTo_of_step {s t : State} (h : step s = .next t) : StepsTo s t := by
  rcases step_next h with ⟨hp, rfl⟩ | ⟨rest, ⟨a, v, hp, h4, hv, rfl⟩ | ⟨a, v, hp, h4, hw⟩ | ⟨hp, rfl⟩⟩
  · exact .idles hp
  · exact .reads hp h4 hv
  · rcases busWrite_next hw with ⟨h0, he⟩ | ⟨hc, rfl⟩ | ⟨hlo, hhi, rfl⟩ | ⟨hlo, hhi, rfl⟩ | ⟨hlo, hhi, rfl⟩ | rfl
    · obtain rfl : a = 0x0000 := BitVec.eq_of_toNat_eq h0
      exact stepsTo_of_execute hp he
    · obtain rfl : a = 0x000C := BitVec.eq_of_toNat_eq hc
      exact .storesDlen hp
    · exact .storesKey hp h4 hlo hhi
    · exact .storesIv hp h4 hlo hhi
    · exact .storesData hp h4 hlo hhi
    · exact .ignores hp h4
  · exact .resets hp

end Sys2Proof.Machine
end

section
/-! SUPPORT. Every command as a plan made from the state at entry, and the effect the plan has when it is carried out:
`ruleOf_eq_plan` says that the rule of every command is exactly that. A plan does not mention the state it is applied
to, so what a command depends on is read off from which states give the same plan. -/

namespace Sys2Proof.Machine

/-- What a command that succeeds does to the state (45_commands.md R301 to R307). -/
inductive Effect where
  | newContext (alg : Alg) (mode : Mode) (keylen : Nat) (key iv : List Byte)
  | endContext
  | cipherOutput (out chain16 : List Byte)
  | padding (bytes : List Byte)
  | dataLength (n : Nat)
  | plaintext (pt : List Byte) (n : Nat)

/-- The state after an effect. -/
def Effect.apply : Effect → State → State
  | .newContext alg mode keylen key iv, s => withContext s alg mode keylen key iv
  | .endContext, s => withoutContext s
  | .cipherOutput out chain16, s => withCipherOutput s out chain16
  | .padding bytes, s => withPadding s bytes
  | .dataLength n, s => withDataLen s n
  | .plaintext pt n, s => withPlaintext s pt n

/-- How a command will end. -/
inductive Plan where
  | does (e : Effect)
  | raises (d : Detail)
  | stops (f : Fault)

/-- A plan carried out at a state. -/
def Plan.resultAt : Plan → State → CmdResult
  | .does e, s => .commit (e.apply s)
  | .raises d, _ => .raised d
  | .stops f, _ => .stop f

/-! ## The plan of each command, once its configuration checks have passed -/

/-- R301. -/
def initPlan (alg : Alg) (mode : Mode) (ivp : Bool) (keylen : Nat) (s : State) : Plan :=
  match keyRead s keylen, ivOrZero s (initReadsIv mode ivp) (blockSize alg) with
  | some key, some iv => .does (.newContext alg mode keylen key iv)
  | _, _ => .stops .unwrittenUse

/-- R302, R303. -/
def cipherPlan (dir : Dir) (s : State) : Plan :=
  match memRead s 0 (dataLen s) with
  | none => .stops .unwrittenUse
  | some data =>
    match modeApply s.ctx.alg s.ctx.mode s.ckey dir s.chain.toList data with
    | .error d => .raises d
    | .ok r => .does (.cipherOutput r.1 r.2)

/-- A padding check over bytes of which some have no value (60_exceptions.md R356; log entry 4). -/
def partlyWrittenPlan (f : List (Option Byte)) (bs : Nat) (style : Style) : Plan :=
  match settledError f bs style with
  | some d => .raises d
  | none => .stops .unwrittenUse

/-- R305. -/
def unpadPlan (bs : Nat) (style : Style) (s : State) : Plan :=
  match memRead s (dataLen s - bs) bs with
  | none => partlyWrittenPlan (Memory.cells s.dbuf (dataLen s - bs) bs) bs style
  | some f =>
    match unpadFn f bs style with
    | .error d => .raises d
    | .ok n => .does (.dataLength (n + (dataLen s - bs)))

/-- The last lines of R306. -/
def plaintextPlan (bs : Nat) (key iv data : List Byte) : Plan :=
  match modeApply .aes .cbc key .dec iv data with
  | .error d => .raises d
  | .ok r =>
    match unpadFn r.1 bs .pkcs7 with
    | .error d => .raises d
    | .ok n => .does (.plaintext r.1 n)

/-- R306. -/
def decryptUnpadPlan (ivp : Bool) (bs keylen : Nat) (s : State) : Plan :=
  match keyRead s keylen, ivOrZero s ivp 16, memRead s 0 (dataLen s) with
  | some key, some iv, some data => plaintextPlan bs key iv data
  | _, _, _ => partlyWrittenPlan (plaintextCells ivp keylen s) bs .pkcs7

/-- The plan of a command that has passed its configuration checks. -/
def dataPlan (i : Instr) (s : State) : Plan :=
  match i with
  | .init alg mode ivp keylen _ => initPlan alg mode ivp keylen s
  | .encrypt => cipherPlan .enc s
  | .decrypt => cipherPlan .dec s
  | .pad bs style => .does (.padding (padBytes (padLen (dataLen s) bs) style))
  | .unpad bs style => unpadPlan bs style s
  | .decryptUnpad ivp bs keylen _ => decryptUnpadPlan ivp bs keylen s
  | .release => .does .endContext

/-- A plan behind configuration checks: the first that fails is the error raised (60_exceptions.md R346). -/
def afterChecks (cs : List (Bool × Detail)) (p : Plan) : Plan :=
  match firstFailing cs with
  | some d => .raises d
  | none => p

/-- The plan of a command. -/
def planOf (i : Instr) (s : State) : Plan := afterChecks (configChecks i s) (dataPlan i s)

/-! ## Each rule carries out its plan -/

theorem resultAt_afterChecks_cons (c : Bool) (d : Detail) (cs : List (Bool × Detail)) (p : Plan) (s : State) :
    (afterChecks ((c, d) :: cs) p).resultAt s = if c then .raised d else (afterChecks cs p).resultAt s := by
  cases c <;> simp [afterChecks, firstFailing, Plan.resultAt]

theorem resultAt_afterChecks_nil (p : Plan) (s : State) : (afterChecks [] p).resultAt s = p.resultAt s := rfl

theorem resultAt_partlyWrittenPlan (f : List (Option Byte)) (bs : Nat) (style : Style) (s : State) :
    (partlyWrittenPlan f bs style).resultAt s = checkPartlyWritten f bs style := by
  unfold checkPartlyWritten partlyWrittenPlan
  cases settledError f bs style <;> rfl

theorem resultAt_plaintextPlan (bs : Nat) (key iv data : List Byte) (s : State) :
    (plaintextPlan bs key iv data).resultAt s = decryptUnpadData bs key iv data s := by
  unfold decryptUnpadData plaintextPlan
  cases modeApply .aes .cbc key .dec iv data with
  | error d => rfl
  | ok r => dsimp only; cases unpadFn r.1 bs .pkcs7 <;> rfl

theorem resultAt_initPlan (alg : Alg) (mode : Mode) (ivp : Bool) (keylen ivlen : Nat) (s : State) :
    (planOf (.init alg mode ivp keylen ivlen) s).resultAt s = initRule alg mode ivp keylen ivlen s := by
  simp only [planOf, configChecks, resultAt_afterChecks_cons, resultAt_afterChecks_nil, decide_eq_true_eq, initRule]
  refine if_congr .rfl rfl (if_congr (by simp [initReadsIv, and_assoc]) rfl ?_)
  simp only [dataPlan, initPlan]
  cases keyRead s keylen <;> cases ivOrZero s (initReadsIv mode ivp) (blockSize alg) <;> rfl

theorem resultAt_cipherPlan {i : Instr} {dir : Dir} (h : i = .encrypt ∧ dir = .enc ∨ i = .decrypt ∧ dir = .dec)
    (s : State) : (planOf i s).resultAt s = cipherRule dir s := by
  have hplan : planOf i s = afterChecks (configChecks .encrypt s) (cipherPlan dir s) := by
    rcases h with ⟨rfl, rfl⟩ | ⟨rfl, rfl⟩ <;> rfl
  simp only [hplan, configChecks, resultAt_afterChecks_cons, resultAt_afterChecks_nil, decide_eq_true_eq, cipherRule]
  refine if_congr .rfl rfl (if_congr .rfl rfl (if_congr .rfl rfl ?_))
  unfold cipherPlan
  cases memRead s 0 (dataLen s) with
  | none => rfl
  | some data => dsimp only; cases modeApply s.ctx.alg s.ctx.mode s.ckey dir s.chain.toList data <;> rfl

theorem resultAt_padPlan (bs : Nat) (style : Style) (s : State) :
    (planOf (.pad bs style) s).resultAt s = padRule bs style s := by
  simp only [planOf, configChecks, resultAt_afterChecks_cons, resultAt_afterChecks_nil, decide_eq_true_eq, padRule]
  exact if_congr (by omega) rfl (if_congr .rfl rfl (if_congr .rfl rfl (if_congr .rfl rfl rfl)))

theorem resultAt_unpadPlan (bs : Nat) (style : Style) (s : State) :
    (planOf (.unpad bs style) s).resultAt s = unpadRule bs style s := by
  simp only [planOf, configChecks, resultAt_afterChecks_cons, resultAt_afterChecks_nil, decide_eq_true_eq, unpadRule]
  refine if_congr (by omega) rfl (if_congr .rfl rfl (if_congr .rfl rfl (if_congr .rfl rfl ?_)))
  simp only [dataPlan, unpadPlan]
  cases memRead s (dataLen s - bs) bs with
  | none => exact resultAt_partlyWrittenPlan _ _ _ s
  | some f => dsimp only; cases unpadFn f bs style <;> rfl

theorem resultAt_decryptUnpadPlan (ivp : Bool) (bs keylen ivlen : Nat) (s : State) :
    (planOf (.decryptUnpad ivp bs keylen ivlen) s).resultAt s = decryptUnpadRule ivp bs keylen ivlen s := by
  simp only [planOf, configChecks, resultAt_afterChecks_cons, resultAt_afterChecks_nil, decide_eq_true_eq,
    decryptUnpadRule]
  refine if_congr .rfl rfl (if_congr (by simp) rfl (if_congr .rfl rfl (if_congr .rfl rfl
    (if_congr (by omega) rfl (if_congr .rfl rfl ?_)))))
  simp only [dataPlan, decryptUnpadPlan]
  cases keyRead s keylen with
  | none => exact resultAt_partlyWrittenPlan _ _ _ s
  | some key =>
    cases ivOrZero s ivp 16 with
    | none => exact resultAt_partlyWrittenPlan _ _ _ s
    | some iv =>
      cases memRead s 0 (dataLen s) with
      | none => exact resultAt_partlyWrittenPlan _ _ _ s
      | some data => exact resultAt_plaintextPlan _ _ _ _ s

/-- **The rule of every command is its plan, carried out.** -/
theorem ruleOf_eq_plan (i : Instr) (s : State) : ruleOf i s = (planOf i s).resultAt s := by
  cases i with
  | init alg mode ivp keylen ivlen => exact (resultAt_initPlan alg mode ivp keylen ivlen s).symm
  | encrypt => exact (resultAt_cipherPlan (.inl ⟨rfl, rfl⟩) s).symm
  | decrypt => exact (resultAt_cipherPlan (.inr ⟨rfl, rfl⟩) s).symm
  | pad bs style => exact (resultAt_padPlan bs style s).symm
  | unpad bs style => exact (resultAt_unpadPlan bs style s).symm
  | decryptUnpad ivp bs keylen ivlen => exact (resultAt_decryptUnpadPlan ivp bs keylen ivlen s).symm
  | release => rfl

/-- Every command is its plan inside the frame. -/
theorem exec_eq_plan (i : Instr) (s : State) : exec i s = finish i.opc s ((planOf i s).resultAt s) := by
  rw [exec_eq_finish, ruleOf_eq_plan]

theorem exec_of_does {i : Instr} {s : State} {e : Effect} (h : planOf i s = .does e) :
    exec i s = .next (reportSuccess i.opc (e.apply s)) := by
  rw [exec_eq_plan, h]
  rfl

theorem exec_of_raises {i : Instr} {s : State} {d : Detail} (h : planOf i s = .raises d) :
    exec i s = .next (reportError i.opc d s) := by
  rw [exec_eq_plan, h]
  rfl

theorem exec_of_stops {i : Instr} {s : State} {f : Fault} (h : planOf i s = .stops f) : exec i s = .fault f := by
  rw [exec_eq_plan, h]
  rfl

/-- A command that commits has had an effect. -/
theorem ruleOf_commit {i : Instr} {s t : State} (h : ruleOf i s = .commit t) :
    ∃ e : Effect, planOf i s = .does e ∧ t = e.apply s := by
  rw [ruleOf_eq_plan] at h
  cases hp : planOf i s with
  | does e =>
    rw [hp] at h
    exact ⟨e, rfl, (CmdResult.commit.inj h).symm⟩
  | raises d => rw [hp] at h; cases h
  | stops f => rw [hp] at h; cases h

/-- Two states with the same plan have outcomes that differ only as their effects and error reports do. -/
theorem exec_mapNext {i : Instr} {s s' : State} {f : State → State} (hplan : planOf i s' = planOf i s)
    (hok : ∀ e : Effect, reportSuccess i.opc (e.apply s') = f (reportSuccess i.opc (e.apply s)))
    (herr : ∀ d, reportError i.opc d s' = f (reportError i.opc d s)) :
    exec i s' = mapNext f (exec i s) := by
  simp only [exec_eq_plan, hplan]
  cases planOf i s with
  | does e => exact congrArg _ (hok e)
  | raises d => exact congrArg _ (herr d)
  | stops g => rfl

/-! ## What an effect leaves unchanged -/

@[simp] theorem Effect.apply_cfg (e : Effect) (s : State) : (e.apply s).cfg = s.cfg := by
  cases e <;> simp [Effect.apply]

@[simp] theorem Effect.apply_keyIn (e : Effect) (s : State) : (e.apply s).keyIn = s.keyIn := by
  cases e <;> simp [Effect.apply]

@[simp] theorem Effect.apply_ivIn (e : Effect) (s : State) : (e.apply s).ivIn = s.ivIn := by
  cases e <;> simp [Effect.apply]

/-- An effect stores at most one run of bytes to DBUF. -/
theorem Effect.apply_dbuf (e : Effect) (s : State) :
    (e.apply s).dbuf = s.dbuf ∨ ∃ a b, (e.apply s).dbuf = Memory.write s.dbuf a b := by
  cases e with
  | newContext => exact .inl (by simp [Effect.apply])
  | endContext => exact .inl (by simp [Effect.apply])
  | cipherOutput out ch => exact .inr ⟨0, out, by simp [Effect.apply]⟩
  | padding bytes => exact .inr ⟨dataLen s, bytes, by simp [Effect.apply]⟩
  | dataLength n => exact .inl (by simp [Effect.apply])
  | plaintext pt n => exact .inr ⟨0, pt, by simp [Effect.apply]⟩

theorem Effect.apply_dbuf_isSome (e : Effect) {s : State} {k : Nat} (h : (Memory.get s.dbuf k).isSome) :
    (Memory.get (e.apply s).dbuf k).isSome := by
  rcases e.apply_dbuf s with he | ⟨a, b, he⟩
  · rwa [he]
  · rw [he]
    exact Memory.get_write_isSome _ a b h

end Sys2Proof.Machine
end

section
/-! SUPPORT. The hidden state and the context: which states and commands CKEY bears on, which commands change the
context, and that each operation keeps the invariant of `Safety.lean`. -/

namespace Sys2Proof.Machine

/-! ## CTX (10_state.md R37, R38) -/

/-- The word CTX reads as, as a packing of the fields of a command word: they share the layout of ALG, MODE, BS and
KEYLEN (10_state.md R37, 30_encoding.md R110). -/
theorem ctxWord_eq_packWord {c : Ctx} (h : c.valid = true) :
    ctxWord c = packWord 0 0 c.keylen 0 (BitVec.ofNat 8 (blockSize c.alg)) 0 c.mode.code c.alg.code 1 := by
  obtain ⟨valid, alg, mode, keylen⟩ := c
  simp only at h
  simp only [ctxWord, h, if_true]
  revert keylen
  cases alg <;> cases mode <;> decide

/-- A field of a field is a field. -/
theorem extractLsb'_of_extractLsb' {n : Nat} (w : BitVec n) {a b k m : Nat} (h : k + m ≤ b) :
    w.extractLsb' (a + k) m = (w.extractLsb' a b).extractLsb' k m := by
  ext i hi
  simp only [BitVec.getElem_extractLsb', BitVec.getLsbD_extractLsb', show k + i < b by omega, decide_true,
    Bool.true_and, Nat.add_assoc]

/-! ## CKEY (10_state.md R47) -/

/-- The state with another CKEY. -/
def withKey (s : State) (k : List Byte) : State := { s with ckey := k }

@[simp] theorem withKey_pending (s : State) (k : List Byte) : (withKey s k).pending = s.pending := rfl

@[simp] theorem withKey_cfg (s : State) (k : List Byte) : (withKey s k).cfg = s.cfg := rfl

/-- No read shows CKEY. -/
theorem busRead_withKey (s : State) (k : List Byte) (a : Nat) : busRead (withKey s k) a = busRead s a := rfl

theorem sameButKey_withKey (s : State) (k : List Byte) :
    outcomeSameButKey (.next s) (.next (withKey s k)) := (rfl : withKey s k = { s with ckey := k })

theorem exec_sameButKey {i : Instr} (hi : i ≠ .encrypt ∧ i ≠ .decrypt) (s : State) (k : List Byte) :
    outcomeSameButKey (exec i s) (exec i (withKey s k)) := by
  have hplan : planOf i (withKey s k) = planOf i s := by
    cases i with
    | encrypt => exact absurd rfl hi.1
    | decrypt => exact absurd rfl hi.2
    | _ => rfl
  rw [exec_eq_plan, exec_eq_plan, hplan]
  cases planOf i s with
  | does e =>
    have : sameButKey (e.apply s) (e.apply (withKey s k)) := by cases e <;> rfl
    show sameButKey (reportSuccess _ (e.apply s)) (reportSuccess _ (e.apply (withKey s k)))
    rw [this]
    rfl
  | raises d => exact sameButKey_withKey (reportError i.opc d s) k
  | stops f => exact rfl

theorem execute_sameButKey {w : Word} (hw : decode w ≠ .cmd .encrypt ∧ decode w ≠ .cmd .decrypt) (s : State)
    (k : List Byte) : outcomeSameButKey (execute w s) (execute w (withKey s k)) := by
  unfold execute
  split
  · exact sameButKey_withKey (reportError _ _ s) k
  · rename_i i hd
    exact exec_sameButKey (by simpa [hd] using hw) s k

theorem target_eq_cmd {c : Config} {a : Nat} : target c a = .cmd → a = 0x0000 := by
  unfold target
  split_ifs <;> simp [*]

theorem busWrite_sameButKey {a : Nat} {v : Word}
    (hv : a = 0x0000 → decode v ≠ .cmd .encrypt ∧ decode v ≠ .cmd .decrypt) (s : State) (k : List Byte) :
    outcomeSameButKey (busWrite s a v) (busWrite (withKey s k) a v) := by
  unfold busWrite
  rw [withKey_cfg]
  cases ht : target s.cfg a with
  | cmd => exact execute_sameButKey (hv (target_eq_cmd ht)) { s with cmdr := v } k
  | _ => exact sameButKey_withKey _ k

theorem hostEvent_sameButKey {e : HostEvent}
    (he : ∀ w, e = .write .word 0x0000 w → decode w ≠ .cmd .encrypt ∧ decode w ≠ .cmd .decrypt) (s : State)
    (k : List Byte) : outcomeSameButKey (hostEvent e s) (hostEvent e (withKey s k)) := by
  unfold hostEvent
  cases e with
  | read width a =>
    dsimp only
    rw [busRead_withKey]
    split
    · cases busRead s a.toNat with
      | none => exact rfl
      | some v => exact sameButKey_withKey (hostReceives s v) k
    · exact rfl
  | write width a v =>
    dsimp only
    split
    · rename_i hok
      obtain ⟨rfl, -⟩ := (accessOk_iff width a).mp hok
      refine busWrite_sameButKey (fun ha => ?_) s k
      obtain rfl : a = 0x0000 := BitVec.eq_of_toNat_eq ha
      exact he v rfl
    · exact rfl
  | reset => exact rfl

/-! ## What ENCRYPT and DECRYPT commit -/

/-- What ENCRYPT and DECRYPT commit: as many bytes as they were given, and a CHAIN of which only the first block may
differ, and in ECB none (45_commands.md R302, 44_modes.md R288). -/
theorem cipherRule_output {dir : Dir} {s t : State} (h : cipherRule dir s = .commit t) :
    s.ctx.valid = true ∧ dataLen s ≤ s.cfg.bufSize ∧ ∃ out ch, out.length = dataLen s ∧
      (∀ j, blockSize s.ctx.alg ≤ j → ch.getD j 0 = s.chain.toList.getD j 0) ∧
      (s.ctx.mode = .ecb → ch = s.chain.toList) ∧ t = withCipherOutput s out ch := by
  obtain ⟨hv, -, hb, data, r, hdata, hr, rfl⟩ := cipherRule_commit h
  obtain ⟨-, hout, -, hdrop, hecb⟩ := modeApply_ok (by simp) hr
  refine ⟨hv, hb, r.1, r.2, hout.trans (Memory.read_length hdata), fun j hj => ?_, hecb, rfl⟩
  obtain ⟨i, rfl⟩ := Nat.exists_eq_add_of_le hj
  have := congrArg (fun l => l.getD i 0) hdrop
  simpa [List.getD_eq_getElem?_getD] using this

/-! ## The context changes only by its commands (10_state.md R44, R48) -/

theorem cipherRule_commit_context {dir : Dir} {s t : State} (h : cipherRule dir s = .commit t) :
    t.ctx = s.ctx ∧ t.ckey = s.ckey ∧ (t.chain ≠ s.chain → s.ctx.mode = .cbc) := by
  obtain ⟨-, -, out, ch, -, -, hecb, rfl⟩ := cipherRule_output h
  refine ⟨by simp, by simp, fun hne => ?_⟩
  cases hm : s.ctx.mode with
  | cbc => rfl
  | ecb => exact absurd (by simp [hecb hm, chainOf_toList]) hne

/-- A command that commits is INIT, RELEASE, or leaves CTX and CKEY alone, and CHAIN too unless it is a CBC ENCRYPT or
DECRYPT. -/
theorem ruleOf_commit_context {i : Instr} {s t : State} (h : ruleOf i s = .commit t) :
    (∃ alg mode ivp keylen ivlen, i = .init alg mode ivp keylen ivlen) ∨ i = .release ∨
      (t.ctx = s.ctx ∧ t.ckey = s.ckey ∧
        (t.chain ≠ s.chain → (i = .encrypt ∨ i = .decrypt) ∧ s.ctx.mode = .cbc)) := by
  cases i with
  | init alg mode ivp keylen ivlen => exact .inl ⟨alg, mode, ivp, keylen, ivlen, rfl⟩
  | release => exact .inr (.inl rfl)
  | encrypt =>
    obtain ⟨hctx, hkey, hch⟩ := cipherRule_commit_context h
    exact .inr (.inr ⟨hctx, hkey, fun hne => ⟨.inl rfl, hch hne⟩⟩)
  | decrypt =>
    obtain ⟨hctx, hkey, hch⟩ := cipherRule_commit_context h
    exact .inr (.inr ⟨hctx, hkey, fun hne => ⟨.inr rfl, hch hne⟩⟩)
  | pad bs style =>
    obtain ⟨-, -, -, -, rfl⟩ := padRule_commit h
    exact .inr (.inr ⟨by simp, by simp, fun hne => absurd (by simp) hne⟩)
  | unpad bs style =>
    obtain ⟨-, -, -, -, -, -, f, n, -, -, rfl⟩ := unpadRule_commit h
    exact .inr (.inr ⟨by simp, by simp, fun hne => absurd (by simp) hne⟩)
  | decryptUnpad ivp bs keylen ivlen =>
    obtain ⟨-, -, -, key, iv, data, r, n, -, -, -, -, -, rfl⟩ := decryptUnpadRule_commit h
    exact .inr (.inr ⟨by simp, by simp, fun hne => absurd (by simp) hne⟩)

/-! ## The invariant -/

/-- STATUS in the form of 10_state.md R34 and R35. -/
def statusWellFormed (w : Word) : Prop :=
  statusBusy w = 0 ∧ statusReserved w = 0 ∧ (statusErr w = 0 → statusErrKind w = 0 ∧ statusErrDetail w = 0)

theorem statusWellFormed_successWord (opc : BitVec 4) : statusWellFormed (successWord opc) := by
  unfold statusWellFormed
  revert opc
  decide

theorem statusWellFormed_failWord (opc : BitVec 4) (d : Detail) : statusWellFormed (failWord opc d) := by
  unfold statusWellFormed
  revert opc
  cases d <;> decide

theorem statusWellFormed_zero : statusWellFormed 0 := by
  unfold statusWellFormed
  decide

theorem StateInv.withStatus {s : State} (hs : StateInv s) {w : Word} (hw : statusWellFormed w) :
    StateInv { s with status := w } := { hs with statusForm := hw }

theorem StateInv.reportSuccess {s : State} (hs : StateInv s) (opc : BitVec 4) : StateInv (reportSuccess opc s) :=
  hs.withStatus (statusWellFormed_successWord opc)

theorem StateInv.reportError {s : State} (hs : StateInv s) (opc : BitVec 4) (d : Detail) :
    StateInv (reportError opc d s) :=
  hs.withStatus (statusWellFormed_failWord opc d)

theorem StateInv.issued {s : State} (hs : StateInv s) (w : Word) (rest : List HostEvent) :
    StateInv (issued s w rest) := { hs with }

/-- A byte string stored inside DBUF. -/
theorem StateInv.memWrite {s : State} (hs : StateInv s) {a : Nat} {b : List Byte} (h : a + b.length ≤ s.cfg.bufSize) :
    StateInv (memWrite s a b) :=
  { hs with dbufWf := ⟨Memory.write_wf hs.dbufWf.1 a b, Memory.write_below hs.dbufWf.2 h⟩ }

theorem StateInv.withDataLen {s : State} (hs : StateInv s) (n : Nat) : StateInv (withDataLen s n) := { hs with }

theorem keySet_lt {alg : Alg} {n : Nat} (h : n ∈ keySet alg) : n < 64 := by
  cases alg <;> simp [keySet] at h <;> omega

theorem chainOf_zeros (n : Nat) : chainOf (bytesOf n 0) = zeroChain := by
  simp [chainOf, zeroChain, bytesOf]

theorem zeroChain_getD {j : Nat} (h : j < 16) : zeroChain.toList.getD j 0 = 0 := by
  rw [← chainOf_nil, chainOf_getD [] h]
  rfl

theorem StateInv.withoutContext {s : State} (hs : StateInv s) : StateInv (withoutContext s) :=
  { hs with
    noContext := fun _ => ⟨rfl, rfl, rfl⟩
    context := fun h => by cases h
    ecbChain := fun _ => rfl
    chainTail := fun _ _ hj => zeroChain_getD hj }

theorem StateInv.withContext {s : State} (hs : StateInv s) {alg : Alg} {mode : Mode} {keylen : Nat} {key iv : List Byte}
    (hk : keylen ∈ keySet alg) (hkey : key.length = keylen) (hiv : iv.length = blockSize alg)
    (hecb : mode = .ecb → chainOf iv = zeroChain) : StateInv (withContext s alg mode keylen key iv) :=
  have hlen : (BitVec.ofNat 6 keylen).toNat = keylen := by simpa using Nat.mod_eq_of_lt (keySet_lt hk)
  { hs with
    noContext := fun h => by cases h
    context := fun _ => ⟨hlen.symm ▸ hk, hkey.trans hlen.symm⟩
    ecbChain := hecb
    chainTail := fun j hj h16 => by
      rw [withContext_chain, chainOf_getD iv h16, List.getD_eq_default _ _ (hiv.trans_le hj)] }

theorem initRule_keeps_inv {alg : Alg} {mode : Mode} {ivp : Bool} {keylen ivlen : Nat} {s t : State} (hs : StateInv s)
    (h : initRule alg mode ivp keylen ivlen s = .commit t) : StateInv t := by
  obtain ⟨hk, key, iv, hkey, hiv, rfl⟩ := initRule_commit h
  obtain ⟨hlen, -, hzero⟩ := ivOrZero_eq_some hiv
  refine hs.withContext hk (Memory.read_length hkey) hlen fun hm => ?_
  rw [hzero (by simp [initReadsIv, hm]), chainOf_zeros]

theorem cipherRule_keeps_inv {dir : Dir} {s t : State} (hs : StateInv s) (h : cipherRule dir s = .commit t) :
    StateInv t := by
  obtain ⟨hv, hb, out, ch, hout, htail, hecb, rfl⟩ := cipherRule_output h
  exact
    { hs.memWrite (a := 0) (b := out) (by omega) with
      noContext := fun h => absurd (hv.symm.trans h) (by decide)
      ecbChain := fun hm => by
        rw [withCipherOutput_chain, hecb hm, chainOf_toList]
        exact hs.ecbChain hm
      chainTail := fun j hj h16 => by
        rw [withCipherOutput_chain, chainOf_getD ch h16, htail j hj]
        exact hs.chainTail j hj h16 }

theorem padRule_keeps_inv {bs : Nat} {style : Style} {s t : State} (hs : StateInv s) (h : padRule bs style s = .commit t) :
    StateInv t := by
  obtain ⟨h1, -, hst, hb, rfl⟩ := padRule_commit h
  refine StateInv.withDataLen (s := Machine.memWrite s _ _) (hs.memWrite ?_) _
  rwa [padBytes_length (padLen_bounds _ h1).1 hst]

theorem decryptUnpadRule_keeps_inv {ivp : Bool} {bs keylen ivlen : Nat} {s t : State} (hs : StateInv s)
    (h : decryptUnpadRule ivp bs keylen ivlen s = .commit t) : StateInv t := by
  obtain ⟨-, -, hb, key, iv, data, r, n, -, hiv, hdata, hr, -, rfl⟩ := decryptUnpadRule_commit h
  obtain ⟨-, hout, -⟩ := modeApply_ok (ivOrZero_eq_some hiv).1 hr
  refine StateInv.withDataLen (s := Machine.memWrite s _ _) (hs.memWrite ?_) n
  rw [hout, Memory.read_length hdata]
  omega

theorem ruleOf_keeps_inv {i : Instr} {s t : State} (hs : StateInv s) (h : ruleOf i s = .commit t) : StateInv t := by
  cases i with
  | init alg mode ivp keylen ivlen => exact initRule_keeps_inv hs h
  | encrypt => exact cipherRule_keeps_inv hs h
  | decrypt => exact cipherRule_keeps_inv hs h
  | pad bs style => exact padRule_keeps_inv hs h
  | unpad bs style =>
    obtain ⟨-, -, -, -, -, -, f, n, -, -, rfl⟩ := unpadRule_commit h
    exact hs.withDataLen _
  | decryptUnpad ivp bs keylen ivlen => exact decryptUnpadRule_keeps_inv hs h
  | release =>
    cases h
    exact hs.withoutContext

theorem resetBlock_keeps_inv {s : State} (hs : StateInv s) : StateInv (resetBlock s) where
  cfgLegal := hs.cfgLegal
  keyInWf := ⟨.nil, by simp⟩
  ivInWf := ⟨.nil, by simp⟩
  dbufWf := ⟨.nil, by simp⟩
  noContext := fun _ => ⟨rfl, rfl, rfl⟩
  context := fun h => by cases h
  ecbChain := fun _ => rfl
  chainTail := fun _ _ hj => zeroChain_getD hj
  statusForm := statusWellFormed_zero

theorem store_wf_below {m : Memory} {n o : Nat} (h : m.wf ∧ m.below n) (ho : o + 4 ≤ n) (v : Word) :
    (store m o v).wf ∧ (store m o v).below n :=
  ⟨Memory.write_wf h.1 _ _, Memory.write_below h.2 ho⟩

end Sys2Proof.Machine
end

section
/-! SUPPORT. Cells that gain values: a command that answers over partly UNWRITTEN windows has the same plan once any of
the UNWRITTEN cells are written (10_state.md R50, 60_exceptions.md R356; log entry 4). -/

namespace Sys2Proof.Machine

/-! ## Cells that gain values -/

/-- The cell `d` holds what `c` holds, if `c` is written. -/
def keepsCell (c d : Option Byte) : Prop := ∀ b, c = some b → d = some b

theorem keepsCell_refl (c : Option Byte) : keepsCell c c := fun _ h => h

theorem Memory.cells_keep {m m' : Memory} (h : m.extendedBy m') (a n : Nat) :
    List.Forall₂ keepsCell (Memory.cells m a n) (Memory.cells m' a n) := by
  induction n generalizing a with
  | zero => exact .nil
  | succ n ih => exact .cons (h a) (ih (a + 1))

theorem Memory.read_extended {m m' : Memory} (h : m.extendedBy m') {a n : Nat} {b : List Byte}
    (hr : Memory.read m a n = some b) : Memory.read m' a n = some b := by
  rw [Memory.read_eq_some_iff] at hr ⊢
  exact ⟨hr.1, fun j hj => h _ _ (hr.2 j hj)⟩

/-- A write keeps the extension: inside the run both hold the run, outside nothing changed. -/
theorem Memory.write_extendedBy {m m' : Memory} (h : m.extendedBy m') (a : Nat) (s : List Byte) :
    (Memory.write m a s).extendedBy (Memory.write m' a s) := by
  intro k b hb
  by_cases hk : a ≤ k ∧ k < a + s.length
  · obtain ⟨j, rfl⟩ := Nat.exists_eq_add_of_le hk.1
    rw [Memory.get_write_inside _ a s (by omega)] at hb ⊢
    exact hb
  · rw [Memory.get_write_outside _ a s (by omega)] at hb ⊢
    exact h k b hb

/-- Cells that are all written are a byte string. -/
theorem cellBytes_eq_some {c : List (Option Byte)} {b : List Byte} : cellBytes c = some b ↔ c = b.map some := by
  induction c generalizing b with
  | nil => cases b <;> simp [cellBytes]
  | cons x c ih =>
    cases x with
    | none => cases b <;> simp [cellBytes]
    | some x => cases b <;> simp [cellBytes, ih, and_comm]

/-- Cells that are all written keep their bytes. -/
theorem eq_of_keepsCell {b : List Byte} {c : List (Option Byte)} (h : List.Forall₂ keepsCell (b.map some) c) :
    c = b.map some := by
  induction b generalizing c with
  | nil => cases h; rfl
  | cons x b ih =>
    cases h with
    | cons hx h => rw [hx x rfl, ih h]; rfl

theorem cellBytes_keep {c d : List (Option Byte)} (h : List.Forall₂ keepsCell c d) {b : List Byte}
    (hb : cellBytes c = some b) : cellBytes d = some b := by
  rw [cellBytes_eq_some] at hb ⊢
  subst hb
  exact eq_of_keepsCell h

/-- A byte string that fills the cells fills them before they gained values. -/
theorem fills_of_keep {c d : List (Option Byte)} (h : List.Forall₂ keepsCell c d) {f : List Byte} (hf : fills d f) :
    fills c f := by
  rw [fills_iff_forall2] at hf ⊢
  induction h generalizing f with
  | nil => exact hf
  | cons hx _ ih =>
    cases hf with
    | cons hy hf => exact .cons (fun b hb => hy b (hx b hb)) (ih hf)

theorem fills_map_some (f : List Byte) : fills (f.map some) f := by
  rw [fills_iff_forall2]
  induction f with
  | nil => exact .nil
  | cons b f ih => exact .cons (fun x hx => Option.some.inj hx) ih

/-! ## The plaintext of cells that gain values -/

theorem xorCells_length (a b : List (Option Byte)) : (xorCells a b).length = min a.length b.length := by
  simp [xorCells]

theorem xorCells_some (a b : List Byte) : xorCells (a.map some) (b.map some) = (xorBytes a b).map some := by
  induction a generalizing b with
  | nil => rfl
  | cons x a ih =>
    cases b with
    | nil => rfl
    | cons y b => exact congrArg _ (ih b)

theorem xorCells_keep {a a' b b' : List (Option Byte)} (ha : List.Forall₂ keepsCell a a')
    (hb : List.Forall₂ keepsCell b b') : List.Forall₂ keepsCell (xorCells a b) (xorCells a' b') := by
  induction ha generalizing b b' with
  | nil => exact .nil
  | @cons x x' _ _ hx _ ih =>
    cases hb with
    | nil => exact .nil
    | @cons y y' _ _ hy hb =>
      refine .cons ?_ (ih hb)
      cases x with
      | none => intro _ h; cases h
      | some u =>
        cases y with
        | none => intro _ h; cases h
        | some v =>
          rw [hx u rfl, hy v rfl]
          exact keepsCell_refl _

theorem aesDecCells_some (k b : List Byte) : aesDecCells (some k) (b.map some) = (aesDec k b).map some := by
  simp only [aesDecCells, cellBytes_eq_some.mpr rfl]

theorem aesDecCells_length (k : Option (List Byte)) (x : List (Option Byte)) : (aesDecCells k x).length = 16 := by
  unfold aesDecCells
  split <;> simp

theorem unwritten_cells_keep {n : Nat} {c : List (Option Byte)} (h : c.length = n) :
    List.Forall₂ keepsCell (List.replicate n none) c := by
  subst h
  induction c with
  | nil => exact .nil
  | cons x c ih => exact .cons (fun b hb => by cases hb) ih

theorem cells_keep_refl (c : List (Option Byte)) : List.Forall₂ keepsCell c c :=
  List.forall₂_same.mpr fun x _ => keepsCell_refl x

theorem aesDecCells_keep {k k' : Option (List Byte)} (hk : ∀ key, k = some key → k' = some key)
    {x x' : List (Option Byte)} (hx : List.Forall₂ keepsCell x x') :
    List.Forall₂ keepsCell (aesDecCells k x) (aesDecCells k' x') := by
  cases k with
  | none => exact unwritten_cells_keep (aesDecCells_length k' x')
  | some key =>
    cases hb : cellBytes x with
    | none =>
      have hnone : aesDecCells (some key) x = List.replicate 16 none := by simp only [aesDecCells, hb]
      rw [hnone]
      exact unwritten_cells_keep (aesDecCells_length k' x')
    | some b =>
      rw [hk key rfl, cellBytes_eq_some.mp hb, cellBytes_eq_some.mp (cellBytes_keep hx hb)]
      exact cells_keep_refl _

theorem cbcDecCells_keep {k k' : Option (List Byte)} (hk : ∀ key, k = some key → k' = some key) (n : Nat)
    {st st' data data' : List (Option Byte)} (hst : List.Forall₂ keepsCell st st')
    (hd : List.Forall₂ keepsCell data data') :
    List.Forall₂ keepsCell (cbcDecCells k n st data) (cbcDecCells k' n st' data') := by
  induction n generalizing st st' data data' with
  | zero => exact .nil
  | succ n ih =>
    have hx := List.forall₂_take 16 hd
    exact List.rel_append (xorCells_keep (aesDecCells_keep hk hx) hst) (ih hx (List.forall₂_drop 16 hd))

theorem cbcDecCells_length (k : Option (List Byte)) (n : Nat) {st data : List (Option Byte)} (hst : st.length = 16)
    (hd : data.length = n * 16) : (cbcDecCells k n st data).length = n * 16 := by
  induction n generalizing st data with
  | zero => rfl
  | succ n ih =>
    have hx : (data.take 16).length = 16 := by rw [List.length_take]; omega
    have hr : (data.drop 16).length = n * 16 := by rw [List.length_drop]; omega
    rw [cbcDecCells, List.length_append, xorCells_length, aesDecCells_length, hst, ih hx hr]
    omega

/-- Where everything is written the cells are those of MODE_APPLY's plaintext. -/
theorem cbcDecCells_some (k : List Byte) (n : Nat) (st data : List Byte) :
    cbcDecCells (some k) n (st.map some) (data.map some) = (modeLoop .aes .cbc k .dec n st data).1.map some := by
  induction n generalizing st data with
  | zero => rfl
  | succ n ih =>
    rw [cbcDecCells, ← List.map_take, ← List.map_drop, aesDecCells_some, xorCells_some, ih, ← List.map_append]
    rfl

/-- The chaining state `plaintextCells` starts from. -/
def ivCells (ivp : Bool) (s : State) : List (Option Byte) :=
  if ivp then Memory.cells s.ivIn 0 16 else List.replicate 16 (some 0)

theorem plaintextCells_eq (ivp : Bool) (keylen : Nat) (s : State) :
    plaintextCells ivp keylen s =
      cbcDecCells (keyRead s keylen) (dataLen s / 16) (ivCells ivp s) (Memory.cells s.dbuf 0 (dataLen s)) := rfl

theorem ivCells_length (ivp : Bool) (s : State) : (ivCells ivp s).length = 16 := by
  unfold ivCells
  split <;> simp

theorem ivCells_some {ivp : Bool} {s : State} {iv : List Byte} (h : ivOrZero s ivp 16 = some iv) :
    ivCells ivp s = iv.map some := by
  cases ivp with
  | false => cases h; rfl
  | true => exact cellBytes_eq_some.mp ((cellBytes_cells _ _ _).trans h)

theorem plaintextCells_length {ivp : Bool} {keylen : Nat} {s : State} (h : dataLen s % 16 = 0) :
    (plaintextCells ivp keylen s).length = dataLen s := by
  rw [plaintextCells_eq, cbcDecCells_length _ _ (ivCells_length ivp s) (by rw [Memory.cells_length]; omega)]
  omega

/-- Where every operand is written, the plaintext cells are MODE_APPLY's output. -/
theorem plaintextCells_some {ivp : Bool} {keylen : Nat} {s : State} {key iv data : List Byte}
    {r : List Byte × List Byte} (hkey : keyRead s keylen = some key) (hiv : ivOrZero s ivp 16 = some iv)
    (hdata : memRead s 0 (dataLen s) = some data) (hr : modeApply .aes .cbc key .dec iv data = .ok r) :
    plaintextCells ivp keylen s = r.1.map some := by
  have hlen : data.length = dataLen s := Memory.read_length hdata
  rw [plaintextCells_eq, hkey, ivCells_some hiv, cellBytes_eq_some.mp ((cellBytes_cells _ _ _).trans hdata),
    cbcDecCells_some]
  have hiv16 := (ivOrZero_eq_some hiv).1
  simp only [modeApply] at hr
  split at hr
  · cases hr
  · cases hr
    simp only [blockSize, hlen, List.take_of_length_le hiv16.le]

/-! ## Plans over windows that gain values -/

/-- The state with other windows. -/
def withWindows (s : State) (k v d : Memory) : State := { s with keyIn := k, ivIn := v, dbuf := d }

@[simp] theorem withWindows_dbuf (s : State) (k v d : Memory) : (withWindows s k v d).dbuf = d := rfl

@[simp] theorem dataLen_withWindows (s : State) (k v d : Memory) : dataLen (withWindows s k v d) = dataLen s := rfl

@[simp] theorem keyRead_withWindows (s : State) (k v d : Memory) (n : Nat) :
    keyRead (withWindows s k v d) n = Memory.read k 0 n := rfl

@[simp] theorem memRead_withWindows (s : State) (k v d : Memory) (a n : Nat) :
    memRead (withWindows s k v d) a n = Memory.read d a n := rfl

theorem reportSuccess_withWindows (opc : BitVec 4) (s : State) (k v d : Memory) :
    reportSuccess opc (withWindows s k v d) = withWindows (reportSuccess opc s) k v d := rfl

theorem reportError_withWindows (opc : BitVec 4) (e : Detail) (s : State) (k v d : Memory) :
    reportError opc e (withWindows s k v d) = withWindows (reportError opc e s) k v d := rfl

/-- A settled error stays settled as cells gain values, and once all are written it is the error UNPAD_FN raises. -/
theorem settledError_keep {c c' : List (Option Byte)} {bs : Nat} {style : Style} {e : Detail} (h1 : 1 ≤ bs)
    (h255 : bs ≤ 255) (hst : style ≠ .unrecognized) (h0 : c.length ≠ 0) (hm : c.length % bs = 0)
    (hkeep : List.Forall₂ keepsCell c c') (h : settledError c bs style = some e) :
    settledError c' bs style = some e ∧ ∀ f, c' = f.map some → unpadFn f bs style = .error e := by
  have hall : ∀ f, fills c' f → unpadFn f bs style = .error e := fun f hf =>
    (settledError_iff h1 h255 hst h0 hm).mp h f (fills_of_keep hkeep hf)
  have hl := hkeep.length_eq
  exact ⟨(settledError_iff h1 h255 hst (hl ▸ h0) (hl ▸ hm)).mpr hall, fun f hf => hall f (hf ▸ fills_map_some f)⟩

theorem partlyWrittenPlan_answers {c : List (Option Byte)} {bs : Nat} {style : Style}
    (h : ∀ f, partlyWrittenPlan c bs style ≠ .stops f) :
    ∃ e, settledError c bs style = some e ∧ partlyWrittenPlan c bs style = .raises e := by
  unfold partlyWrittenPlan at h ⊢
  cases hs : settledError c bs style with
  | none => exact absurd (by rw [hs]) (h .unwrittenUse)
  | some e => exact ⟨e, rfl, rfl⟩

/-- What UNPAD's configuration checks leave when none of them fails. -/
theorem unpad_checks {bs : Nat} {style : Style} {s : State}
    (h : firstFailing (configChecks (.unpad bs style) s) = none) :
    (1 ≤ bs ∧ bs ≤ 255) ∧ style ≠ .unrecognized ∧ (dataLen s ≠ 0 ∧ dataLen s % bs = 0) ∧
      dataLen s ≤ s.cfg.bufSize := by
  simpa [firstFailing, configChecks, dataLen] using h

/-- What DECRYPT_UNPAD's configuration checks leave when none of them fails. -/
theorem decryptUnpad_checks {ivp : Bool} {bs keylen ivlen : Nat} {s : State}
    (h : firstFailing (configChecks (.decryptUnpad ivp bs keylen ivlen) s) = none) :
    keylen ∈ keySet .aes ∧ (ivp = true → ivlen = 16) ∧ dataLen s % 16 = 0 ∧ dataLen s ≤ s.cfg.bufSize ∧
      (1 ≤ bs ∧ bs ≤ 255) ∧ dataLen s ≠ 0 ∧ dataLen s % bs = 0 := by
  simpa [firstFailing, configChecks, dataLen] using h

section Extended

variable {s : State} {k v d : Memory}

theorem ivOrZero_extended (hv : s.ivIn.extendedBy v) {r : Bool} {n : Nat} {iv : List Byte}
    (h : ivOrZero s r n = some iv) : ivOrZero (withWindows s k v d) r n = some iv := by
  cases r with
  | false => exact h
  | true => exact Memory.read_extended hv h

theorem initPlan_extended (hk : s.keyIn.extendedBy k) (hv : s.ivIn.extendedBy v) {alg : Alg} {mode : Mode} {ivp : Bool}
    {keylen : Nat} (h : ∀ f, initPlan alg mode ivp keylen s ≠ .stops f) :
    initPlan alg mode ivp keylen (withWindows s k v d) = initPlan alg mode ivp keylen s := by
  unfold initPlan at h ⊢
  split at h
  · rename_i key iv hkey hiv
    rw [keyRead_withWindows, Memory.read_extended hk hkey, ivOrZero_extended hv hiv]
  · exact absurd rfl (h _)

theorem cipherPlan_extended (hd : s.dbuf.extendedBy d) {dir : Dir} (h : ∀ f, cipherPlan dir s ≠ .stops f) :
    cipherPlan dir (withWindows s k v d) = cipherPlan dir s := by
  unfold cipherPlan at h ⊢
  split at h
  · exact absurd rfl (h _)
  · rename_i data hdata
    rw [memRead_withWindows, dataLen_withWindows, Memory.read_extended hd hdata]
    rfl

theorem unpadPlan_extended (hd : s.dbuf.extendedBy d) {bs : Nat} {style : Style}
    (hpass : firstFailing (configChecks (.unpad bs style) s) = none) (h : ∀ f, unpadPlan bs style s ≠ .stops f) :
    unpadPlan bs style (withWindows s k v d) = unpadPlan bs style s := by
  obtain ⟨⟨h1, h255⟩, hst, -⟩ := unpad_checks hpass
  have hkeep := Memory.cells_keep hd (dataLen s - bs) bs
  unfold unpadPlan at h ⊢
  rw [memRead_withWindows, dataLen_withWindows, withWindows_dbuf]
  cases hread : memRead s (dataLen s - bs) bs with
  | some f => simp only [Memory.read_extended hd hread]
  | none =>
    rw [hread] at h
    obtain ⟨e, he, hplan⟩ := partlyWrittenPlan_answers h
    obtain ⟨he', hall⟩ := settledError_keep h1 h255 hst (by simp; omega) (by simp) hkeep he
    simp only [hplan]
    cases hread' : Memory.read d (dataLen s - bs) bs with
    | none => simp only [partlyWrittenPlan, he']
    | some f => simp only [hall f (cellBytes_eq_some.mp ((cellBytes_cells _ _ _).trans hread'))]

theorem plaintextCells_keep (hk : s.keyIn.extendedBy k) (hv : s.ivIn.extendedBy v) (hd : s.dbuf.extendedBy d)
    (ivp : Bool) (keylen : Nat) :
    List.Forall₂ keepsCell (plaintextCells ivp keylen s) (plaintextCells ivp keylen (withWindows s k v d)) := by
  refine cbcDecCells_keep (fun key => Memory.read_extended hk) _ ?_ (Memory.cells_keep hd 0 _)
  cases ivp with
  | false => exact cells_keep_refl _
  | true => exact Memory.cells_keep hv 0 16

theorem plaintextPlan_error {ivp : Bool} {bs keylen : Nat} {s : State} {key iv data : List Byte} {e : Detail}
    (hm : dataLen s % 16 = 0) (hkey : keyRead s keylen = some key) (hiv : ivOrZero s ivp 16 = some iv)
    (hdata : memRead s 0 (dataLen s) = some data)
    (h : ∀ f, plaintextCells ivp keylen s = f.map some → unpadFn f bs .pkcs7 = .error e) :
    plaintextPlan bs key iv data = .raises e := by
  unfold plaintextPlan
  cases hr : modeApply .aes .cbc key .dec iv data with
  | error d =>
    rw [modeApply_error_iff, Memory.read_length hdata] at hr
    exact absurd hm hr.1
  | ok r => simp only [h r.1 (plaintextCells_some hkey hiv hdata hr)]

theorem decryptUnpadPlan_extended (hk : s.keyIn.extendedBy k) (hv : s.ivIn.extendedBy v) (hd : s.dbuf.extendedBy d)
    {ivp : Bool} {bs keylen ivlen : Nat}
    (hpass : firstFailing (configChecks (.decryptUnpad ivp bs keylen ivlen) s) = none)
    (h : ∀ f, decryptUnpadPlan ivp bs keylen s ≠ .stops f) :
    decryptUnpadPlan ivp bs keylen (withWindows s k v d) = decryptUnpadPlan ivp bs keylen s := by
  obtain ⟨-, -, hm, -, ⟨h1, h255⟩, h0, hbs⟩ := decryptUnpad_checks hpass
  unfold decryptUnpadPlan at h ⊢
  split at h
  · rename_i key iv data hkey hiv hdata
    rw [keyRead_withWindows, Memory.read_extended hk hkey, ivOrZero_extended hv hiv, memRead_withWindows,
      dataLen_withWindows, Memory.read_extended hd hdata]
  · obtain ⟨e, he, hplan⟩ := partlyWrittenPlan_answers h
    have hlen := plaintextCells_length (ivp := ivp) (keylen := keylen) hm
    obtain ⟨he', hall⟩ := settledError_keep h1 h255 (by decide) (hlen ▸ h0) (hlen ▸ hbs)
      (plaintextCells_keep hk hv hd ivp keylen) he
    rw [hplan]
    split
    · rename_i key iv data hkey hiv hdata
      exact plaintextPlan_error (s := withWindows s k v d) hm hkey hiv hdata hall
    · simp only [partlyWrittenPlan, he']

/-- A command that does not stop has the same plan, whatever is written to UNWRITTEN cells. -/
theorem planOf_extended (hk : s.keyIn.extendedBy k) (hv : s.ivIn.extendedBy v) (hd : s.dbuf.extendedBy d) (i : Instr)
    (h : ∀ f, planOf i s ≠ .stops f) : planOf i (withWindows s k v d) = planOf i s := by
  have hchecks : configChecks i (withWindows s k v d) = configChecks i s := by cases i <;> rfl
  unfold planOf afterChecks at h ⊢
  rw [hchecks]
  cases hf : firstFailing (configChecks i s) with
  | some e => rfl
  | none =>
    rw [hf] at h
    simp only at h ⊢
    cases i with
    | init alg mode ivp keylen ivlen => exact initPlan_extended hk hv h
    | encrypt => exact cipherPlan_extended hd h
    | decrypt => exact cipherPlan_extended hd h
    | pad bs style => rfl
    | unpad bs style => exact unpadPlan_extended hd hf h
    | decryptUnpad ivp bs keylen ivlen => exact decryptUnpadPlan_extended hk hv hd hf h
    | release => rfl

/-- An effect writes the same, whatever the windows hold. -/
theorem Effect.apply_extended (e : Effect) (hd : s.dbuf.extendedBy d) :
    ∃ d', e.apply (withWindows s k v d) = withWindows (e.apply s) k v d' ∧ (e.apply s).dbuf.extendedBy d' := by
  cases e with
  | newContext => exact ⟨d, rfl, hd⟩
  | endContext => exact ⟨d, rfl, hd⟩
  | cipherOutput out ch => exact ⟨Memory.write d 0 out, rfl, Memory.write_extendedBy hd 0 out⟩
  | padding bytes => exact ⟨Memory.write d (dataLen s) bytes, rfl, Memory.write_extendedBy hd _ bytes⟩
  | dataLength n => exact ⟨d, rfl, hd⟩
  | plaintext pt n => exact ⟨Memory.write d 0 pt, rfl, Memory.write_extendedBy hd 0 pt⟩

end Extended

end Sys2Proof.Machine
end

section
/-! The statements about the state and its invariants (10_state.md), settled. -/

namespace Sys2Proof.Machine

/-- Settles O18, by the cases of `StepsTo`: each store, error report and effect keeps the invariant. -/
theorem stepKeepsTheInvariant : Obligations.StepKeepsTheInvariant := by
  intro s t hs h
  cases stepsTo_of_step h with
  | idles hp => exact hs
  | reads hp h4 hv => exact { hs with }
  | ignores hp h4 => exact { hs with }
  | storesDlen hp => exact { hs with }
  | storesKey hp h4 hlo hhi => exact { hs with keyInWf := store_wf_below hs.keyInWf (by omega) _ }
  | storesIv hp h4 hlo hhi => exact { hs with ivInWf := store_wf_below hs.ivInWf (by omega) _ }
  | storesData hp h4 hlo hhi => exact { hs with dbufWf := store_wf_below hs.dbufWf (by omega) _ }
  | refuses hp hd => exact (hs.issued _ _).reportError _ _
  | raises hp hd hr => exact (hs.issued _ _).reportError _ _
  | commits hp hd hr => exact (ruleOf_keeps_inv (hs.issued _ _) hr).reportSuccess _
  | resets hp => exact resetBlock_keeps_inv { hs with }

/-- Settles O16: the stores of the bus and the effects of commands only write cells. -/
theorem cellsStayWritten : Obligations.CellsStayWritten := by
  intro s t h hreset k
  cases stepsTo_of_step h with
  | storesKey => exact ⟨Memory.get_write_isSome _ _ _, id, id⟩
  | storesIv => exact ⟨id, Memory.get_write_isSome _ _ _, id⟩
  | storesData => exact ⟨id, id, Memory.get_write_isSome _ _ _⟩
  | commits hp hd hr =>
    obtain ⟨e, -, rfl⟩ := ruleOf_commit hr
    simp only [reportSuccess_keyIn, reportSuccess_ivIn, reportSuccess_dbuf, Effect.apply_keyIn, Effect.apply_ivIn]
    exact ⟨id, id, fun hb => e.apply_dbuf_isSome (by rwa [issued_dbuf])⟩
  | resets hp => exact absurd hp (hreset _)
  | _ => exact ⟨id, id, id⟩

/-- No step writes the configuration. -/
theorem step_cfg {s t : State} (h : step s = .next t) : t.cfg = s.cfg := by
  cases stepsTo_of_step h with
  | commits hp hd hr =>
    obtain ⟨e, -, rfl⟩ := ruleOf_commit hr
    simp
  | _ => rfl

/-- Settles O17, by `step_cfg` for the steps. -/
theorem bufSizeNeverChanges : Obligations.BufSizeNeverChanges :=
  ⟨fun _ => rfl, fun _ _ h => step_cfg h, fun _ _ _ hp => step_write hp rfl⟩

/-- Settles O24: neither the plan of a command nor its effect mentions these fields. -/
theorem commandsIgnoreStatusAndCmdr : Obligations.CommandsIgnoreStatusAndCmdr := by
  intro i s c st p r
  refine exec_mapNext ?_ (fun e => ?_) (fun d => rfl)
  · cases i <;> rfl
  · cases e <;> rfl

/-- Settles O26: the plan of every other command leaves CKEY out. -/
theorem keyIsInvisible : Obligations.KeyIsInvisible := by
  refine ⟨busRead_withKey, fun s k hs => ?_⟩
  show outcomeSameButKey (hostStep s) (hostStep (withKey s k))
  unfold hostStep
  rw [withKey_pending]
  cases hp : s.pending with
  | nil => exact sameButKey_withKey s k
  | cons e rest =>
    exact hostEvent_sameButKey (fun w he => hs w rest (he ▸ hp)) { s with pending := rest } k

/-- Settles O27, by what each successful command does to the context. -/
theorem contextChangesOnlyByItsCommands : Obligations.ContextChangesOnlyByItsCommands := by
  intro s t h hreset
  have hsame : ∀ {p q : Prop}, t.ctx = s.ctx → t.ckey = s.ckey → t.chain = s.chain →
      (t.ctx ≠ s.ctx ∨ t.ckey ≠ s.ckey → p) ∧ (t.chain ≠ s.chain → q) := by
    intro p q hctx hkey hchain
    exact ⟨fun hne => by simp [hctx, hkey] at hne, fun hne => absurd hchain hne⟩
  cases stepsTo_of_step h with
  | resets hp => exact absurd hp (hreset _)
  | @commits rest w i t hp hd hr =>
    have hok : statusErr (reportSuccess i.opc t).status = 0 := by simp [successWord_err]
    rcases ruleOf_commit_context hr with hi | hi | ⟨hctx, hkey, hch⟩
    · exact ⟨fun _ => ⟨w, rest, i, hp, hd, hok, .inl hi⟩, fun _ => ⟨w, rest, i, hp, hd, hok, .inl hi⟩⟩
    · exact ⟨fun _ => ⟨w, rest, i, hp, hd, hok, .inr hi⟩, fun _ => ⟨w, rest, i, hp, hd, hok, .inr (.inl hi)⟩⟩
    · refine ⟨fun hne => ?_, fun hne => ⟨w, rest, i, hp, hd, hok, .inr (.inr (hch (by simpa using hne)))⟩⟩
      simp [hctx, hkey] at hne
  | _ => exact hsame rfl rfl rfl

/-- Settles O28: the plans of ENCRYPT and DECRYPT leave KEY_IN and IV_IN out. -/
theorem stagingDoesNotTouchTheContext : Obligations.StagingDoesNotTouchTheContext := by
  intro i s k v hi
  refine exec_mapNext ?_ (fun e => ?_) (fun d => rfl)
  · rcases hi with rfl | rfl <;> rfl
  · cases e <;> rfl

/-- Settles O29, by reading the fields off the packed word. -/
theorem ctxWordHasItsFields : Obligations.CtxWordHasItsFields := by
  intro c
  refine ⟨fun h => by simp [ctxWord, h], fun h => ?_⟩
  rw [ctxWord_eq_packWord h]
  generalize hw : packWord 0 0 c.keylen 0 (BitVec.ofNat 8 (blockSize c.alg)) 0 c.mode.code c.alg.code 1 = w
  have hopc : w.extractLsb' 0 4 = 1 := hw ▸ opc_packWord ..
  have hbs : w.extractLsb' 8 8 = BitVec.ofNat 8 (blockSize c.alg) := hw ▸ bs_packWord ..
  have hivlen : w.extractLsb' 24 5 = 0 := hw ▸ ivlen_packWord ..
  have hrsv : w.extractLsb' 29 3 = 0 := hw ▸ rsv_packWord ..
  refine ⟨?_, ?_, hw ▸ alg_packWord .., hw ▸ mode_packWord .., hw ▸ ivp_packWord .., ?_, hw ▸ style_packWord ..,
    hw ▸ keylen_packWord .., ?_⟩
  · rw [extractLsb'_of_extractLsb' w (a := 0) (b := 4) (k := 0) (by decide), hopc]
    rfl
  · rw [extractLsb'_of_extractLsb' w (a := 0) (b := 4) (k := 1) (by decide), hopc]
    rfl
  · rw [hbs]
    cases c.alg <;> rfl
  · have happ : w.extractLsb' 29 3 ++ w.extractLsb' 24 5 = w.extractLsb' 24 8 :=
      BitVec.extractLsb'_append_extractLsb'_eq_extractLsb' rfl
    rw [← happ, hrsv, hivlen]
    rfl

/-- Settles O58: the plan stays, and the effect writes the same bytes. -/
theorem unwrittenCellsBearOnNothing : Obligations.UnwrittenCellsBearOnNothing := by
  intro i s s' k v d hk hv hd h
  show ∃ d', exec i (withWindows s k v d) = .next (withWindows s' k v d') ∧ s'.dbuf.extendedBy d'
  have hplan : planOf i (withWindows s k v d) = planOf i s :=
    planOf_extended hk hv hd i fun f hf => by rw [exec_of_stops hf] at h; cases h
  cases hp : planOf i s with
  | does e =>
    obtain rfl := Host.Outcome.next.inj ((exec_of_does hp).symm.trans h)
    obtain ⟨d', he, hd'⟩ := e.apply_extended (k := k) (v := v) hd
    exact ⟨d', by rw [exec_of_does (hplan.trans hp), he, reportSuccess_withWindows], by simpa using hd'⟩
  | raises e =>
    obtain rfl := Host.Outcome.next.inj ((exec_of_raises hp).symm.trans h)
    exact ⟨d, by rw [exec_of_raises (hplan.trans hp), reportError_withWindows], by simpa using hd⟩
  | stops f => cases (exec_of_stops hp).symm.trans h

/-- Settles O6: the step is EXECUTE of the word, and EXECUTE of an accepted word is `exec`. -/
theorem stepRunsTheDecodedCommand : Obligations.StepRunsTheDecodedCommand := by
  refine ⟨fun s w rest i hp hd => ?_, fun s nbits w i h => ?_⟩
  · rw [step_command hp, execute_cmd hd]
    rfl
  · rw [step_command (rest := s.pending) rfl, execute_cmd (decode_of_decodeTableWord h)]
    rfl

end Sys2Proof.Machine
end

section
/-! SUPPORT. The words of the bus: what a word packed from bytes or fields is as a number, what a stored word reads
back as, and what each range of offsets addresses (20_memory.md R81, R84, R87, R88). -/

namespace Sys2Proof

/-- An append of bit vectors as a number: the high part above the low one. -/
theorem toNat_append_eq_add {m n : Nat} (x : BitVec m) (y : BitVec n) :
    (x ++ y).toNat = x.toNat * 2 ^ n + y.toNat := by
  rw [BitVec.toNat_append, ← Nat.shiftLeft_add_eq_or_of_lt y.isLt, Nat.shiftLeft_eq]

/-- A packed word as a number (30_encoding.md R110). -/
theorem packWord_toNat (rsv : BitVec 3) (ivlen : BitVec 5) (keylen : BitVec 6) (style : BitVec 2) (bs : BitVec 8)
    (ivp mode : BitVec 1) (alg : BitVec 2) (opc : BitVec 4) :
    (packWord rsv ivlen keylen style bs ivp mode alg opc).toNat =
      opc.toNat + alg.toNat * 2 ^ 4 + mode.toNat * 2 ^ 6 + ivp.toNat * 2 ^ 7 + bs.toNat * 2 ^ 8 +
        style.toNat * 2 ^ 16 + keylen.toNat * 2 ^ 18 + ivlen.toNat * 2 ^ 24 + rsv.toNat * 2 ^ 29 := by
  simp only [packWord, toNat_append_eq_add]
  omega

namespace Machine

/-! ## Words and lanes (R84) -/

theorem laneWord_eq_ofNat (x0 x1 x2 x3 : Byte) :
    laneWord x0 x1 x2 x3 =
      BitVec.ofNat 32 (x0.toNat + x1.toNat * 2 ^ 8 + x2.toNat * 2 ^ 16 + x3.toNat * 2 ^ 24) := by
  have hsum : (laneWord x0 x1 x2 x3).toNat =
      x0.toNat + x1.toNat * 2 ^ 8 + x2.toNat * 2 ^ 16 + x3.toNat * 2 ^ 24 := by
    simp only [laneWord, toNat_append_eq_add]
    omega
  rw [← hsum, BitVec.ofNat_toNat, BitVec.setWidth_eq]

theorem laneWord_laneBytes (v : Word) :
    laneWord (v.extractLsb' 0 8) (v.extractLsb' 8 8) (v.extractLsb' 16 8) (v.extractLsb' 24 8) = v := by
  have hv := v.isLt
  apply BitVec.eq_of_toNat_eq
  simp only [laneWord, toNat_append_eq_add, BitVec.extractLsb'_toNat, Nat.shiftRight_eq_div_pow]
  omega

theorem laneBytes_getD (v : Word) {j : Nat} (h : j < 4) : (laneBytes v).getD j 0 = v.extractLsb' (8 * j) 8 := by
  interval_cases j <;> rfl

/-- The word CTX reads as while there is a context, as the sum of its fields (10_state.md R37, R38). -/
theorem ctxWord_eq_ofNat {c : Ctx} (h : c.valid = true) :
    ctxWord c = BitVec.ofNat 32 (1 + c.alg.code.toNat * 2 ^ 4 + c.mode.code.toNat * 2 ^ 6 +
      blockSize c.alg * 2 ^ 8 + c.keylen.toNat * 2 ^ 18) := by
  have hbs : (BitVec.ofNat 8 (blockSize c.alg)).toNat = blockSize c.alg := by cases c.alg <;> rfl
  have hsum : (ctxWord c).toNat = 1 + c.alg.code.toNat * 2 ^ 4 + c.mode.code.toNat * 2 ^ 6 +
      blockSize c.alg * 2 ^ 8 + c.keylen.toNat * 2 ^ 18 := by
    rw [ctxWord_eq_packWord h, packWord_toNat, hbs]
    simp
  rw [← hsum, BitVec.ofNat_toNat, BitVec.setWidth_eq]

/-! ## The word of a window (R87, R88) -/

theorem lanes_of_written {m : Memory} {o : Nat} {x0 x1 x2 x3 : Byte} (h0 : Memory.get m o = some x0)
    (h1 : Memory.get m (o + 1) = some x1) (h2 : Memory.get m (o + 2) = some x2)
    (h3 : Memory.get m (o + 3) = some x3) : lanes m o = some (laneWord x0 x1 x2 x3) := by
  simp [lanes, h0, h1, h2, h3]

theorem lanes_of_hasUnwritten {m : Memory} {o : Nat} (h : m.hasUnwritten o 4) : lanes m o = none := by
  obtain ⟨j, hj, hn⟩ := h
  unfold lanes
  split
  · rename_i h0 h1 h2 h3
    interval_cases j <;> simp_all
  · rfl

theorem get_store_inside (m : Memory) (o : Nat) (v : Word) {j : Nat} (h : j < 4) :
    Memory.get (store m o v) (o + j) = some (v.extractLsb' (8 * j) 8) := by
  rw [store, Memory.get_write_inside m o (laneBytes v) h, laneBytes_getD v h]

theorem get_store_outside (m : Memory) (o : Nat) (v : Word) {k : Nat} (h : k < o ∨ o + 4 ≤ k) :
    Memory.get (store m o v) k = Memory.get m k :=
  Memory.get_write_outside m o (laneBytes v) h

/-- A stored word is the word the window then holds (R84). -/
theorem lanes_store (m : Memory) (o : Nat) (v : Word) : lanes (store m o v) o = some v := by
  have hget := fun j (hj : j < 4) => get_store_inside m o v hj
  exact (lanes_of_written (hget 0 (by decide)) (hget 1 (by decide)) (hget 2 (by decide)) (hget 3 (by decide))).trans
    (congrArg some (laneWord_laneBytes v))

theorem store_store (m : Memory) (o : Nat) (v : Word) : store (store m o v) o v = store m o v :=
  Memory.write_write m o (laneBytes v)

/-! ## What an offset addresses (R81) -/

section Target

variable {c : Config} {a : Nat}

theorem target_keyIn (hlo : 0x0040 ≤ a) (hhi : a < 0x0060) : target c a = .keyIn (a - 0x0040) := by
  simp (disch := omega) only [target, if_pos, if_neg]

theorem target_ivIn (hlo : 0x0060 ≤ a) (hhi : a < 0x0070) : target c a = .ivIn (a - 0x0060) := by
  simp (disch := omega) only [target, if_pos, if_neg]

theorem target_chain (hlo : 0x0070 ≤ a) (hhi : a < 0x0080) : target c a = .chain (a - 0x0070) := by
  simp (disch := omega) only [target, if_pos, if_neg]

theorem target_dbuf (hlo : 0x1000 ≤ a) (hhi : a + 4 ≤ 0x1000 + c.bufSize) : target c a = .dbuf (a - 0x1000) := by
  simp (disch := omega) only [target, if_pos, if_neg]

theorem target_reserved (h : (0x0014 ≤ a ∧ a < 0x0040) ∨ (0x0080 ≤ a ∧ a < 0x1000) ∨
    (0x1000 ≤ a ∧ 0x1000 + c.bufSize < a + 4)) : target c a = .reserved := by
  simp (disch := omega) only [target, if_neg]

end Target

end Machine

end Sys2Proof
end

section
/-! SUPPORT. One access of the host as a step, and the state every write but one to CMD leads to (20_memory.md R83,
R87, R88). -/

namespace Sys2Proof.Machine

/-! ## A step over one access -/

section Access

variable {s : State} {rest : List HostEvent} {a : BitVec 16}

theorem step_read_returns (hp : s.pending = .read .word a :: rest) (h4 : a.toNat % 4 = 0) {v : Word}
    (hv : busRead s a.toNat = some v) : step s = .next { s with pending := rest, reads := s.reads ++ [v] } := by
  simp [step, hostStep, hp, hostEvent, accessOk, h4, hv, hostReceives]

theorem step_read_faults (hp : s.pending = .read .word a :: rest) (h4 : a.toNat % 4 = 0)
    (hv : busRead s a.toNat = none) : step s = .fault .unwrittenRead := by
  simp [step, hostStep, hp, hostEvent, accessOk, h4, hv]

/-- A read of a window's word: its four bytes, or the fault when one is UNWRITTEN (R50, R87). -/
theorem step_read_window (hp : s.pending = .read .word a :: rest) (h4 : a.toNat % 4 = 0) {m : Memory} {o : Nat}
    (hm : busRead s a.toNat = lanes m o) :
    (∀ x0 x1 x2 x3 : Byte, Memory.get m o = some x0 → Memory.get m (o + 1) = some x1 →
      Memory.get m (o + 2) = some x2 → Memory.get m (o + 3) = some x3 →
      step s = .next { s with
        pending := rest
        reads := s.reads ++
          [BitVec.ofNat 32 (x0.toNat + x1.toNat * 2 ^ 8 + x2.toNat * 2 ^ 16 + x3.toNat * 2 ^ 24)] }) ∧
    (m.hasUnwritten o 4 → step s = .fault .unwrittenRead) := by
  refine ⟨fun x0 x1 x2 x3 h0 h1 h2 h3 => step_read_returns hp h4 ?_, fun h => step_read_faults hp h4 ?_⟩
  · rw [hm, lanes_of_written h0 h1 h2 h3, laneWord_eq_ofNat]
  · rw [hm, lanes_of_hasUnwritten h]

/-- The accesses the port does not have (R82, R83). -/
theorem accessOk_eq_false {width : AccessWidth} (h : width ≠ .word ∨ a.toNat % 4 ≠ 0) : accessOk width a = false := by
  rw [← Bool.not_eq_true, accessOk_iff]
  tauto

theorem step_read_misaligned {width : AccessWidth} (hp : s.pending = .read width a :: rest)
    (h : width ≠ .word ∨ a.toNat % 4 ≠ 0) : step s = .fault .busMisaligned := by
  simp [step, hostStep, hp, hostEvent, accessOk_eq_false h]

theorem step_write_misaligned {width : AccessWidth} {v : Word} (hp : s.pending = .write width a v :: rest)
    (h : width ≠ .word ∨ a.toNat % 4 ≠ 0) : step s = .fault .busMisaligned := by
  simp [step, hostStep, hp, hostEvent, accessOk_eq_false h]

end Access

/-! ## What a write to any offset but CMD does -/

/-- The state with another list of accesses to come. -/
def awaiting (s : State) (p : List HostEvent) : State := { s with pending := p }

/-- The state after a write of `v` to the target (R88). A write to CMD also executes the word, and is left out. -/
def writeTarget (v : Word) (s : State) : Target → State
  | .dlen => { s with dlen := v }
  | .keyIn o => { s with keyIn := store s.keyIn o v }
  | .ivIn o => { s with ivIn := store s.ivIn o v }
  | .dbuf o => { s with dbuf := store s.dbuf o v }
  | .cmd | .status | .ctx | .bufsz | .chain _ | .reserved => s

/-- Whether a write to the target is kept there for the next read (R88). -/
def Target.isStaging : Target → Bool
  | .dlen | .keyIn _ | .ivIn _ | .dbuf _ => true
  | .cmd | .status | .ctx | .bufsz | .chain _ | .reserved => false

@[simp] theorem writeTarget_cfg (v : Word) (s : State) (t : Target) : (writeTarget v s t).cfg = s.cfg := by
  cases t <;> rfl

@[simp] theorem writeTarget_reads (v : Word) (s : State) (t : Target) : (writeTarget v s t).reads = s.reads := by
  cases t <;> rfl

/-- A write does not depend on where the host stands. -/
theorem writeTarget_awaiting (v : Word) (s : State) (p : List HostEvent) (t : Target) :
    writeTarget v (awaiting s p) t = awaiting (writeTarget v s t) p := by
  cases t <;> rfl

/-- Writing again what was just written changes nothing (R89). -/
theorem writeTarget_writeTarget (v : Word) (s : State) (t : Target) :
    writeTarget v (writeTarget v s t) t = writeTarget v s t := by
  cases t with
  | keyIn o => simp only [writeTarget, store_store]
  | ivIn o => simp only [writeTarget, store_store]
  | dbuf o => simp only [writeTarget, store_store]
  | _ => rfl

theorem busWrite_of_ne_cmd {a : Nat} (h : a ≠ 0x0000) (s : State) (v : Word) :
    busWrite s a v = .next (writeTarget v s (target s.cfg a)) := by
  unfold busWrite
  cases ht : target s.cfg a with
  | cmd => exact absurd (target_eq_cmd ht) h
  | _ => rfl

/-- A step over an aligned write to any offset but CMD. -/
theorem step_write_of_ne_cmd {s : State} {rest : List HostEvent} {a : BitVec 16} {v : Word}
    (hp : s.pending = .write .word a v :: rest) (h4 : a.toNat % 4 = 0) (h0 : a.toNat ≠ 0x0000) :
    step s = .next (awaiting (writeTarget v s (target s.cfg a.toNat)) rest) := by
  rw [step_write hp h4, busWrite_of_ne_cmd h0]
  exact congrArg _ (writeTarget_awaiting v s rest _)

/-- A word written where it is kept is the word a read then returns (R84). -/
theorem busRead_writeTarget {s : State} {a : Nat} (h : (target s.cfg a).isStaging = true) (v : Word) :
    busRead (writeTarget v s (target s.cfg a)) a = some v := by
  unfold busRead
  rw [writeTarget_cfg]
  cases ht : target s.cfg a with
  | dlen => rfl
  | keyIn o => exact lanes_store s.keyIn o v
  | ivIn o => exact lanes_store s.ivIn o v
  | dbuf o => exact lanes_store s.dbuf o v
  | _ => simp [ht, Target.isStaging] at h

/-- The staging offsets: DLEN, KEY_IN, IV_IN and DBUF. -/
theorem target_isStaging {c : Config} {a : Nat} (h : a = 0x000C ∨ (0x0040 ≤ a ∧ a < 0x0070) ∨
    (0x1000 ≤ a ∧ a + 4 ≤ 0x1000 + c.bufSize)) : (target c a).isStaging = true := by
  rcases h with rfl | ⟨hlo, hhi⟩ | ⟨hlo, hhi⟩
  · rfl
  · rcases Nat.lt_or_ge a 0x0060 with hk | hk
    · rw [target_keyIn hlo hk]; rfl
    · rw [target_ivIn hk hhi]; rfl
  · rw [target_dbuf hlo hhi]; rfl

/-- At STATUS, CTX, BUFSZ, CHAIN and the reserved offsets a write has no effect (R88). -/
theorem writeTarget_of_readOnly {c : Config} {a : Nat} (h4 : a % 4 = 0)
    (h : a = 0x0004 ∨ a = 0x0008 ∨ (0x0010 ≤ a ∧ a < 0x0040) ∨ (0x0070 ≤ a ∧ a < 0x1000) ∨
      (0x1000 ≤ a ∧ 0x1000 + c.bufSize < a + 4)) (s : State) (v : Word) : writeTarget v s (target c a) = s := by
  rcases h with rfl | rfl | ⟨hlo, hhi⟩ | ⟨hlo, hhi⟩ | h
  · rfl
  · rfl
  · rcases Nat.lt_or_ge a 0x0014 with hb | hr
    · obtain rfl : a = 0x0010 := by omega
      rfl
    · rw [target_reserved (.inl ⟨hr, hhi⟩)]; rfl
  · rcases Nat.lt_or_ge a 0x0080 with hc | hr
    · rw [target_chain hlo hc]; rfl
    · rw [target_reserved (.inr (.inl ⟨hr, hhi⟩))]; rfl
  · rw [target_reserved (.inr (.inr h))]; rfl

/-! ## Runs of accesses -/

theorem run_of_step {s t : State} (h : step s = .next t) (n : Nat) :
    Host.Core.run Sys2Proof.core (n + 1) s = Host.Core.run Sys2Proof.core n t := by
  have hcore : Sys2Proof.core.step s = .next t := h
  simp only [Host.Core.run, hcore]

/-- A run over an aligned write to any offset but CMD goes on from what the write leaves. -/
theorem run_write {a : BitVec 16} (h4 : a.toNat % 4 = 0) (h0 : a.toNat ≠ 0x0000) (s : State) (v : Word)
    (rest : List HostEvent) (n : Nat) :
    Host.Core.run Sys2Proof.core (n + 1) (awaiting s (.write .word a v :: rest)) =
      Host.Core.run Sys2Proof.core n (awaiting (writeTarget v s (target s.cfg a.toNat)) rest) := by
  rw [run_of_step (step_write_of_ne_cmd rfl h4 h0), writeTarget_awaiting]
  rfl

end Sys2Proof.Machine
end

section
/-! The statements about the host bus (20_memory.md), settled. -/

namespace Sys2Proof.Machine

/-- Settles O11, offset by offset: the word `busRead` answers for the target. -/
theorem busReadReturnsTheMappedWord : Obligations.BusReadReturnsTheMappedWord := by
  intro s rest a hp h4 returns window
  have hret : ∀ {v : Word}, busRead s a.toNat = some v → returns v := step_read_returns hp h4
  have hwin : ∀ {m : Memory} {o : Nat}, busRead s a.toNat = lanes m o → window m o := step_read_window hp h4
  refine ⟨?_, ?_, ?_, ?_, ?_, ?_, fun hlo hhi => hwin ?_, fun hlo hhi => hwin ?_, fun hlo hhi => hret ?_,
    fun hlo hhi => hwin ?_, fun h => hret ?_⟩
  · rintro rfl
    exact hret rfl
  · rintro rfl
    exact hret rfl
  · rintro rfl hvalid
    exact hret (congrArg some (by simp [ctxWord, hvalid]))
  · rintro rfl hvalid
    exact hret (congrArg some (ctxWord_eq_ofNat hvalid))
  · rintro rfl
    exact hret rfl
  · rintro rfl
    exact hret rfl
  · rw [busRead, target_keyIn hlo (by omega)]
  · rw [busRead, target_ivIn hlo (by omega)]
  · rw [busRead, target_chain hlo (by omega)]
    exact congrArg some (laneWord_eq_ofNat ..)
  · rw [busRead, target_dbuf hlo hhi]
  · rw [busRead, target_reserved h]

/-- Settles O12, by the target of each offset and the laws of `store`. -/
theorem busWriteStoresTheMappedWord : Obligations.BusWriteStoresTheMappedWord := by
  intro s rest a v hp stored
  have hstore : ∀ m o, stored m (store m o v) o := fun m o =>
    ⟨fun _ hj => get_store_inside m o v hj, fun _ hk => get_store_outside m o v hk⟩
  have hwrite : a.toNat % 4 = 0 → a.toNat ≠ 0x0000 →
      step s = .next (awaiting (writeTarget v s (target s.cfg a.toNat)) rest) := step_write_of_ne_cmd hp
  refine ⟨fun h => step_write_misaligned hp (.inr h), ?_, ?_, fun h4 hlo hhi => ⟨_, ?_, hstore _ _⟩,
    fun h4 hlo hhi => ⟨_, ?_, hstore _ _⟩, fun h4 hlo hhi => ⟨_, ?_, hstore _ _⟩, fun h4 h => ?_⟩
  · rintro rfl
    exact step_command hp
  · rintro rfl
    exact hwrite rfl (by decide)
  · rw [hwrite h4 (by omega), target_keyIn hlo (by omega)]
    rfl
  · rw [hwrite h4 (by omega), target_ivIn hlo (by omega)]
    rfl
  · rw [hwrite h4 (by omega), target_dbuf hlo hhi]
    rfl
  · simp only [← BitVec.toNat_inj, BitVec.reduceToNat] at h
    rw [hwrite h4 (by omega), writeTarget_of_readOnly h4 h]
    rfl

/-- Settles O13: the write is `writeTarget`, and the read after it returns the word (`busRead_writeTarget`). -/
theorem writeThenReadReturnsTheWord : Obligations.WriteThenReadReturnsTheWord := by
  intro s rest a v hp h4 ha
  simp only [← BitVec.toNat_inj, BitVec.reduceToNat] at ha
  have hstaging := target_isStaging ha
  have hwrite := run_of_step (step_write_of_ne_cmd hp h4 (by omega)) 1
  have hread := run_of_step (step_read_returns (s := awaiting _ (_ :: rest)) rfl h4 (busRead_writeTarget hstaging v)) 0
  exact ⟨_, hwrite.trans hread, congrArg (· ++ [v]) (writeTarget_reads v s _), rfl⟩

/-- Settles O14, by `writeTarget_writeTarget`. -/
theorem repeatedWriteIsOneWrite : Obligations.RepeatedWriteIsOneWrite := by
  intro s rest a v h4 h0
  show Host.Core.run Sys2Proof.core 2 (awaiting s _) = Host.Core.run Sys2Proof.core 1 (awaiting s _)
  have hne : a.toNat ≠ 0x0000 := fun h => h0 (BitVec.eq_of_toNat_eq h)
  rw [run_write h4 hne, run_write h4 hne, run_write h4 hne, writeTarget_cfg, writeTarget_writeTarget]

/-- Settles O10: the port has no such access, for a read or for a write. -/
theorem misalignedAccessFaults : Obligations.MisalignedAccessFaults :=
  fun _ _ _ _ _ h => ⟨fun hp => step_read_misaligned hp h, fun hp => step_write_misaligned hp h⟩

end Sys2Proof.Machine
end

section
/-! SUPPORT. The command word: the codes of its fields, which words DECODE answers with which command, and what the
masks of the opcode table say of a word's must-be-zero fields (30_encoding.md R110 to R123). -/

namespace Sys2Proof

/-! ## Field codes (R113 to R115, R117) -/

theorem Alg.ofCode_eq_some_iff {c : BitVec 2} {alg : Alg} : Alg.ofCode c = some alg ↔ alg.code = c := by
  cases alg <;> revert c <;> decide

@[simp] theorem Mode.ofCode_code (mode : Mode) : Mode.ofCode mode.code = mode := by
  cases mode <;> rfl

@[simp] theorem Mode.code_ofCode (c : BitVec 1) : (Mode.ofCode c).code = c := by
  revert c
  decide

@[simp] theorem Style.ofCode_code (style : Style) : Style.ofCode style.code = style := by
  cases style <;> rfl

@[simp] theorem Style.code_ofCode (c : BitVec 2) : (Style.ofCode c).code = c := by
  revert c
  decide

@[simp] theorem boolBit_beq_one (b : Bool) : (boolBit b == 1#1) = b := by
  cases b <;> rfl

@[simp] theorem boolBit_of_beq_one (c : BitVec 1) : boolBit (c == 1#1) = c := by
  revert c
  decide

theorem boolBit_toNat_mul (b : Bool) (n : Nat) : (boolBit b).toNat * n = if b = true then n else 0 := by
  cases b <;> simp [boolBit]

/-! ## The lengths a word can hold (R116, R118, R119) -/

theorem Instr.wf_init_iff {alg : Alg} {mode : Mode} {ivp : Bool} {keylen ivlen : Nat} :
    (Instr.init alg mode ivp keylen ivlen).wf = true ↔ keylen < 64 ∧ ivlen < 32 := by
  simp [Instr.wf]

theorem Instr.wf_decryptUnpad_iff {ivp : Bool} {bs keylen ivlen : Nat} :
    (Instr.decryptUnpad ivp bs keylen ivlen).wf = true ↔ bs < 256 ∧ keylen < 64 ∧ ivlen < 32 := by
  simp [Instr.wf, and_assoc]

/-! ## The row of a word (R111, R112, R121) -/

theorem rowOf_opc (i : Instr) : rowOf i.opc = some i.row := by
  cases i <;> rfl

/-- A must-be-zero field of a row is one whose bits are all in the row's mask. -/
theorem field_eq_zero_of_row (r : OpcodeRow) {w : Word} (h : w &&& r.mask &&& ~~~(0xF : Word) = 0) {a n : Nat}
    (hm : (r.mask &&& ~~~(0xF : Word)).extractLsb' a n = BitVec.allOnes n) : w.extractLsb' a n = 0 := by
  have hfield := congrArg (BitVec.extractLsb' a n) h
  rw [BitVec.and_assoc, BitVec.extractLsb'_and, hm, BitVec.and_allOnes] at hfield
  exact hfield.trans BitVec.extractLsb'_zero

@[simp] theorem opc_encode (i : Instr) : Word.opc (encode i) = i.opc := by
  cases i <;> exact opc_packWord ..

/-- The word of a command carries its row's fixed bits (R112). -/
theorem encode_encodedBy_row (i : Instr) : i.row.encodedBy (encode i) = true := by
  cases i with
  | init alg mode ivp keylen ivlen => exact Laws.EncodeFitsRow.init alg mode ivp keylen ivlen
  | encrypt => exact Laws.EncodeFitsRow.encrypt
  | decrypt => exact Laws.EncodeFitsRow.decrypt
  | pad bs style => exact Laws.EncodeFitsRow.pad bs style
  | unpad bs style => exact Laws.EncodeFitsRow.unpad bs style
  | decryptUnpad ivp bs keylen ivlen => exact Laws.EncodeFitsRow.decryptUnpad ivp bs keylen ivlen
  | release => exact Laws.EncodeFitsRow.release

/-- Above the OPC the fixed bits of every row are 0 (R121). -/
theorem fixed_and_not_opc_eq_zero : ∀ r ∈ opcodeTable, r.fixed &&& ~~~(0xF : Word) = 0 := by
  decide

/-- A word that a command's row encodes is 0 in the row's must-be-zero fields. -/
theorem and_mask_eq_zero_of_encodedBy {i : Instr} {w : Word} (h : i.row.encodedBy w = true) :
    w &&& i.row.mask &&& ~~~(0xF : Word) = 0 := by
  rw [OpcodeRow.encodedBy, beq_iff_eq] at h
  rw [h]
  exact fixed_and_not_opc_eq_zero i.row (List.mem_of_find?_eq_some (rowOf_opc i))

/-! ## DECODE (R123) -/

/-- INIT's arm of DECODE: ALG names an algorithm. -/
theorem decodeOperands_init_eq_cmd_iff {w : Word} {i : Instr} :
    decodeOperands 0x1 w = .cmd i ↔ ∃ alg : Alg, alg.code = Word.alg w ∧
      i = .init alg (Mode.ofCode (Word.mode w)) (Word.ivp w == 1) (Word.keylen w).toNat (Word.ivlen w).toNat := by
  simp only [← Alg.ofCode_eq_some_iff, decodeOperands]
  cases Alg.ofCode (Word.alg w) <;> simp [eq_comm]

/-- The operands of a word are those of a command of its own row. -/
theorem opc_eq_of_decodeOperands {opc : BitVec 4} {w : Word} {i : Instr} (h : decodeOperands opc w = .cmd i) :
    opc = i.opc := by
  by_cases h1 : opc = 0x1
  · subst h1
    obtain ⟨alg, -, rfl⟩ := decodeOperands_init_eq_cmd_iff.mp h
    rfl
  · unfold decodeOperands at h
    rw [if_neg h1] at h
    split_ifs at h <;> cases h <;> assumption

/-- DECODE answers a command exactly at the words of the command's row that hold its operands. -/
theorem decode_eq_cmd_iff {w : Word} {i : Instr} :
    decode w = .cmd i ↔
      Word.opc w = i.opc ∧ w &&& i.row.mask &&& ~~~(0xF : Word) = 0 ∧ decodeOperands i.opc w = .cmd i := by
  unfold decode
  constructor
  · intro h
    split at h
    · cases h
    · rename_i r hr
      split at h
      · cases h
      · rename_i hz
        have hopc := opc_eq_of_decodeOperands h
        rw [hopc, rowOf_opc] at hr
        cases hr
        exact ⟨hopc, not_not.mp hz, hopc ▸ h⟩
  · rintro ⟨hopc, hz, hops⟩
    simp only [hopc, rowOf_opc, hz, ne_eq, not_true_eq_false, if_false, hops]

/-- The operand fields of a well-formed command's word are its operands. -/
theorem decodeOperands_encode {i : Instr} (h : i.wf = true) : decodeOperands i.opc (encode i) = .cmd i := by
  cases i with
  | init alg mode ivp keylen ivlen =>
    obtain ⟨hkey, hiv⟩ := Instr.wf_init_iff.mp h
    refine decodeOperands_init_eq_cmd_iff.mpr ⟨alg, ?_, ?_⟩
    · simp [encode]
    · simp [encode, Nat.mod_eq_of_lt hkey, Nat.mod_eq_of_lt hiv]
  | pad bs style | unpad bs style =>
    have hbs : bs < 256 := of_decide_eq_true h
    change Decoded.cmd _ = _
    simp [encode, Nat.mod_eq_of_lt hbs]
  | decryptUnpad ivp bs keylen ivlen =>
    obtain ⟨hbs, hkey, hiv⟩ := Instr.wf_decryptUnpad_iff.mp h
    change Decoded.cmd _ = _
    simp [encode, Nat.mod_eq_of_lt hbs, Nat.mod_eq_of_lt hkey, Nat.mod_eq_of_lt hiv]
  | encrypt | decrypt | release => rfl

/-- The operands DECODE reads fit their fields. -/
theorem wf_of_decodeOperands {w : Word} {i : Instr} (h : decodeOperands i.opc w = .cmd i) : i.wf = true := by
  cases i with
  | init alg mode ivp keylen ivlen =>
    obtain ⟨_, -, hi⟩ := decodeOperands_init_eq_cmd_iff.mp h
    cases hi
    exact Instr.wf_init_iff.mpr ⟨(Word.keylen w).isLt, (Word.ivlen w).isLt⟩
  | pad bs style | unpad bs style =>
    cases h
    exact decide_eq_true (Word.bs w).isLt
  | decryptUnpad ivp bs keylen ivlen =>
    cases h
    exact Instr.wf_decryptUnpad_iff.mpr ⟨(Word.bs w).isLt, (Word.keylen w).isLt, (Word.ivlen w).isLt⟩
  | encrypt | decrypt | release => rfl

/-! ## The word of a row from its operand fields (R112) -/

section Rows

variable {w : Word} {opc : BitVec 4} (hopc : Word.opc w = opc)
include hopc

/-- ENCRYPT, DECRYPT and RELEASE have no operand. -/
theorem packWord_of_noOperands (h : w &&& 0xFFFFFFFF &&& ~~~(0xF : Word) = 0) :
    packWord 0 0 0 0 0 0 0 0 opc = w := by
  have zero {a n : Nat} := field_eq_zero_of_row rowEncrypt h (a := a) (n := n)
  have hw := packWord_fields w
  have hrsv : Word.rsv w = 0 := zero (by decide)
  have hivlen : Word.ivlen w = 0 := zero (by decide)
  have hkeylen : Word.keylen w = 0 := zero (by decide)
  have hstyle : Word.style w = 0 := zero (by decide)
  have hbs : Word.bs w = 0 := zero (by decide)
  have hivp : Word.ivp w = 0 := zero (by decide)
  have hmode : Word.mode w = 0 := zero (by decide)
  have halg : Word.alg w = 0 := zero (by decide)
  rwa [hrsv, hivlen, hkeylen, hstyle, hbs, hivp, hmode, halg, hopc] at hw

/-- PAD and UNPAD have the operands BS and STYLE. -/
theorem packWord_of_padOperands (h : w &&& 0xFFFC00FF &&& ~~~(0xF : Word) = 0) :
    packWord 0 0 0 (Word.style w) (Word.bs w) 0 0 0 opc = w := by
  have zero {a n : Nat} := field_eq_zero_of_row rowPad h (a := a) (n := n)
  have hw := packWord_fields w
  have hrsv : Word.rsv w = 0 := zero (by decide)
  have hivlen : Word.ivlen w = 0 := zero (by decide)
  have hkeylen : Word.keylen w = 0 := zero (by decide)
  have hivp : Word.ivp w = 0 := zero (by decide)
  have hmode : Word.mode w = 0 := zero (by decide)
  have halg : Word.alg w = 0 := zero (by decide)
  rwa [hrsv, hivlen, hkeylen, hivp, hmode, halg, hopc] at hw

/-- INIT has every operand but BS and STYLE. -/
theorem packWord_of_initOperands (h : w &&& 0xE003FF0F &&& ~~~(0xF : Word) = 0) :
    packWord 0 (Word.ivlen w) (Word.keylen w) 0 0 (Word.ivp w) (Word.mode w) (Word.alg w) opc = w := by
  have zero {a n : Nat} := field_eq_zero_of_row rowInit h (a := a) (n := n)
  have hw := packWord_fields w
  have hrsv : Word.rsv w = 0 := zero (by decide)
  have hstyle : Word.style w = 0 := zero (by decide)
  have hbs : Word.bs w = 0 := zero (by decide)
  rwa [hrsv, hstyle, hbs, hopc] at hw

/-- DECRYPT_UNPAD has every operand but ALG, MODE and STYLE. -/
theorem packWord_of_decryptUnpadOperands (h : w &&& 0xE003007F &&& ~~~(0xF : Word) = 0) :
    packWord 0 (Word.ivlen w) (Word.keylen w) 0 (Word.bs w) (Word.ivp w) 0 0 opc = w := by
  have zero {a n : Nat} := field_eq_zero_of_row rowDecryptUnpad h (a := a) (n := n)
  have hw := packWord_fields w
  have hrsv : Word.rsv w = 0 := zero (by decide)
  have hstyle : Word.style w = 0 := zero (by decide)
  have hmode : Word.mode w = 0 := zero (by decide)
  have halg : Word.alg w = 0 := zero (by decide)
  rwa [hrsv, hstyle, hmode, halg, hopc] at hw

end Rows

/-- A word with the OPC of a command, the must-be-zero fields of its row 0 and the command's operands is the command's
word. -/
theorem encode_of_decodeOperands {w : Word} {i : Instr} (hopc : Word.opc w = i.opc)
    (hz : w &&& i.row.mask &&& ~~~(0xF : Word) = 0) (hops : decodeOperands i.opc w = .cmd i) : encode i = w := by
  cases i with
  | init alg mode ivp keylen ivlen =>
    obtain ⟨alg', halg, hi⟩ := decodeOperands_init_eq_cmd_iff.mp hops
    cases hi
    simpa [encode, halg] using packWord_of_initOperands (opc := 0x1) hopc hz
  | pad bs style =>
    cases hops
    simpa [encode] using packWord_of_padOperands (opc := 0x4) hopc hz
  | unpad bs style =>
    cases hops
    simpa [encode] using packWord_of_padOperands (opc := 0x5) hopc hz
  | decryptUnpad ivp bs keylen ivlen =>
    cases hops
    simpa [encode] using packWord_of_decryptUnpadOperands (opc := 0x6) hopc hz
  | encrypt | decrypt | release => exact packWord_of_noOperands hopc hz

end Sys2Proof
end

section
/-! SUPPORT. The accesses of a host program that stage a byte string, word by word (30_encoding.md R126). -/

namespace Sys2Proof.Machine

/-- The window after the first `n` words of the byte string `h`, completed with zero bytes, are stored from index `o`
on: what the accesses of `hostStage` leave (`run_hostStage`). -/
def storeWords (m : Memory) (o : Nat) : Nat → List Byte → Memory
  | 0, _ => m
  | n + 1, h =>
    storeWords (store m o (laneWord (h.getD 0 0) (h.getD 1 0) (h.getD 2 0) (h.getD 3 0))) (o + 4) n (h.drop 4)

/-- A byte of a word is the byte the word was put together from (R84). -/
theorem extractLsb'_laneWord (h : List Byte) {j : Nat} (hj : j < 4) :
    (laneWord (h.getD 0 0) (h.getD 1 0) (h.getD 2 0) (h.getD 3 0)).extractLsb' (8 * j) 8 = h.getD j 0 := by
  apply BitVec.eq_of_toNat_eq
  simp only [laneWord, toNat_append_eq_add, BitVec.extractLsb'_toNat, Nat.shiftRight_eq_div_pow]
  interval_cases j <;> omega

theorem get_storeWords_outside (n : Nat) (m : Memory) (o : Nat) (h : List Byte) {k : Nat}
    (hk : k < o ∨ o + 4 * n ≤ k) : Memory.get (storeWords m o n h) k = Memory.get m k := by
  induction n generalizing m o h with
  | zero => rfl
  | succ n ih => rw [storeWords, ih _ _ _ (by omega), get_store_outside m o _ (by omega)]

theorem get_storeWords_inside (n : Nat) (m : Memory) (o : Nat) (h : List Byte) {j : Nat} (hj : j < 4 * n) :
    Memory.get (storeWords m o n h) (o + j) = some (h.getD j 0) := by
  induction n generalizing m o h j with
  | zero => omega
  | succ n ih =>
    rw [storeWords]
    rcases Nat.lt_or_ge j 4 with hfirst | hlater
    · rw [get_storeWords_outside n _ _ _ (by omega), get_store_inside m o _ hfirst, extractLsb'_laneWord h hfirst]
    · obtain ⟨i, rfl⟩ := Nat.exists_eq_add_of_le hlater
      rw [← Nat.add_assoc, ih _ _ _ (by omega)]
      simp [List.getD_eq_getElem?_getD, Nat.add_comm]

/-- A run over the accesses that stage a string inside DBUF stores its words there. -/
theorem run_hostStage (n : Nat) (s : State) (o : Nat) (h : List Byte) (rest : List HostEvent) (k : Nat)
    (hbuf : s.cfg.bufSize ≤ 0xF000) (ho : o % 4 = 0) (hfits : o + 4 * n ≤ s.cfg.bufSize) :
    Host.Core.run Sys2Proof.core (n + k) (awaiting s (hostStage (0x1000 + o) n h ++ rest)) =
      Host.Core.run Sys2Proof.core k (awaiting { s with dbuf := storeWords s.dbuf o n h } rest) := by
  induction n generalizing s o h with
  | zero => rw [Nat.zero_add]; rfl
  | succ n ih =>
    have haddr : (BitVec.ofNat 16 (0x1000 + o)).toNat = 0x1000 + o := Nat.mod_eq_of_lt (by omega)
    have hnext : o + 4 + 4 * n ≤ s.cfg.bufSize := by omega
    have htarget : target s.cfg (0x1000 + o) = .dbuf o := by
      rw [target_dbuf (by omega) (by omega), Nat.add_sub_cancel_left]
    rw [Nat.add_right_comm, hostStage, hostWR, List.cons_append, run_write (by omega) (by omega), haddr, htarget]
    exact ih _ (o + 4) (h.drop 4) hbuf (by omega) hnext

/-- A run over the one write of `hostLoadData` to DLEN. -/
theorem run_writeDlen (s : State) (v : Word) (rest : List HostEvent) :
    Host.Core.run Sys2Proof.core 1 (awaiting s (hostWR 0x000C v :: rest)) =
      .next { s with pending := rest, dlen := v } :=
  run_write rfl (by decide) s v rest 0

end Sys2Proof.Machine
end

section
/-! The statements about the encoding (30_encoding.md), settled. -/

namespace Sys2Proof

/-- Settles O1: the word of a command has its row's OPC and fixed bits and its operands. -/
theorem decodeOfEncodeIsTheCommand : Obligations.DecodeOfEncodeIsTheCommand := by
  intro i h
  have hz := and_mask_eq_zero_of_encodedBy (encode_encodedBy_row i)
  exact decode_eq_cmd_iff.mpr ⟨opc_encode i, hz, decodeOperands_encode h⟩

/-- Settles O2: a word is packed from its fields, and those that are no operand of the command are 0. -/
theorem encodeOfDecodeIsTheWord : Obligations.EncodeOfDecodeIsTheWord := by
  intro w i h
  obtain ⟨hopc, hz, hops⟩ := decode_eq_cmd_iff.mp h
  exact ⟨wf_of_decodeOperands hops, encode_of_decodeOperands hopc hz hops⟩

namespace Machine

/-- Settles O5: the word is packed from its fields (`packWord_toNat`), and every number that fits its field is kept. -/
theorem assembledWordIsTheSumOfItsFields : Obligations.AssembledWordIsTheSumOfItsFields := by
  intro l h
  cases l with
  | init alg mode key iv =>
    obtain ⟨hkey, hiv⟩ := Instr.wf_init_iff.mp h
    simp [assemble, lineInstr, encode, packWord_toNat, boolBit_toNat_mul, Nat.mod_eq_of_lt hkey, Nat.mod_eq_of_lt hiv]
  | pad bs style | unpad bs style =>
    have hbs : bs < 256 := of_decide_eq_true h
    simp [assemble, lineInstr, encode, packWord_toNat, Nat.mod_eq_of_lt hbs]
  | decryptUnpad key iv bs =>
    obtain ⟨hbs, hkey, hiv⟩ := Instr.wf_decryptUnpad_iff.mp h
    simp [assemble, lineInstr, encode, packWord_toNat, boolBit_toNat_mul, Nat.mod_eq_of_lt hbs, Nat.mod_eq_of_lt hkey,
      Nat.mod_eq_of_lt hiv]
  | encrypt | decrypt | release => rfl

/-- Settles O15: the words of the string (`run_hostStage`), then the write to DLEN. -/
theorem loadDataStagesTheString : Obligations.LoadDataStagesTheString := by
  intro s h rest hlegal hlen
  obtain ⟨h16, -, hmax⟩ := hlegal
  have hfits : 0 + 4 * ((h.length + 3) / 4) ≤ s.cfg.bufSize := by omega
  refine ⟨storeWords s.dbuf 0 ((h.length + 3) / 4) h, ?_, fun j hj => ?_, fun k hlo hhi => ?_, fun k hk => ?_⟩
  · have hrun := run_hostStage _ s 0 h ([hostWR 0x000C (BitVec.ofNat 32 h.length)] ++ rest) 1 hmax rfl hfits
    rw [← List.append_assoc] at hrun
    exact hrun.trans (run_writeDlen ..)
  · exact get_storeWords_inside _ s.dbuf 0 h (by omega)
  · have hget := get_storeWords_inside _ s.dbuf 0 h hhi
    rwa [Nat.zero_add, List.getD_eq_default _ _ hlo] at hget
  · exact get_storeWords_outside _ s.dbuf 0 h (by omega)

/-- Settles O3: each word is the word of its command. -/
theorem wordsOfTheSpecDecode : Obligations.WordsOfTheSpecDecode := by
  have decode_word {w : Word} {i : Instr} (hw : encode i = w) (h : i.wf = true) : decode w = .cmd i :=
    hw ▸ decodeOfEncodeIsTheCommand i h
  exact ⟨decode_word rfl rfl, decode_word rfl rfl, decode_word rfl rfl, decode_word rfl rfl, decode_word rfl rfl,
    decode_word rfl rfl, decode_word rfl rfl, decode_word rfl rfl, decode_word rfl rfl⟩

end Machine

end Sys2Proof
end

section
/-! SUPPORT. The padding functions, said once: when PAD_FN answers, the checks of UNPAD_FN in order, and the strings
its two padding checks accept (40_padding.md R141 to R151). -/

namespace Sys2Proof.Machine

/-- A property of the bytes from index `m` on, read index by index. -/
theorem forall_mem_drop_iff {d : List Byte} {m : Nat} {P : Byte → Prop} :
    (∀ b ∈ d.drop m, P b) ↔ ∀ i, m ≤ i → i < d.length → P (d.getD i 0) := by
  constructor
  · intro h i hm hi
    rw [List.getD_eq_getElem _ _ hi]
    exact h _ (List.mem_drop_iff_getElem.mpr ⟨i - m, by omega, by congr 1; omega⟩)
  · intro h b hb
    obtain ⟨i, hi, rfl⟩ := List.mem_drop_iff_getElem.mp hb
    rw [← List.getD_eq_getElem _ 0]
    exact h (m + i) (by omega) (by omega)

/-- The bytes from index `m` on are one byte repeated. -/
theorem drop_eq_bytesOf_iff {d : List Byte} {m n : Nat} {v : Byte} (h : d.length - m = n) :
    d.drop m = bytesOf n v ↔ ∀ i, m ≤ i → i < d.length → d.getD i 0 = v := by
  rw [bytesOf, List.eq_replicate_iff, forall_mem_drop_iff, List.length_drop, and_iff_right h]

/-- A byte of the bytes from index `m` on. -/
theorem getD_drop (d : List Byte) (m i : Nat) : (d.drop m).getD i 0 = d.getD (m + i) 0 := by
  rw [List.getD_eq_getElem?_getD, List.getElem?_drop, List.getD_eq_getElem?_getD]

/-! ## PAD_FN -/

theorem padFn_eq_ok_iff {d out : List Byte} {bs : Nat} {style : Style} :
    padFn d bs style = .ok out ↔
      1 ≤ bs ∧ bs ≤ 255 ∧ style ≠ .unrecognized ∧ out = d ++ padBytes (padLen d.length bs) style := by
  unfold padFn
  split
  · simp only [reduceCtorEq, false_iff]
    omega
  split
  next hs => simp [hs]
  next hbs hs =>
    simp only [Except.ok.injEq, eq_comm (a := out)]
    constructor
    · exact fun h => ⟨by omega, by omega, hs, h⟩
    · exact fun ⟨_, _, _, h⟩ => h

theorem padFn_of_blockSize {d : List Byte} {bs : Nat} (h : bs < 1 ∨ 255 < bs) (style : Style) :
    padFn d bs style = .error .blockSize := if_pos h

theorem padFn_unrecognized {d : List Byte} {bs : Nat} (h1 : 1 ≤ bs) (h255 : bs ≤ 255) :
    padFn d bs .unrecognized = .error .style := by
  rw [padFn, if_neg (by omega), if_pos rfl]

/-! ## The checks of UNPAD_FN before it reads a byte (R144) -/

section Checks

variable {d : List Byte} {bs : Nat} {style : Style}

theorem unpadFn_of_blockSize (h : bs < 1 ∨ 255 < bs) (style : Style) : unpadFn d bs style = .error .blockSize :=
  if_pos h

theorem unpadFn_unrecognized (h1 : 1 ≤ bs) (h255 : bs ≤ 255) : unpadFn d bs .unrecognized = .error .style := by
  rw [unpadFn, if_neg (by omega), if_pos rfl]

theorem unpadFn_of_unpadLen (h1 : 1 ≤ bs) (h255 : bs ≤ 255) (hs : style ≠ .unrecognized)
    (h : d.length = 0 ∨ d.length % bs ≠ 0) : unpadFn d bs style = .error .unpadLen := by
  rw [unpadFn.eq_def, if_neg (by omega), if_neg hs, if_pos h]

variable (h1 : 1 ≤ bs) (h255 : bs ≤ 255) (h0 : d.length ≠ 0) (hm : d.length % bs = 0)
include h1 h255 h0 hm

theorem unpadFn_eq_unpadCounted (hs : style = .pkcs7 ∨ style = .x923) :
    unpadFn d bs style = unpadCounted d bs style := by
  rw [unpadFn.eq_def, if_neg (by omega), if_neg (by rcases hs with rfl | rfl <;> decide), if_neg (by omega)]
  rcases hs with rfl | rfl <;> rfl

theorem unpadFn_eq_unpadMarked : unpadFn d bs .iso7816 = unpadMarked d bs := by
  rw [unpadFn, if_neg (by omega), if_neg (by decide), if_neg (by omega)]

end Checks

/-! ## The length byte and the pattern of pkcs7 and x923 (R145 to R147) -/

/-- The last byte of a pkcs7 or x923 padding is its length. -/
theorem padBytes_getD_last {p : Nat} {style : Style} (hs : style = .pkcs7 ∨ style = .x923) (h1 : 1 ≤ p) :
    (padBytes p style).getD (p - 1) 0 = BitVec.ofNat 8 p := by
  rcases hs with rfl | rfl
  · rw [padBytes, List.getD_eq_getElem _ _ (by simp; omega)]
    exact List.getElem_replicate _
  · rw [padBytes, List.getD_append_right _ _ _ _ (by simp), bytesOf_length, Nat.sub_self]
    rfl

section Counted

variable {d : List Byte} {bs p : Nat} {style : Style} (hp : p = (d.getD (d.length - 1) 0).toNat)
include hp

theorem unpadCounted_of_range (h : p < 1 ∨ bs < p) : unpadCounted d bs style = .error .padRange := by
  subst hp
  exact if_pos h

theorem unpadCounted_of_le (h1 : 1 ≤ p) (hbs : p ≤ bs) :
    unpadCounted d bs style =
      if d.drop (d.length - p) = padBytes p style then .ok (d.length - p) else .error .padPattern := by
  subst hp
  rw [unpadCounted, if_neg (by omega), ite_not]

/-- The pattern of pkcs7 is `p` bytes `p` (R146). -/
theorem drop_eq_padBytes_pkcs7_iff (hle : p ≤ d.length) :
    d.drop (d.length - p) = padBytes p .pkcs7 ↔ ∀ j, d.length - p ≤ j → j < d.length → (d.getD j 0).toNat = p := by
  have hbyte (b : Byte) : b = BitVec.ofNat 8 p ↔ b.toNat = p := by
    rw [← BitVec.toNat_inj, BitVec.toNat_ofNat, Nat.mod_eq_of_lt (by omega)]
  simp only [padBytes, drop_eq_bytesOf_iff (show d.length - (d.length - p) = p by omega), hbyte]

/-- The pattern of x923 is `p - 1` zeros before the length byte (R147). -/
theorem drop_eq_padBytes_x923_iff (h1 : 1 ≤ p) (hle : p ≤ d.length) :
    d.drop (d.length - p) = padBytes p .x923 ↔ ∀ j, d.length - p ≤ j → j < d.length - 1 → d.getD j 0 = 0x00 := by
  obtain rfl | ⟨e, b, rfl⟩ := d.eq_nil_or_concat'
  · rw [List.length_nil] at hle
    omega
  simp only [List.length_append, List.length_singleton, Nat.add_sub_cancel] at hp hle ⊢
  have hb : bytesOf 1 (BitVec.ofNat 8 p) = [b] := by simp [hp, bytesOf]
  rw [padBytes, hb, List.drop_append_of_le_length (by omega), List.append_left_inj, drop_eq_bytesOf_iff (by omega)]
  refine forall₃_congr fun j _ hj => ?_
  rw [List.getD_append _ _ _ _ hj]

end Counted

/-- The check of pkcs7 and x923 accepts the strings that end in a padding of one to `bs` bytes. -/
theorem unpadCounted_eq_ok_iff {d : List Byte} {bs n : Nat} {style : Style} (hs : style = .pkcs7 ∨ style = .x923)
    (h255 : bs ≤ 255) (hle : bs ≤ d.length) :
    unpadCounted d bs style = .ok n ↔
      n < d.length ∧ d.length ≤ n + bs ∧ d.drop n = padBytes (d.length - n) style := by
  obtain ⟨p, hp⟩ : ∃ p, p = (d.getD (d.length - 1) 0).toNat := ⟨_, rfl⟩
  -- a string that ends in a padding gives the padding's length in its last byte
  have hlast (hn : n < d.length) (hbs : d.length ≤ n + bs) (hpad : d.drop n = padBytes (d.length - n) style) :
      p = d.length - n := by
    have hbyte := padBytes_getD_last hs (show 1 ≤ d.length - n by omega)
    rw [← hpad, getD_drop, show n + (d.length - n - 1) = d.length - 1 by omega] at hbyte
    rw [hp, hbyte, BitVec.toNat_ofNat, Nat.mod_eq_of_lt (by omega)]
  by_cases hr : p < 1 ∨ bs < p
  · rw [unpadCounted_of_range hp hr]
    simp only [reduceCtorEq, false_iff]
    rintro ⟨hn, hbs, hpad⟩
    have := hlast hn hbs hpad
    omega
  · rw [unpadCounted_of_le hp (by omega) (by omega)]
    constructor
    · intro h
      split at h
      next hpad =>
        cases h
        rw [show d.length - (d.length - p) = p by omega]
        exact ⟨by omega, by omega, hpad⟩
      next => cases h
    · rintro ⟨hn, hbs, hpad⟩
      have hpn := hlast hn hbs hpad
      rw [hpn, show d.length - (d.length - n) = n by omega, if_pos hpad]

/-! ## The marker of iso7816 and the zeros after it (R148, R149) -/

/-- The marker is the 0x80 with none behind it. -/
theorem lastMarker_eq_some_iff {f : List Byte} {j : Nat} :
    lastMarker f = some j ↔ f.getD j 0 = 0x80 ∧ (0x80 : Byte) ∉ f.drop (j + 1) := by
  induction f generalizing j with
  | nil => simp [lastMarker]
  | cons b f ih =>
    rw [lastMarker]
    cases j with
    | zero =>
      rw [List.getD_cons_zero, List.drop_succ_cons, List.drop_zero, ← lastMarker_eq_none]
      cases lastMarker f <;> simp
    | succ j =>
      rw [List.getD_cons_succ, List.drop_succ_cons, ← ih]
      cases lastMarker f with
      | some i => simp
      | none => by_cases hb : b = 0x80 <;> simp [hb]

/-- The padding of iso7816 is the marker and zeros. -/
theorem drop_eq_padBytes_iso7816_iff {d : List Byte} {n : Nat} (hn : n < d.length) :
    d.drop n = padBytes (d.length - n) .iso7816 ↔ d.getD n 0 = 0x80 ∧ ∀ b ∈ d.drop (n + 1), b = 0x00 := by
  have hpad : padBytes (d.length - n) .iso7816 = 0x80 :: bytesOf (d.length - n - 1) 0x00 := rfl
  rw [hpad, List.drop_eq_getElem_cons hn, List.cons.injEq, List.getD_eq_getElem _ _ hn, bytesOf, List.eq_replicate_iff,
    List.length_drop, Nat.sub_sub, and_iff_right rfl]

section Marked

variable {d : List Byte} {bs : Nat}

theorem unpadMarked_of_noMarker (h : (0x80 : Byte) ∉ d.drop (d.length - bs)) :
    unpadMarked d bs = .error .noMarker := by
  rw [unpadMarked, lastMarker_eq_none.mpr h]

/-- The marker of the final block, at index `j` of the string, ends the data if only zeros follow. -/
theorem unpadMarked_of_marker {j : Nat} (hle : bs ≤ d.length) (hj : d.length - bs ≤ j) (hlt : j < d.length)
    (h80 : d.getD j 0 = 0x80) (hlast : (0x80 : Byte) ∉ d.drop (j + 1)) :
    unpadMarked d bs = if ∀ b ∈ d.drop (j + 1), b = 0x00 then .ok j else .error .markerTrail := by
  obtain ⟨i, rfl⟩ := Nat.exists_eq_add_of_le hj
  have hmark : lastMarker (d.drop (d.length - bs)) = some i := by
    rw [lastMarker_eq_some_iff, getD_drop, List.drop_drop]
    exact ⟨h80, hlast⟩
  have htrail : (d.drop (d.length - bs + (i + 1))).any (fun b => b != 0x00) = true ↔
      ¬ ∀ b ∈ d.drop (d.length - bs + i + 1), b = 0x00 := by
    simp [Nat.add_assoc]
  simp only [unpadMarked, hmark, List.drop_drop, htrail, ite_not, show d.length - (bs - i) = d.length - bs + i by omega]

/-- The check of iso7816 accepts the strings that end in a padding of one to `bs` bytes. -/
theorem unpadMarked_eq_ok_iff {n : Nat} (hle : bs ≤ d.length) :
    unpadMarked d bs = .ok n ↔
      n < d.length ∧ d.length ≤ n + bs ∧ d.drop n = padBytes (d.length - n) .iso7816 := by
  constructor
  · intro h
    cases hm : lastMarker (d.drop (d.length - bs)) with
    | none =>
      rw [unpadMarked_of_noMarker (lastMarker_eq_none.mp hm)] at h
      cases h
    | some i =>
      have hlt := lastMarker_lt hm
      rw [List.length_drop] at hlt
      obtain ⟨h80, hlast⟩ := lastMarker_eq_some_iff.mp hm
      rw [getD_drop] at h80
      rw [List.drop_drop, ← Nat.add_assoc] at hlast
      rw [unpadMarked_of_marker hle (Nat.le_add_right _ _) (by omega) h80 hlast] at h
      split at h
      next hzero =>
        cases h
        exact ⟨by omega, by omega, (drop_eq_padBytes_iso7816_iff (by omega)).mpr ⟨h80, hzero⟩⟩
      next => cases h
  · rintro ⟨hn, hbs, hpad⟩
    obtain ⟨h80, hzero⟩ := (drop_eq_padBytes_iso7816_iff hn).mp hpad
    rw [unpadMarked_of_marker hle (by omega) hn h80 (fun h => absurd (hzero _ h) (by decide)), if_pos hzero]

end Marked

end Sys2Proof.Machine
end

section
/-! The statements about the padding functions (40_padding.md), settled. -/

namespace Sys2Proof.Machine

/-- Settles O51: the check of each style accepts the strings that end in its padding. -/
theorem unpadAcceptsExactlyThePadded : Obligations.UnpadAcceptsExactlyThePadded := by
  intro d bs style n h1 h255 hs
  -- past the checks of R144, the two padding checks
  have hpadded (h0 : d.length ≠ 0) (hm : d.length % bs = 0) :
      unpadFn d bs style = .ok n ↔ n < d.length ∧ d.length ≤ n + bs ∧ d.drop n = padBytes (d.length - n) style := by
    have hle : bs ≤ d.length := Nat.le_of_dvd (by omega) (Nat.dvd_of_mod_eq_zero hm)
    cases style with
    | pkcs7 => rw [unpadFn_eq_unpadCounted h1 h255 h0 hm (.inl rfl), unpadCounted_eq_ok_iff (.inl rfl) h255 hle]
    | x923 => rw [unpadFn_eq_unpadCounted h1 h255 h0 hm (.inr rfl), unpadCounted_eq_ok_iff (.inr rfl) h255 hle]
    | iso7816 => rw [unpadFn_eq_unpadMarked h1 h255 h0 hm, unpadMarked_eq_ok_iff hle]
    | unrecognized => exact absurd rfl hs
  have hsplit : d = d.take n ++ padBytes (d.length - n) style ↔ d.drop n = padBytes (d.length - n) style := by
    conv_lhs => lhs; rw [← List.take_append_drop n d]
    exact List.append_right_inj _
  rw [hsplit]
  constructor
  · intro h
    obtain ⟨-, -, hm, hn, -⟩ := unpadFn_ok h
    exact ⟨by omega, hm, (hpadded (by omega) hm).mp h⟩
  · rintro ⟨h0, hm, h⟩
    exact (hpadded h0 hm).mpr h

/-- Settles O50: the output of PAD_FN is the data and a padding UNPAD_FN accepts. -/
theorem unpadInvertsPad : Obligations.UnpadInvertsPad := by
  intro d bs style h1 h255 hs
  obtain ⟨hlo, hhi⟩ := padLen_bounds d.length h1
  have hlen := padBytes_length hlo hs
  refine ⟨_, padFn_eq_ok_iff.mpr ⟨h1, h255, hs, rfl⟩, (unpadAcceptsExactlyThePadded _ bs style _ h1 h255 hs).mpr ?_⟩
  rw [List.length_append, hlen, Nat.add_sub_cancel_left, List.take_left]
  exact ⟨by omega, padLen_mod d.length h1, by omega, by omega, rfl⟩

/-- Settles O52: the checks in order, and the pattern of each style read byte by byte. -/
theorem unpadCountedPaddings : Obligations.UnpadCountedPaddings := by
  intro d bs
  refine ⟨unpadFn_of_blockSize, fun h1 h255 => ⟨unpadFn_unrecognized h1 h255, fun h style hs =>
    unpadFn_of_unpadLen h1 h255 hs h, fun h0 hm p hp => ?_⟩⟩
  have hle : bs ≤ d.length := Nat.le_of_dvd (by omega) (Nat.dvd_of_mod_eq_zero hm)
  rw [unpadFn_eq_unpadCounted h1 h255 h0 hm (.inl rfl), unpadFn_eq_unpadCounted h1 h255 h0 hm (.inr rfl)]
  refine ⟨fun h => ⟨unpadCounted_of_range hp h, unpadCounted_of_range hp h⟩, fun hp1 hpbs => ?_⟩
  rw [unpadCounted_of_le hp hp1 hpbs, unpadCounted_of_le hp hp1 hpbs]
  have hpkcs7 := drop_eq_padBytes_pkcs7_iff hp (by omega)
  have hx923 := drop_eq_padBytes_x923_iff hp hp1 (by omega)
  refine ⟨?_, fun h => if_pos (hpkcs7.mpr h), ?_, fun h => if_pos (hx923.mpr h)⟩
  · rintro ⟨j, hlo, hhi, hj⟩
    exact if_neg fun hpad => hj (hpkcs7.mp hpad j hlo hhi)
  · rintro ⟨j, hlo, hhi, hj⟩
    exact if_neg fun hpad => hj (hx923.mp hpad j hlo hhi)

/-- Settles O53: no marker in the final block, or the marker and what follows it. -/
theorem unpadMarkedPaddings : Obligations.UnpadMarkedPaddings := by
  intro d bs h1 h255 h0 hm
  have hle : bs ≤ d.length := Nat.le_of_dvd (by omega) (Nat.dvd_of_mod_eq_zero hm)
  rw [unpadFn_eq_unpadMarked h1 h255 h0 hm]
  refine ⟨fun h => ?_, fun j hj hlt h80 hlast => ?_⟩
  · exact unpadMarked_of_noMarker (List.forall_mem_ne'.mp (forall_mem_drop_iff.mpr h))
  · have hlast' := List.forall_mem_ne'.mp (forall_mem_drop_iff.mpr hlast)
    rw [unpadMarked_of_marker hle hj hlt h80 hlast']
    constructor
    · rintro ⟨i, hlo, hhi, hi⟩
      exact if_neg fun hzero => hi (forall_mem_drop_iff.mp hzero i hlo hhi)
    · exact fun h => if_pos (forall_mem_drop_iff.mpr h)

/-- Settles O49: PAD_FN answers exactly past its two checks, and the length is that of the data and the padding. -/
theorem padFnAppendsThePadding : Obligations.PadFnAppendsThePadding := by
  intro d bs
  refine ⟨fun h1 h255 => ?_, padFn_of_blockSize, fun style out h => ?_⟩
  · have hok {style : Style} (hs : style ≠ .unrecognized) : padFn d bs style = .ok (d ++ padBytes _ style) :=
      padFn_eq_ok_iff.mpr ⟨h1, h255, hs, rfl⟩
    exact ⟨hok (by decide), hok (by decide), hok (by decide), padFn_unrecognized h1 h255⟩
  · obtain ⟨h1, -, hs, rfl⟩ := padFn_eq_ok_iff.mp h
    rw [List.length_append, padBytes_length (padLen_bounds d.length h1).1 hs]
    exact ⟨rfl, padLen_mod d.length h1⟩

end Sys2Proof.Machine
end

section
/-! SUPPORT. The big-endian words of a byte string: packing and unpacking invert each other, and which byte holds a
bit (00_scope.md R17). Bit `i` here counts from 0 at the most significant bit. -/

namespace Sys2Proof.Machine

theorem be32_be32inv (w : Word) : be32 (be32inv w) = w := laneWord_laneBytes w

theorem be32inv_be32 (a b c d : Byte) (bs : List Byte) : be32inv (be32 (a :: b :: c :: d :: bs)) = [a, b, c, d] := by
  simp only [be32inv, be32, List.getD_cons_zero, List.getD_cons_succ, List.cons.injEq, and_true]
  refine ⟨?_, ?_, ?_, ?_⟩ <;> apply BitVec.eq_of_toNat_eq <;>
    simp only [toNat_append_eq_add, BitVec.extractLsb'_toNat, Nat.shiftRight_eq_div_pow] <;> omega

theorem append_halves (v : BitVec 64) : (v.extractLsb' 32 32 ++ v.extractLsb' 0 32 : BitVec (32 + 32)) = v :=
  (BitVec.extractLsb'_append_extractLsb'_eq_extractLsb' rfl).trans BitVec.extractLsb'_eq_self

theorem be64_be64inv (v : BitVec 64) : be64 (be64inv v) = v :=
  calc be64 (be64inv v)
    _ = (be32 (be32inv (v.extractLsb' 32 32)) ++ be32 (be32inv (v.extractLsb' 0 32)) : BitVec (32 + 32)) := rfl
    _ = v := by rw [be32_be32inv, be32_be32inv, append_halves]

theorem be64inv_be64 {b : List Byte} (h : b.length = 8) : be64inv (be64 b) = b := by
  match b, h with
  | [b0, b1, b2, b3, b4, b5, b6, b7], _ =>
    rw [be64inv, be64, BitVec.extractLsb'_append_eq_left, BitVec.extractLsb'_append_eq_right]
    exact congrArg₂ (· ++ ·) (be32inv_be32 b0 b1 b2 b3 _) (be32inv_be32 b4 b5 b6 b7 [])

theorem be32_getMsbD (b : List Byte) {i : Nat} (h : i < 32) :
    (be32 b).getMsbD i = (b.getD (i / 8) 0).getMsbD (i % 8) := by
  simp only [be32, BitVec.getMsbD_append]
  split_ifs <;> congr 2 <;> omega

theorem be64_getMsbD (b : List Byte) {i : Nat} (h : i < 64) :
    (be64 b).getMsbD i = (b.getD (i / 8) 0).getMsbD (i % 8) := by
  rw [be64, BitVec.getMsbD_append]
  split
  · rw [be32_getMsbD _ (by omega), getD_drop, show 4 + (i - 32) / 8 = i / 8 by omega,
      show (i - 32) % 8 = i % 8 by omega]
  · exact be32_getMsbD b (by omega)

/-- Bytes that agree above their least significant bit agree in each of these bits. -/
theorem getMsbD_eq_of_ushiftRight_eq {x y : Byte} (h : x >>> 1 = y >>> 1) {r : Nat} (hr : r < 7) :
    x.getMsbD r = y.getMsbD r := by
  have hbit := congrArg (BitVec.getMsbD · (r + 1)) h
  simpa [BitVec.getMsbD_ushiftRight, show r + 1 < 8 by omega] using hbit

end Sys2Proof.Machine
end

section
/-! SUPPORT. DES: what PERM selects, the Feistel network undone by the reversed subkeys, and the subkeys of the
schedule in closed form (41_des.md R181 to R195). -/

namespace Sys2Proof.Machine

/-! ## PERM (00_scope.md R17) -/

theorem perm_getMsbD {m n : Nat} {t : List Nat} (ht : t.length = m) (v : BitVec n) {i : Nat} (hi : i < m) :
    (perm m t v).getMsbD i = v.getMsbD (t.getD i 0 - 1) := by
  subst ht
  simp [perm, BitVec.getMsbD_setWidth, hi]

/-- PERM reads only the bits its table names. -/
theorem perm_congr {m n : Nat} {t : List Nat} {v v' : BitVec n}
    (h : ∀ j ∈ t, v.getMsbD (j - 1) = v'.getMsbD (j - 1)) : perm m t v = perm m t v' := by
  rw [perm, perm, List.map_congr_left h]

/-- Permuting by `t` and then by `u` changes nothing if each entry of `u` names the place in `t` of its own index. -/
theorem perm_perm_eq_self {n : Nat} {t u : List Nat} (ht : t.length = n) (hu : u.length = n)
    (htu : ∀ i, i < n → u.getD i 0 - 1 < n ∧ t.getD (u.getD i 0 - 1) 0 - 1 = i) (v : BitVec n) :
    perm n u (perm n t v) = v := by
  apply BitVec.eq_of_getMsbD_eq
  intro i hi
  obtain ⟨hlt, hid⟩ := htu i hi
  rw [perm_getMsbD hu _ hi, perm_getMsbD ht _ hlt, hid]

theorem perm_tableFP_tableIP (v : BitVec 64) : perm 64 tableFP (perm 64 tableIP v) = v :=
  perm_perm_eq_self (t := tableIP) (u := tableFP) rfl rfl (by decide) v

theorem perm_tableIP_tableFP (v : BitVec 64) : perm 64 tableIP (perm 64 tableFP v) = v :=
  perm_perm_eq_self (t := tableFP) (u := tableIP) rfl rfl (by decide) v

/-! ## The Feistel network (R193, R195) -/

/-- A round on swapped halves undoes the same round, and leaves them swapped. -/
theorem desRound_swap_desRound (lr : BitVec 32 × BitVec 32) (k : BitVec 48) :
    desRound (desRound lr k).swap k = lr.swap := by
  simp [desRound, Prod.swap]

theorem foldl_desRound_reverse (ks : List (BitVec 48)) (lr : BitVec 32 × BitVec 32) :
    ks.reverse.foldl desRound (ks.foldl desRound lr).swap = lr.swap := by
  induction ks generalizing lr with
  | nil => rfl
  | cons k ks ih => rw [List.foldl_cons, List.reverse_cons, List.foldl_concat, ih, desRound_swap_desRound]

/-- The preoutput is the halves swapped, so IP of the output is where the reversed rounds start. -/
theorem desCore64_reverse (v : BitVec 64) (ks : List (BitVec 48)) : desCore64 (desCore64 v ks) ks.reverse = v := by
  have hrounds :=
    foldl_desRound_reverse ks ((perm 64 tableIP v).extractLsb' 32 32, (perm 64 tableIP v).extractLsb' 0 32)
  simp only [Prod.swap] at hrounds
  simp only [desCore64, perm_tableIP_tableFP, BitVec.extractLsb'_append_eq_left, BitVec.extractLsb'_append_eq_right]
  rw [hrounds, append_halves, perm_tableFP_tableIP]

theorem desCore_reverse {b : List Byte} (hb : b.length = 8) (ks : List (BitVec 48)) :
    desCore (desCore b ks) ks.reverse = b := by
  rw [desCore, desCore, be64_be64inv, desCore64_reverse, be64inv_be64 hb]

/-! ## The key schedule (R185, R190) -/

theorem rotateLeft_rotateLeft {w : Nat} (x : BitVec w) (a b : Nat) :
    (x.rotateLeft a).rotateLeft b = x.rotateLeft (a + b) := by
  apply BitVec.eq_of_getMsbD_eq
  intro i hi
  have hlt : (b + i) % w < w := Nat.mod_lt _ (by omega)
  simp only [BitVec.getMsbD_rotateLeft, hi, hlt, decide_true, Bool.true_and, Nat.add_mod_mod, Nat.add_assoc]

theorem desSchedule_length (rs : List Nat) (c d : BitVec 28) : (desSchedule rs c d).length = rs.length := by
  induction rs generalizing c d with
  | nil => rfl
  | cons r rs ih => rw [desSchedule, List.length_cons, ih, List.length_cons]

theorem desSchedule_getD (rs : List Nat) (c d : BitVec 28) {i : Nat} (h : i < rs.length) :
    (desSchedule rs c d).getD i 0 =
      perm 48 tablePC2 (c.rotateLeft (rs.take (i + 1)).sum ++ d.rotateLeft (rs.take (i + 1)).sum) := by
  induction rs generalizing c d i with
  | nil => contradiction
  | cons r rs ih =>
    cases i with
    | zero => simp [desSchedule]
    | succ i =>
      rw [desSchedule, List.getD_cons_succ, ih _ _ (Nat.lt_of_succ_lt_succ h), rotateLeft_rotateLeft,
        rotateLeft_rotateLeft, List.take_succ_cons, List.sum_cons]

/-- PC1 selects no parity bit (R185). -/
theorem tablePC1_skips_parity : ∀ j ∈ tablePC1, j - 1 < 64 ∧ (j - 1) % 8 < 7 := by decide

theorem perm_tablePC1_congr {k k' : List Byte} (h : ∀ j, j < 8 → k.getD j 0 >>> 1 = k'.getD j 0 >>> 1) :
    perm 56 tablePC1 (be64 k) = perm 56 tablePC1 (be64 k') := by
  refine perm_congr fun j hj => ?_
  obtain ⟨hlt, hbit⟩ := tablePC1_skips_parity j hj
  rw [be64_getMsbD k hlt, be64_getMsbD k' hlt]
  exact getMsbD_eq_of_ushiftRight_eq (h _ (by omega)) hbit

end Sys2Proof.Machine
end

section
/-! The statements about DES (41_des.md), settled. -/

namespace Sys2Proof.Machine

/-- Settles O39: both are DES_CORE under a list of subkeys and then under its reverse. -/
theorem desDecryptInvertsEncrypt : Obligations.DesDecryptInvertsEncrypt := by
  intro k b _ hb
  constructor
  · exact desCore_reverse hb (desKS k)
  · have h := desCore_reverse hb (desKS k).reverse
    rwa [List.reverse_reverse] at h

/-- Settles O40, from the two tables. -/
theorem finalPermutationInvertsInitial : Obligations.FinalPermutationInvertsInitial := fun v =>
  ⟨perm_tableFP_tableIP v, perm_tableIP_tableFP v⟩

/-- Settles O41, by the closed form of the schedule. -/
theorem desScheduleIsRotatedHalves : Obligations.DesScheduleIsRotatedHalves := fun _ =>
  ⟨desSchedule_length .., rfl, fun _ hi => desSchedule_getD tableROT _ _ hi⟩

/-- Settles O42: the schedule reads the key through PC1 only. -/
theorem desParityBitsAreIgnored : Obligations.DesParityBitsAreIgnored := by
  intro k k' _ _ h
  rw [desKS, desKS, perm_tablePC1_congr h]

end Sys2Proof.Machine
end

section
/-! SUPPORT. AES: the field product is bilinear and associative, the tables are what the field makes them, and each
round step undoes its inverse and is undone by it (42_aes.md R220 to R224, R229 to R237). -/

namespace Sys2Proof.Machine

/-! ## The field product (R221) -/

/-- What one bit of a factor selects, over a sum of factors. -/
theorem ite_xor_right (p q : Bool) (a : Byte) :
    (if xor p q then a else 0) = (if p then a else 0) ^^^ (if q then a else 0) := by
  cases p <;> cases q <;> simp

theorem ite_xor_left (p : Bool) (a b : Byte) :
    (if p then a ^^^ b else 0) = (if p then a else 0) ^^^ (if p then b else 0) := by
  cases p <;> simp

theorem xtime_xor (a b : Byte) : xtime (a ^^^ b) = xtime a ^^^ xtime b := by
  simp only [xtime, BitVec.msb_xor, ite_xor_right, BitVec.shiftLeft_xor_distrib]
  ac_rfl

@[simp] theorem xtime_zero : xtime 0#8 = 0#8 := by decide

theorem gmulBits_xor (bits : List Bool) (a b : Byte) :
    gmulBits bits (a ^^^ b) = gmulBits bits a ^^^ gmulBits bits b := by
  induction bits generalizing a b with
  | nil => simp [gmulBits]
  | cons bit bits ih =>
    simp only [gmulBits, xtime_xor, ih, ite_xor_left]
    ac_rfl

theorem gmul_xor_left (a b x : Byte) : gmul (a ^^^ b) x = gmul a x ^^^ gmul b x := gmulBits_xor _ a b

theorem gmul_xor_right (a x y : Byte) : gmul a (x ^^^ y) = gmul a x ^^^ gmul a y := by
  simp only [gmul, gmulBits, BitVec.getLsbD_xor, ite_xor_right]
  ac_rfl

@[simp] theorem gmul_zero_left (x : Byte) : gmul 0#8 x = 0#8 := by
  simpa using gmul_xor_left 0 0 x

@[simp] theorem gmul_zero_right (a : Byte) : gmul a 0#8 = 0#8 := by
  simpa using gmul_xor_right a 0 0

@[simp] theorem gmul_one_left : ∀ x : Byte, gmul 1#8 x = x := by decide

/-- `xtime^8` is multiplication by 0x1B, what is left of `x^8` (R220). -/
theorem gmul_0x1B (a : Byte) : gmul a 0x1B = xtime^[8] a := by
  revert a
  decide

theorem gmulBits_xtime (bits : List Bool) (a : Byte) : gmulBits bits (xtime a) = xtime (gmulBits bits a) := by
  induction bits generalizing a with
  | nil => exact xtime_zero.symm
  | cons bit bits ih =>
    simp only [gmulBits, xtime_xor, ih]
    cases bit <;> simp

/-- Doubling the second factor moves each of its bits up by one, and the top bit out into 0x1B. -/
theorem gmul_xtime (a x : Byte) : gmul a (xtime x) = xtime (gmul a x) := by
  have htop : gmul a (if x.msb then 0x1B else 0x00) = if x.getLsbD 7 then xtime^[8] a else 0 := by
    rw [BitVec.msb_eq_getLsbD_last]
    cases x.getLsbD 7
    · exact gmul_zero_right a
    · exact gmul_0x1B a
  calc gmul a (xtime x)
    _ = gmul a (x <<< 1) ^^^ gmul a (if x.msb then 0x1B else 0x00) := gmul_xor_right ..
    _ = gmul (xtime a) x := by
      rw [htop]
      simp [gmul, gmulBits, BitVec.xor_assoc]
    _ = xtime (gmul a x) := gmulBits_xtime _ a

theorem gmul_gmulBits (bits : List Bool) (a b : Byte) : gmul a (gmulBits bits b) = gmulBits bits (gmul a b) := by
  induction bits generalizing b with
  | nil => exact gmul_zero_right a
  | cons bit bits ih =>
    rw [gmulBits, gmulBits, gmul_xor_right, ih, gmul_xtime]
    cases bit <;> simp

theorem gmul_gmul (a b x : Byte) : gmul a (gmul b x) = gmul (gmul a b) x := gmul_gmulBits _ a b

/-! ## The tables (R222, R223, R224) -/

/-- The affine map of the S-box (R222). -/
def sboxAffine (b : Byte) : Byte :=
  b ^^^ b.rotateLeft 1 ^^^ b.rotateLeft 2 ^^^ b.rotateLeft 3 ^^^ b.rotateLeft 4 ^^^ 0x63

/-- The inverse of the affine map. -/
def sboxAffineInv (y : Byte) : Byte := y.rotateLeft 1 ^^^ y.rotateLeft 3 ^^^ y.rotateLeft 6 ^^^ 0x05

theorem sboxAffine_sboxAffineInv : ∀ y : Byte, sboxAffine (sboxAffineInv y) = y := by decide

theorem sboxAffineInv_sbox_zero : sboxAffineInv (sbox 0) = 0 := by decide

/-- What the affine map takes to `SBOX[x]` is the inverse of `x` in the field. -/
theorem gmul_sboxAffineInv_sbox : ∀ x : Byte, x ≠ 0 → gmul x (sboxAffineInv (sbox x)) = 0x01 := by decide

@[simp] theorem invSbox_sbox : ∀ x : Byte, invSbox (sbox x) = x := by decide

@[simp] theorem sbox_invSbox : ∀ x : Byte, sbox (invSbox x) = x := by decide

theorem rconWord_succ : ∀ i < 10, 1 ≤ i →
    rconWord (i + 1) = (xtime ((rconWord i).extractLsb' 24 8)).setWidth 32 <<< 24 := by decide

/-! ## The round steps (R229 to R237) -/

@[simp] theorem invSubBytes_subBytes (s : AesState) : invSubBytes (subBytes s) = s := by
  simp [invSubBytes, subBytes, aesMapCols, aesColMap]

@[simp] theorem subBytes_invSubBytes (s : AesState) : subBytes (invSubBytes s) = s := by
  simp [invSubBytes, subBytes, aesMapCols, aesColMap]

@[simp] theorem invShiftRows_shiftRows (s : AesState) : invShiftRows (shiftRows s) = s := rfl

@[simp] theorem shiftRows_invShiftRows (s : AesState) : shiftRows (invShiftRows s) = s := rfl

@[simp] theorem addRoundKey_addRoundKey (ws : List Word) (r : Nat) (s : AesState) :
    addRoundKey ws r (addRoundKey ws r s) = s := by
  simp [addRoundKey, aesAddKeyCol]

/-- The product of two circulant matrices is circulant, its first row the first row of one times the other. -/
theorem circulant_circulant (m0 m1 m2 m3 n0 n1 n2 n3 : Byte) (c : AesCol) :
    circulant m0 m1 m2 m3 (circulant n0 n1 n2 n3 c) =
      circulant (gmul m0 n0 ^^^ gmul m1 n3 ^^^ gmul m2 n2 ^^^ gmul m3 n1)
        (gmul m0 n1 ^^^ gmul m1 n0 ^^^ gmul m2 n3 ^^^ gmul m3 n2)
        (gmul m0 n2 ^^^ gmul m1 n1 ^^^ gmul m2 n0 ^^^ gmul m3 n3)
        (gmul m0 n3 ^^^ gmul m1 n2 ^^^ gmul m2 n1 ^^^ gmul m3 n0) c := by
  simp only [circulant, gmul_xor_left, gmul_xor_right, gmul_gmul, AesCol.mk.injEq]
  refine ⟨?_, ?_, ?_, ?_⟩ <;> ac_rfl

theorem circulant_one (c : AesCol) : circulant 0x01 0 0 0 c = c := by
  simp [circulant]

theorem circulant_invMix_mix (c : AesCol) :
    circulant 0x0e 0x0b 0x0d 0x09 (circulant 0x02 0x03 0x01 0x01 c) = c :=
  (circulant_circulant ..).trans (circulant_one c)

theorem circulant_mix_invMix (c : AesCol) :
    circulant 0x02 0x03 0x01 0x01 (circulant 0x0e 0x0b 0x0d 0x09 c) = c :=
  (circulant_circulant ..).trans (circulant_one c)

@[simp] theorem invMixColumns_mixColumns (s : AesState) : invMixColumns (mixColumns s) = s := by
  simp only [invMixColumns, mixColumns, aesMapCols, circulant_invMix_mix]

@[simp] theorem mixColumns_invMixColumns (s : AesState) : mixColumns (invMixColumns s) = s := by
  simp only [invMixColumns, mixColumns, aesMapCols, circulant_mix_invMix]

end Sys2Proof.Machine
end

section
/-! SUPPORT. AES: the inverse cipher undoes the cipher and is undone by it, under any round keys (42_aes.md R229, R234,
R238). -/

namespace Sys2Proof.Machine

/-- The rounds of the cipher with the last round taken off. -/
theorem aesEncRounds_succ (ws : List Word) (n r : Nat) (s : AesState) :
    aesEncRounds ws (n + 1) r s =
      addRoundKey ws (r + n) (mixColumns (shiftRows (subBytes (aesEncRounds ws n r s)))) := by
  induction n generalizing r s with
  | zero => rfl
  | succ n ih => rw [aesEncRounds, ih, Nat.add_right_comm, ← aesEncRounds, Nat.add_assoc]

/-- Between two round keys the inverse cipher stands before the ShiftRows and SubBytes of the round it undoes. -/
theorem aesDecRounds_aesEncRounds (ws : List Word) (n : Nat) (s : AesState) :
    aesDecRounds ws n (shiftRows (subBytes (aesEncRounds ws n 1 s))) = shiftRows (subBytes s) := by
  induction n with
  | zero => rfl
  | succ n ih =>
    rw [aesEncRounds_succ, Nat.add_comm 1 n, aesDecRounds]
    simp [ih]

theorem aesEncRounds_aesDecRounds (ws : List Word) (n : Nat) (s : AesState) :
    aesEncRounds ws n 1 (invSubBytes (invShiftRows (aesDecRounds ws n s))) = invSubBytes (invShiftRows s) := by
  induction n generalizing s with
  | zero => rfl
  | succ n ih =>
    rw [aesEncRounds_succ, Nat.add_comm 1 n, aesDecRounds, ih]
    simp

theorem aesInvCipher_aesCipher (ws : List Word) (nr : Nat) (s : AesState) :
    aesInvCipher ws nr (aesCipher ws nr s) = s := by
  simp [aesInvCipher, aesCipher, aesDecRounds_aesEncRounds]

theorem aesCipher_aesInvCipher (ws : List Word) (nr : Nat) (s : AesState) :
    aesCipher ws nr (aesInvCipher ws nr s) = s := by
  simp [aesInvCipher, aesCipher, aesEncRounds_aesDecRounds]

@[simp] theorem aesLoad_aesStore (s : AesState) : aesLoad (aesStore s) = s := rfl

theorem aesStore_aesLoad {b : List Byte} (h : b.length = 16) : aesStore (aesLoad b) = b := by
  match b, h with
  | [_, _, _, _, _, _, _, _, _, _, _, _, _, _, _, _], _ => rfl

theorem aesDec_aesEnc (key : List Byte) {b : List Byte} (h : b.length = 16) : aesDec key (aesEnc key b) = b := by
  rw [aesDec, aesEnc, aesLoad_aesStore, aesInvCipher_aesCipher, aesStore_aesLoad h]

theorem aesEnc_aesDec (key : List Byte) {b : List Byte} (h : b.length = 16) : aesEnc key (aesDec key b) = b := by
  rw [aesEnc, aesDec, aesLoad_aesStore, aesCipher_aesInvCipher, aesStore_aesLoad h]

end Sys2Proof.Machine
end

section
/-! SUPPORT. The AES key expansion by index: its first words are the key's, and every later word is the recurrence's
(42_aes.md R225 to R227). -/

namespace Sys2Proof.Machine

theorem be32_take (b : List Byte) : be32 (b.take 4) = be32 b := by
  match b with
  | [] | [_] | [_, _] | [_, _, _] | _ :: _ :: _ :: _ :: _ => rfl

theorem aesKeyWords_length (n : Nat) (k : List Byte) : (aesKeyWords n k).length = n := by
  induction n generalizing k with
  | zero => rfl
  | succ n ih => rw [aesKeyWords, List.length_cons, ih]

theorem aesKeyWords_getD {n i : Nat} (h : i < n) (k : List Byte) :
    (aesKeyWords n k).getD i 0 = be32 (slice k (4 * i) (4 * i + 4)) := by
  rw [slice, Nat.add_sub_cancel_left, be32_take]
  induction n generalizing i k with
  | zero => contradiction
  | succ n ih =>
    cases i with
    | zero => rfl
    | succ i =>
      rw [aesKeyWords, List.getD_cons_succ, ih (Nat.lt_of_succ_lt_succ h), List.drop_drop, Nat.mul_succ, Nat.add_comm]

theorem aesExpand_length (nk n : Nat) (done : List Word) : (aesExpand nk n done).length = n + done.length := by
  induction n generalizing done with
  | zero => exact (Nat.zero_add _).symm
  | succ n ih =>
    rw [aesExpand, ih, List.length_cons]
    omega

/-- The expansion keeps the words it has: `w[0 .. i)` read in order of their index. -/
theorem aesExpand_getD_done (nk n : Nat) {done : List Word} {i : Nat} (h : i < done.length) :
    (aesExpand nk n done).reverse.getD i 0 = done.reverse.getD i 0 := by
  induction n generalizing done with
  | zero => rfl
  | succ n ih =>
    rw [aesExpand, ih (List.length_cons ▸ Nat.lt_succ_of_lt h), List.reverse_cons,
      List.getD_append _ _ _ _ (by simpa using h)]

/-- The word `j` before the next one is entry `j - 1`, the newest first. -/
theorem aesExpand_getD_back (nk n : Nat) {done : List Word} {j : Nat} (h0 : 0 < j) (hj : j ≤ done.length) :
    (aesExpand nk n done).reverse.getD (done.length - j) 0 = done.getD (j - 1) 0 := by
  rw [aesExpand_getD_done nk n (by omega), List.getD_reverse _ (by omega)]
  congr 1
  omega

theorem aesExpand_getD_next (nk n : Nat) (done : List Word) :
    (aesExpand nk (n + 1) done).reverse.getD done.length 0 =
      done.getD (nk - 1) 0 ^^^ aesTemp nk done.length (done.getD 0 0) := by
  rw [aesExpand]
  exact aesExpand_getD_back nk n Nat.one_pos (Nat.le_add_left ..)

/-- Every later word, from the word `Nk` before it and the word before it. -/
theorem aesExpand_getD_new {nk : Nat} (hnk : 0 < nk) (n : Nat) {done : List Word} (hdone : nk ≤ done.length) {i : Nat}
    (hlo : done.length ≤ i) (hhi : i < n + done.length) :
    (aesExpand nk n done).reverse.getD i 0 = (aesExpand nk n done).reverse.getD (i - nk) 0 ^^^
      aesTemp nk i ((aesExpand nk n done).reverse.getD (i - 1) 0) := by
  induction n generalizing done with
  | zero => omega
  | succ n ih =>
    rcases Nat.lt_or_eq_of_le hlo with hlt | rfl
    · exact ih (Nat.le_succ_of_le hdone) hlt (by rw [List.length_cons]; omega)
    · rw [aesExpand_getD_next, aesExpand_getD_back nk (n + 1) hnk hdone,
        aesExpand_getD_back nk (n + 1) Nat.one_pos (hnk.trans_le hdone)]

end Sys2Proof.Machine
end

section
/-! The statements about AES (42_aes.md), settled. -/

namespace Sys2Proof.Machine

/-- Settles O45: the two ciphers undo each other round by round, whatever the round keys are. -/
theorem aesDecryptInvertsEncrypt : Obligations.AesDecryptInvertsEncrypt := fun key _ _ hb =>
  ⟨aesDec_aesEnc key hb, aesEnc_aesDec key hb⟩

/-- Settles O46: the expansion starts from the key's words and keeps the words it has. -/
theorem aesKeyExpansionRecurrence : Obligations.AesKeyExpansionRecurrence := by
  intro key nk hkey hnk
  have hdone : (aesKeyWords nk key).reverse.length = nk := by rw [List.length_reverse, aesKeyWords_length]
  have hke : aesKE key = (aesExpand nk (4 * (nk + 6 + 1) - nk) (aesKeyWords nk key).reverse).reverse := by
    rw [aesKE, aesNr, hkey, Nat.mul_div_cancel_left nk (by decide)]
  rw [hke]
  refine ⟨?_, fun i hi => ?_, fun i hlo hhi => ?_⟩
  · rw [List.length_reverse, aesExpand_length, hdone]
    omega
  · rw [aesExpand_getD_done _ _ (by omega), List.reverse_reverse, aesKeyWords_getD hi]
  · exact aesExpand_getD_new (by omega) _ (by omega) (by omega) (by omega)

/-- Settles O47, with the inverse affine map of SBOX[x] as the byte to name. -/
theorem aesTablesAreTheirDefinitions : Obligations.AesTablesAreTheirDefinitions :=
  ⟨fun x => ⟨sboxAffineInv (sbox x), fun h => h ▸ sboxAffineInv_sbox_zero, gmul_sboxAffineInv_sbox x,
      (sboxAffine_sboxAffineInv (sbox x)).symm⟩,
    invSbox_sbox, by decide, fun i hlo hhi => rconWord_succ i hhi hlo⟩

/-- Settles O48, step by step. -/
theorem aesInverseStepsUndoTheSteps : Obligations.AesInverseStepsUndoTheSteps := fun s =>
  ⟨invSubBytes_subBytes s, invShiftRows_shiftRows s, invMixColumns_mixColumns s⟩

end Sys2Proof.Machine
end

section
/-! SUPPORT. 3DES: DES inverts under any key, so the EDE composition does, and the key parts a key of either option
splits into (43_tdes.md R260 to R265). -/

namespace Sys2Proof.Machine

/-! ## Inversion (R196, R265) -/

theorem desDec_desEnc (k : List Byte) {b : List Byte} (hb : b.length = 8) : desDec k (desEnc k b) = b :=
  desCore_reverse hb (desKS k)

theorem desEnc_desDec (k : List Byte) {b : List Byte} (hb : b.length = 8) : desEnc k (desDec k b) = b := by
  have h := desCore_reverse hb (desKS k).reverse
  rwa [List.reverse_reverse] at h

/-- Decryption takes the three parts off in the inverse order (R263), so neighbours cancel, whatever the parts are. -/
theorem tdesDec_tdesEnc (k : List Byte) {b : List Byte} (hb : b.length = 8) : tdesDec k (tdesEnc k b) = b := by
  rw [tdesDec, tdesEnc, desDec_desEnc _ (desDec_length ..), desEnc_desDec _ (desEnc_length ..), desDec_desEnc _ hb]

theorem tdesEnc_tdesDec (k : List Byte) {b : List Byte} (hb : b.length = 8) : tdesEnc k (tdesDec k b) = b := by
  rw [tdesEnc, tdesDec, desEnc_desDec _ (desEnc_length ..), desDec_desEnc _ (desDec_length ..), desEnc_desDec _ hb]

/-! ## The key split (R260, R261) -/

theorem tdesKeys_two {k1 k2 : List Byte} (h1 : k1.length = 8) (h2 : k2.length = 8) :
    tdesKeys (k1 ++ k2) = (k1, k2, k1) := by
  simp [tdesKeys, slice, h1, h2, List.take_of_length_le]

theorem tdesKeys_three {k1 k2 k3 : List Byte} (h1 : k1.length = 8) (h2 : k2.length = 8) (h3 : k3.length = 8) :
    tdesKeys (k1 ++ k2 ++ k3) = (k1, k2, k3) := by
  simp [tdesKeys, slice, h1, h2, h3, List.drop_append, List.take_of_length_le, List.drop_of_length_le]

/-! ## The composition by key parts (R262) -/

theorem tdesEnc_two {k1 k2 : List Byte} (h1 : k1.length = 8) (h2 : k2.length = 8) (b : List Byte) :
    tdesEnc (k1 ++ k2) b = desEnc k1 (desDec k2 (desEnc k1 b)) := by
  rw [tdesEnc, tdesKeys_two h1 h2]

theorem tdesEnc_three {k1 k2 k3 : List Byte} (h1 : k1.length = 8) (h2 : k2.length = 8) (h3 : k3.length = 8)
    (b : List Byte) : tdesEnc (k1 ++ k2 ++ k3) b = desEnc k3 (desDec k2 (desEnc k1 b)) := by
  rw [tdesEnc, tdesKeys_three h1 h2 h3]

end Sys2Proof.Machine
end

section
/-! The statements about 3DES (43_tdes.md), settled. -/

namespace Sys2Proof.Machine

/-- Settles O44: a part next to itself cancels in the composition. -/
theorem tdesInvertsAndDegenerates : Obligations.TdesInvertsAndDegenerates := by
  refine ⟨fun k b _ hb => ⟨tdesDec_tdesEnc k hb, tdesEnc_tdesDec k hb⟩, fun k1 k2 b h1 h2 hb => ⟨?_, ?_, ?_, ?_, ?_⟩⟩
  · rw [tdesEnc_three h1 h1 h2, desDec_desEnc k1 hb]
  · rw [tdesEnc_three h1 h2 h2, desEnc_desDec k2 (desEnc_length ..)]
  · rw [tdesEnc_three h1 h2 h1, tdesEnc_two h1 h2]
  · rw [tdesEnc_three h1 h1 h1, desDec_desEnc k1 hb]
  · rw [tdesEnc_two h1 h1, desDec_desEnc k1 hb]

/-- Settles O43: both ciphers read the key through its parts only. -/
theorem tdesSplitsItsKey : Obligations.TdesSplitsItsKey := by
  intro k1 k2 k3 b h1 h2 h3
  refine ⟨tdesEnc_two h1 h2 b, tdesEnc_three h1 h2 h3 b, ?_, ?_⟩
  · rw [tdesDec, tdesKeys_two h1 h2]
  · rw [tdesDec, tdesKeys_three h1 h2 h3]

end Sys2Proof.Machine
end

section
/-! SUPPORT. The loop of MODE_APPLY block by block: its output blocks, the chaining state between them, what two runs
in a row give, and that decryption takes it back (44_modes.md R282 to R290). -/

namespace Sys2Proof.Machine

/-! ## Blocks of a byte string -/

theorem length_take_blocks {d : List Byte} {bs n : Nat} (h : d.length = (n + 1) * bs) : (d.take bs).length = bs := by
  rw [List.length_take, h, Nat.succ_mul]
  omega

theorem length_drop_blocks {d : List Byte} {bs n : Nat} (h : d.length = (n + 1) * bs) :
    (d.drop bs).length = n * bs := by
  rw [List.length_drop, h, Nat.succ_mul]
  omega

theorem blockAt_zero (bs : Nat) (d : List Byte) : blockAt bs d 0 = d.take bs := by
  rw [blockAt, Nat.zero_mul, List.drop_zero]

theorem blockAt_succ (bs : Nat) (d : List Byte) (i : Nat) : blockAt bs d (i + 1) = blockAt bs (d.drop bs) i := by
  rw [blockAt, blockAt, List.drop_drop, Nat.succ_mul, Nat.add_comm]

theorem previousBlock_zero (bs : Nat) (ch c : List Byte) : previousBlock bs ch c 0 = ch.take bs := rfl

theorem previousBlock_succ (bs : Nat) (ch c : List Byte) (i : Nat) :
    previousBlock bs ch c (i + 1) = blockAt bs c i := rfl

theorem xorBytes_xorBytes {x st : List Byte} (h : x.length = st.length) : xorBytes (xorBytes x st) st = x := by
  refine List.ext_getElem (by simp [h]) fun i _ _ => ?_
  simp [xorBytes]

/-! ## The ciphers (R280) -/

/-- Under every key, of a valid length or not (R196, R239, R265). -/
theorem bcDec_bcEnc (alg : Alg) (k : List Byte) {b : List Byte} (hb : b.length = blockSize alg) :
    bcDec alg k (bcEnc alg k b) = b := by
  cases alg with
  | des => exact desDec_desEnc k hb
  | tdes => exact tdesDec_tdesEnc k hb
  | aes => exact aesDec_aesEnc k hb

section Loop

variable (alg : Alg) (mode : Mode) (k : List Byte) (dir : Dir)

/-! ## Output blocks and the state between them -/

theorem modeLoop_zero (st data : List Byte) : modeLoop alg mode k dir 0 st data = ([], st) := rfl

theorem modeLoop_succ (n : Nat) (st data : List Byte) :
    modeLoop alg mode k dir (n + 1) st data =
      ((modeBlock alg mode k dir st (data.take (blockSize alg))).1 ++
          (modeLoop alg mode k dir n (modeBlock alg mode k dir st (data.take (blockSize alg))).2
            (data.drop (blockSize alg))).1,
        (modeLoop alg mode k dir n (modeBlock alg mode k dir st (data.take (blockSize alg))).2
          (data.drop (blockSize alg))).2) := rfl

/-- The state after one more block is the state that block leaves. -/
theorem modeLoop_state_succ (i : Nat) (st data : List Byte) :
    (modeLoop alg mode k dir (i + 1) st data).2 =
      (modeBlock alg mode k dir (modeLoop alg mode k dir i st data).2 (blockAt (blockSize alg) data i)).2 := by
  induction i generalizing st data with
  | zero => rw [blockAt_zero, modeLoop_succ, modeLoop_zero, modeLoop_zero]
  | succ i ih => rw [blockAt_succ, modeLoop_succ, ih, modeLoop_succ]

/-- Block `i` of the output is that of input block `i`, from the state after the blocks before it. -/
theorem blockAt_modeLoop {n : Nat} {st data : List Byte} (hst : st.length = blockSize alg)
    (hd : data.length = n * blockSize alg) {i : Nat} (hi : i < n) :
    blockAt (blockSize alg) (modeLoop alg mode k dir n st data).1 i =
      (modeBlock alg mode k dir (modeLoop alg mode k dir i st data).2 (blockAt (blockSize alg) data i)).1 := by
  induction n generalizing st data i with
  | zero => omega
  | succ n ih =>
    obtain ⟨hy, hst'⟩ := modeBlock_length alg mode k dir hst (length_take_blocks hd)
    cases i with
    | zero => rw [blockAt_zero, blockAt_zero, modeLoop_succ, List.take_left' hy, modeLoop_zero]
    | succ i =>
      rw [blockAt_succ, blockAt_succ, modeLoop_succ, List.drop_left' hy, modeLoop_succ,
        ih hst' (length_drop_blocks hd) (Nat.lt_of_succ_lt_succ hi)]

/-- ECB does not read the chaining state (R282). -/
theorem modeLoop_ecb_output (n : Nat) (st st' data : List Byte) :
    (modeLoop alg .ecb k dir n st data).1 = (modeLoop alg .ecb k dir n st' data).1 := by
  induction n generalizing st st' data with
  | zero => rfl
  | succ n ih =>
    have hy (x : List Byte) : (modeBlock alg .ecb k dir st x).1 = (modeBlock alg .ecb k dir st' x).1 := by
      cases dir <;> rfl
    rw [modeLoop_succ, modeLoop_succ]
    exact congrArg₂ (· ++ ·) (hy _) (ih ..)

/-- Before block `i` CBC encryption holds the ciphertext block before it (R283, R285). -/
theorem modeLoop_cbc_enc_state {n : Nat} {ch data : List Byte} (hst : (ch.take (blockSize alg)).length = blockSize alg)
    (hd : data.length = n * blockSize alg) {i : Nat} (hi : i ≤ n) :
    (modeLoop alg .cbc k .enc i (ch.take (blockSize alg)) data).2 =
      previousBlock (blockSize alg) ch (modeLoop alg .cbc k .enc n (ch.take (blockSize alg)) data).1 i := by
  cases i with
  | zero => rw [modeLoop_zero, previousBlock_zero]
  | succ i => rw [modeLoop_state_succ, previousBlock_succ, blockAt_modeLoop alg _ k _ hst hd hi, modeBlock]

/-- Before block `i` CBC decryption holds the input block before it (R284, R285). -/
theorem modeLoop_cbc_dec_state (ch data : List Byte) (i : Nat) :
    (modeLoop alg .cbc k .dec i (ch.take (blockSize alg)) data).2 = previousBlock (blockSize alg) ch data i := by
  cases i with
  | zero => rw [modeLoop_zero, previousBlock_zero]
  | succ i => rw [modeLoop_state_succ, previousBlock_succ, modeBlock]

/-! ## Two runs in a row, and the run back -/

/-- The loop "carries only `state` from block to block" (R287). -/
theorem modeLoop_append (n : Nat) {m : Nat} (st : List Byte) {a : List Byte} (b : List Byte)
    (ha : a.length = m * blockSize alg) :
    modeLoop alg mode k dir (m + n) st (a ++ b) =
      ((modeLoop alg mode k dir m st a).1 ++ (modeLoop alg mode k dir n (modeLoop alg mode k dir m st a).2 b).1,
        (modeLoop alg mode k dir n (modeLoop alg mode k dir m st a).2 b).2) := by
  induction m generalizing st a with
  | zero =>
    have : a = [] := by simpa using ha
    rw [this, modeLoop_zero, Nat.zero_add, List.nil_append, List.nil_append]
  | succ m ih =>
    have hle : blockSize alg ≤ a.length := by rw [ha, Nat.succ_mul]; omega
    rw [Nat.succ_add, modeLoop_succ, modeLoop_succ, List.take_append_of_le_length hle,
      List.drop_append_of_le_length hle, ih _ (length_drop_blocks ha), List.append_assoc]

theorem modeBlock_dec_enc {st x : List Byte} (hst : st.length = blockSize alg) (hx : x.length = blockSize alg) :
    modeBlock alg mode k .dec st (modeBlock alg mode k .enc st x).1 = (x, (modeBlock alg mode k .enc st x).2) := by
  cases mode with
  | ecb => simp only [modeBlock, bcDec_bcEnc alg k hx]
  | cbc =>
    have hxor : (xorBytes x st).length = blockSize alg := by simp [hst, hx]
    simp only [modeBlock, bcDec_bcEnc alg k hxor, xorBytes_xorBytes (hx.trans hst.symm)]

/-- Block by block, both directions carry the same state (R290). -/
theorem modeLoop_dec_enc {n : Nat} {st data : List Byte} (hst : st.length = blockSize alg)
    (hd : data.length = n * blockSize alg) :
    modeLoop alg mode k .dec n st (modeLoop alg mode k .enc n st data).1 =
      (data, (modeLoop alg mode k .enc n st data).2) := by
  induction n generalizing st data with
  | zero =>
    have : data = [] := by simpa using hd
    rw [this, modeLoop_zero, modeLoop_zero]
  | succ n ih =>
    have hx := length_take_blocks hd
    obtain ⟨hy, hst'⟩ := modeBlock_length alg mode k .enc hst hx
    rw [modeLoop_succ, modeLoop_succ, List.take_left' hy, List.drop_left' hy,
      modeBlock_dec_enc alg mode k hst hx, ih hst' (length_drop_blocks hd), List.take_append_drop]

/-! ## MODE_APPLY on whole blocks -/

/-- In both modes CHAIN's block is the exit state of the loop, which ECB leaves as it was (R286, R288). -/
theorem modeApply_eq_modeLoop (ch : List Byte) {data : List Byte} (hd : data.length % blockSize alg = 0) :
    modeApply alg mode k dir ch data =
      .ok ((modeLoop alg mode k dir (data.length / blockSize alg) (ch.take (blockSize alg)) data).1,
        (modeLoop alg mode k dir (data.length / blockSize alg) (ch.take (blockSize alg)) data).2 ++
          ch.drop (blockSize alg)) := by
  cases mode with
  | ecb => simp [modeApply, hd, modeLoop_ecb_state]
  | cbc => simp [modeApply, hd]

theorem length_eq_blocks {data : List Byte} (hd : data.length % blockSize alg = 0) :
    data.length = data.length / blockSize alg * blockSize alg :=
  (Nat.div_mul_cancel (Nat.dvd_of_mod_eq_zero hd)).symm

/-- "All cipher transforms consume and produce exactly one Block" (00_scope.md R8), so the loop keeps the length. -/
theorem modeLoop_output_length {st data : List Byte} (hst : st.length = blockSize alg)
    (hd : data.length % blockSize alg = 0) :
    (modeLoop alg mode k dir (data.length / blockSize alg) st data).1.length = data.length :=
  (modeLoop_length alg mode k dir _ hst (length_eq_blocks alg hd)).1.trans (length_eq_blocks alg hd).symm

theorem length_take_chain {ch : List Byte} (hch : ch.length = 16) :
    (ch.take (blockSize alg)).length = blockSize alg := by
  rw [List.length_take, hch, Nat.min_eq_left (blockSize_le alg)]

end Loop

end Sys2Proof.Machine
end

section
/-! The statements about the mode controllers (44_modes.md), settled. -/

namespace Sys2Proof.Machine

/-- Settles O34: the output is the loop's from any chaining state, so from one of a block's length. -/
theorem ecbTransformsEachBlockAlone : Obligations.EcbTransformsEachBlockAlone := by
  intro alg k dir ch data hd
  have hblocks := length_eq_blocks alg hd
  have hst : (bytesOf (blockSize alg) 0).length = blockSize alg := List.length_replicate ..
  refine ⟨(modeLoop alg .ecb k dir (data.length / blockSize alg) (bytesOf (blockSize alg) 0) data).1, ?_, ?_,
    fun i hi => ?_⟩
  · rw [modeApply_eq_modeLoop alg _ k dir ch hd, modeLoop_ecb_state, List.take_append_drop, modeLoop_ecb_output]
  · exact modeLoop_output_length alg .ecb k dir hst hd
  · rw [blockAt_modeLoop alg .ecb k dir hst hblocks hi]
    cases dir <;> rfl

/-- Settles O35: the loop's state before block `i` is the ciphertext block before it. -/
theorem cbcEncryptChains : Obligations.CbcEncryptChains := by
  intro alg k ch data hch hd
  have hblocks := length_eq_blocks alg hd
  have hst := length_take_chain alg hch
  refine ⟨(modeLoop alg .cbc k .enc (data.length / blockSize alg) (ch.take (blockSize alg)) data).1, ?_, ?_,
    fun i hi => ?_⟩
  · rw [modeApply_eq_modeLoop alg _ k _ ch hd, modeLoop_cbc_enc_state alg k hst hblocks (Nat.le_refl _)]
  · exact modeLoop_output_length alg .cbc k .enc hst hd
  · rw [← modeLoop_cbc_enc_state alg k hst hblocks (Nat.le_of_lt hi),
      blockAt_modeLoop alg .cbc k .enc hst hblocks hi, modeBlock]

/-- Settles O36: the loop's state before block `i` is the input block before it. -/
theorem cbcDecryptChains : Obligations.CbcDecryptChains := by
  intro alg k ch data hch hd
  have hblocks := length_eq_blocks alg hd
  have hst := length_take_chain alg hch
  refine ⟨(modeLoop alg .cbc k .dec (data.length / blockSize alg) (ch.take (blockSize alg)) data).1, ?_, ?_,
    fun i hi => ?_⟩
  · rw [modeApply_eq_modeLoop alg _ k _ ch hd, modeLoop_cbc_dec_state]
  · exact modeLoop_output_length alg .cbc k .dec hst hd
  · rw [← modeLoop_cbc_dec_state alg k, blockAt_modeLoop alg .cbc k .dec hst hblocks hi, modeBlock]

/-- Settles O37: the second call starts from the loop's state after `A`, so the two loops are one. -/
theorem streamingIsOneCall : Obligations.StreamingIsOneCall := by
  intro alg mode k dir ch a b hch ha hb
  have hst : (modeLoop alg mode k dir (a.length / blockSize alg) (ch.take (blockSize alg)) a).2.length =
      blockSize alg :=
    (modeLoop_length alg mode k dir _ (length_take_chain alg hch) (length_eq_blocks alg ha)).2
  have hab : (a ++ b).length % blockSize alg = 0 := by rw [List.length_append, Nat.add_mod, ha, hb, Nat.zero_mod]
  have hdiv : (a ++ b).length / blockSize alg = a.length / blockSize alg + b.length / blockSize alg := by
    rw [List.length_append, Nat.add_div_of_dvd_right (Nat.dvd_of_mod_eq_zero ha)]
  refine ⟨_, _, _, _, modeApply_eq_modeLoop alg mode k dir ch ha, modeApply_eq_modeLoop alg mode k dir _ hb, ?_⟩
  rw [modeApply_eq_modeLoop alg mode k dir ch hab, hdiv, modeLoop_append alg mode k dir _ _ b (length_eq_blocks alg ha),
    List.take_left' hst, List.drop_left' hst]

/-- Settles O38: the ciphertext has as many blocks as the data, and the loop decrypts it from the same state. -/
theorem decryptionInvertsEncryption : Obligations.DecryptionInvertsEncryption := by
  intro alg mode k ch data _ hch hd
  have hst := length_take_chain alg hch
  have hout := modeLoop_output_length alg mode k .enc hst hd
  refine ⟨_, _, modeApply_eq_modeLoop alg mode k .enc ch hd, ?_⟩
  rw [modeApply_eq_modeLoop alg mode k .dec ch (by rw [hout, hd]), hout,
    modeLoop_dec_enc alg mode k hst (length_eq_blocks alg hd)]

end Sys2Proof.Machine
end

section
/-! SUPPORT. Which words DECODE refuses: the masks of the opcode table as the must-be-zero fields they cover, and the
detail of each refused word (30_encoding.md R112, R120, R121, R123). -/

namespace Sys2Proof

/-! ## The must-be-zero fields of a row (R112) -/

theorem eq_zero_iff_fields {w : Word} :
    w = 0 ↔ Word.alg w = 0 ∧ Word.mode w = 0 ∧ Word.ivp w = 0 ∧ Word.bs w = 0 ∧ Word.style w = 0 ∧
      Word.keylen w = 0 ∧ Word.ivlen w = 0 ∧ Word.rsv w = 0 ∧ Word.opc w = 0 := by
  constructor
  · rintro rfl
    decide
  · rintro ⟨halg, hmode, hivp, hbs, hstyle, hkeylen, hivlen, hrsv, hopc⟩
    rw [← packWord_fields w, halg, hmode, hivp, hbs, hstyle, hkeylen, hivlen, hrsv, hopc]
    rfl

/-- A mask keeps or clears each field of a word apart. -/
theorem and_eq_zero_iff_fields {w m : Word} :
    w &&& m = 0 ↔
      Word.alg w &&& Word.alg m = 0 ∧ Word.mode w &&& Word.mode m = 0 ∧ Word.ivp w &&& Word.ivp m = 0 ∧
        Word.bs w &&& Word.bs m = 0 ∧ Word.style w &&& Word.style m = 0 ∧ Word.keylen w &&& Word.keylen m = 0 ∧
        Word.ivlen w &&& Word.ivlen m = 0 ∧ Word.rsv w &&& Word.rsv m = 0 ∧ Word.opc w &&& Word.opc m = 0 := by
  rw [eq_zero_iff_fields]
  simp only [Word.alg, Word.mode, Word.ivp, Word.bs, Word.style, Word.keylen, Word.ivlen, Word.rsv, Word.opc,
    BitVec.extractLsb'_and]

/-- The bits of a row's mask above the OPC are those of the row's must-be-zero fields. -/
theorem mask_eq_packWord (r : OpcodeRow) (hr : r ∈ opcodeTable) :
    r.mask &&& ~~~(0xF : Word) =
      if r.opc = 0x1 then packWord (.allOnes 3) 0 0 (.allOnes 2) (.allOnes 8) 0 0 0 0
      else if r.opc = 0x4 ∨ r.opc = 0x5 then
        packWord (.allOnes 3) (.allOnes 5) (.allOnes 6) 0 0 (.allOnes 1) (.allOnes 1) (.allOnes 2) 0
      else if r.opc = 0x6 then packWord (.allOnes 3) 0 0 (.allOnes 2) 0 0 (.allOnes 1) (.allOnes 2) 0
      else packWord (.allOnes 3) (.allOnes 5) (.allOnes 6) (.allOnes 2) (.allOnes 8) (.allOnes 1) (.allOnes 1)
        (.allOnes 2) 0 := by
  revert r
  decide

/-- A word selects a row of its own OPC. -/
theorem opc_of_rowOf {opc : BitVec 4} {r : OpcodeRow} (h : rowOf opc = some r) : r ∈ opcodeTable ∧ r.opc = opc :=
  ⟨List.mem_of_find?_eq_some h, by simpa using List.find?_some h⟩

/-- The check of DECODE's mask is that of the row's must-be-zero fields (R112, R121). -/
theorem mustBeZero_iff_of_row {w : Word} {r : OpcodeRow} (h : rowOf (Word.opc w) = some r) :
    Machine.mustBeZero w ↔ w &&& r.mask &&& ~~~(0xF : Word) = 0 := by
  obtain ⟨hr, hopc⟩ := opc_of_rowOf h
  rw [BitVec.and_assoc, mask_eq_packWord r hr, hopc, Machine.mustBeZero]
  split_ifs <;> rw [and_eq_zero_iff_fields] <;> simp [-BitVec.reduceAllOnes]

/-! ## The refused words (R120, R121, R123) -/

theorem rowOf_eq_none_iff {opc : BitVec 4} : rowOf opc = none ↔ ¬ Machine.namesCommand opc := by
  revert opc
  decide

theorem decode_of_badOpc {w : Word} (h : ¬ Machine.namesCommand (Word.opc w)) : decode w = .illegal .badOpc := by
  simp only [decode, rowOf_eq_none_iff.mpr h]

theorem decode_of_reservedField {w : Word} (h : Machine.namesCommand (Word.opc w)) (hz : ¬ Machine.mustBeZero w) :
    decode w = .illegal .reservedField := by
  obtain ⟨r, hr⟩ := Option.ne_none_iff_exists'.mp fun hn => rowOf_eq_none_iff.mp hn h
  simp only [decode, hr]
  exact if_pos fun hmask => hz ((mustBeZero_iff_of_row hr).mpr hmask)

theorem decode_of_mustBeZero {w : Word} (h : Machine.namesCommand (Word.opc w)) (hz : Machine.mustBeZero w) :
    decode w = decodeOperands (Word.opc w) w := by
  obtain ⟨r, hr⟩ := Option.ne_none_iff_exists'.mp fun hn => rowOf_eq_none_iff.mp hn h
  simp only [decode, hr]
  exact if_neg (not_not.mpr ((mustBeZero_iff_of_row hr).mp hz))

/-- ALG = 3 names no algorithm (R113). -/
theorem decodeOperands_init_of_reserved {w : Word} (h : Word.alg w = 3) :
    decodeOperands 0x1 w = .illegal .badAlg := by
  simp only [decodeOperands, if_true, h]
  rfl

/-- Every other code of ALG names one, and the operand fields of the other commands are legal as they stand. -/
theorem exists_decodeOperands_eq_cmd {opc : BitVec 4} {w : Word} (h : Machine.namesCommand opc)
    (halg : ¬ (opc = 0x1 ∧ Word.alg w = 3)) : ∃ i, decodeOperands opc w = .cmd i := by
  have hopc : ∀ opc : BitVec 4, Machine.namesCommand opc →
      opc = 1 ∨ opc = 2 ∨ opc = 3 ∨ opc = 4 ∨ opc = 5 ∨ opc = 6 ∨ opc = 7 := by decide
  have hcode : ∀ c : BitVec 2, c ≠ 3 → (Alg.ofCode c).isSome := by decide
  rcases hopc opc h with rfl | rfl | rfl | rfl | rfl | rfl | rfl
  · obtain ⟨alg, ha⟩ := Option.isSome_iff_exists.mp (hcode (Word.alg w) fun h3 => halg ⟨rfl, h3⟩)
    exact ⟨_, decodeOperands_init_eq_cmd_iff.mpr ⟨alg, Alg.ofCode_eq_some_iff.mp ha, rfl⟩⟩
  all_goals exact ⟨_, rfl⟩

theorem decode_eq_illegal_iff {w : Word} :
    (∃ d, decode w = .illegal d) ↔
      ¬ Machine.namesCommand (Word.opc w) ∨ ¬ Machine.mustBeZero w ∨ (Word.opc w = 0x1 ∧ Word.alg w = 3) := by
  by_cases hnames : Machine.namesCommand (Word.opc w)
  swap
  · exact iff_of_true ⟨_, decode_of_badOpc hnames⟩ (.inl hnames)
  by_cases hz : Machine.mustBeZero w
  swap
  · exact iff_of_true ⟨_, decode_of_reservedField hnames hz⟩ (.inr (.inl hz))
  rw [decode_of_mustBeZero hnames hz]
  by_cases halg : Word.opc w = 0x1 ∧ Word.alg w = 3
  · exact iff_of_true ⟨_, by rw [halg.1, decodeOperands_init_of_reserved halg.2]⟩ (.inr (.inr halg))
  · obtain ⟨i, hi⟩ := exists_decodeOperands_eq_cmd hnames halg
    simpa [hi, hnames, hz] using halg

end Sys2Proof
end

section
/-! SUPPORT. When a command passes its configuration checks, what it then does, and the operands its windows give
(45_commands.md R300 to R307, 60_exceptions.md R346). -/

namespace Sys2Proof.Machine

/-! ## Past the configuration checks -/

theorem planOf_of_checks {i : Instr} {s : State} (h : firstFailing (configChecks i s) = none) :
    planOf i s = dataPlan i s := by
  simp only [planOf, afterChecks, h]

/-- A command that succeeds has passed its configuration checks. -/
theorem checks_of_ruleOf_commit {i : Instr} {s t : State} (h : ruleOf i s = .commit t) :
    firstFailing (configChecks i s) = none := by
  obtain ⟨e, he, -⟩ := ruleOf_commit h
  cases hf : firstFailing (configChecks i s) with
  | none => rfl
  | some d => simp only [planOf, afterChecks, hf, reduceCtorEq] at he

/-- A next state without STATUS.ERR is that of a command whose rule committed. -/
theorem exec_succeeds {i : Instr} {s t : State} (h : exec i s = .next t) (hok : statusErr t.status = 0) :
    ∃ t', ruleOf i s = .commit t' ∧ t = reportSuccess i.opc t' := by
  rcases exec_next h with hc | ⟨d, -, rfl⟩
  · exact hc
  · rw [reportError_status, failWord_err] at hok
    cases hok

/-- Two commands of one OPC with the same plan have the same outcome. -/
theorem exec_congr {i i' : Instr} {s : State} (hopc : i.opc = i'.opc) (hplan : planOf i s = planOf i' s) :
    exec i s = exec i' s := by
  rw [exec_eq_plan, exec_eq_plan, hopc, hplan]

section Checks

variable {s : State} {bs keylen ivlen : Nat} {style : Style} {ivp : Bool}

theorem init_checks_iff {alg : Alg} {mode : Mode} :
    firstFailing (configChecks (.init alg mode ivp keylen ivlen) s) = none ↔
      keylen ∈ keySet alg ∧ (mode = .cbc → ivp = true → ivlen = blockSize alg) := by
  simp [firstFailing, configChecks]

theorem cipher_checks_iff {i : Instr} (hi : i = .encrypt ∨ i = .decrypt) :
    firstFailing (configChecks i s) = none ↔
      s.ctx.valid = true ∧ dataLen s % blockSize s.ctx.alg = 0 ∧ dataLen s ≤ s.cfg.bufSize := by
  rcases hi with rfl | rfl <;> simp [firstFailing, configChecks, dataLen]

theorem pad_checks_iff :
    firstFailing (configChecks (.pad bs style) s) = none ↔
      (1 ≤ bs ∧ bs ≤ 255) ∧ style ≠ .unrecognized ∧ dataLen s ≤ s.cfg.bufSize ∧
        dataLen s + padLen (dataLen s) bs ≤ s.cfg.bufSize := by
  simp [firstFailing, configChecks, dataLen, padLen]

theorem unpad_checks_iff :
    firstFailing (configChecks (.unpad bs style) s) = none ↔
      (1 ≤ bs ∧ bs ≤ 255) ∧ style ≠ .unrecognized ∧ (dataLen s ≠ 0 ∧ dataLen s % bs = 0) ∧
        dataLen s ≤ s.cfg.bufSize := by
  simp [firstFailing, configChecks, dataLen]

theorem decryptUnpad_checks_iff :
    firstFailing (configChecks (.decryptUnpad ivp bs keylen ivlen) s) = none ↔
      keylen ∈ keySet .aes ∧ (ivp = true → ivlen = 16) ∧ dataLen s % 16 = 0 ∧ dataLen s ≤ s.cfg.bufSize ∧
        (1 ≤ bs ∧ bs ≤ 255) ∧ dataLen s ≠ 0 ∧ dataLen s % bs = 0 := by
  simp [firstFailing, configChecks, dataLen]

end Checks

/-! ## Operands -/

theorem keyRead_of_holds {s : State} {key : List Byte} (h : s.keyIn.holds 0 key) :
    keyRead s key.length = some key :=
  (Memory.read_eq_some_iff ..).mpr ⟨rfl, h⟩

/-- The IV a command starts from is read from IV_IN or is zero (45_commands.md R301, R306). -/
theorem ivOrZero_of_holds {s : State} {r : Bool} {n : Nat} {iv : List Byte} (hlen : iv.length = n)
    (hread : r = true → s.ivIn.holds 0 iv) (hzero : r = false → iv = bytesOf n 0) : ivOrZero s r n = some iv := by
  cases r with
  | false => rw [hzero rfl]; rfl
  | true => exact (Memory.read_eq_some_iff ..).mpr ⟨hlen, hread rfl⟩

theorem memRead_of_holds {s : State} {a : Nat} {data : List Byte} (h : s.dbuf.holds a data) :
    memRead s a data.length = some data :=
  (Memory.read_eq_some_iff ..).mpr ⟨rfl, h⟩

/-- Two byte strings stand one behind the other exactly when their concatenation stands. -/
theorem Memory.holds_append_iff {m : Memory} {a : Nat} {b c : List Byte} :
    m.holds a (b ++ c) ↔ m.holds a b ∧ m.holds (a + b.length) c := by
  constructor
  · refine fun h => ⟨fun j hj => ?_, fun j hj => ?_⟩
    · rw [h j (by simp; omega), List.getD_append _ _ _ _ hj]
    · rw [Nat.add_assoc, h (b.length + j) (by simp; omega), List.getD_append_right _ _ _ _ (by omega),
        Nat.add_sub_cancel_left]
  · rintro ⟨hb, hc⟩ j hj
    rcases Nat.lt_or_ge j b.length with hlt | hge
    · rw [hb j hlt, List.getD_append _ _ _ _ hlt]
    · obtain ⟨i, rfl⟩ := Nat.exists_eq_add_of_le hge
      rw [← Nat.add_assoc, hc i (by simpa using hj), List.getD_append_right _ _ _ _ hge, Nat.add_sub_cancel_left]

/-- A run stored behind a byte string leaves it standing. -/
theorem Memory.write_holds_before {m : Memory} {a a' : Nat} {b : List Byte} (h : m.holds a b)
    (hle : a + b.length ≤ a') (s : List Byte) : (Memory.write m a' s).holds a b := fun j hj =>
  (Memory.get_write_outside m a' s (by omega)).trans (h j hj)

/-- The last `n` bytes of a string just stored. -/
theorem Memory.read_write_drop (m : Memory) (b : List Byte) {n : Nat} (h : n ≤ b.length) :
    Memory.read (Memory.write m 0 b) (b.length - n) n = some (b.drop (b.length - n)) := by
  refine (Memory.read_eq_some_iff ..).mpr ⟨by rw [List.length_drop]; omega, ?_⟩
  have hsplit : (Memory.write m 0 b).holds 0 (b.take (b.length - n) ++ b.drop (b.length - n)) := by
    rw [List.take_append_drop]
    exact Memory.write_holds m 0 b
  have hlast := (Memory.holds_append_iff.mp hsplit).2
  rwa [Nat.zero_add, List.length_take, Nat.min_eq_left (Nat.sub_le ..)] at hlast

theorem Memory.cells_drop (m : Memory) (a k n : Nat) :
    (Memory.cells m a n).drop k = Memory.cells m (a + k) (n - k) := by
  induction k generalizing a n with
  | zero => rfl
  | succ k ih =>
    cases n with
    | zero => simp [Memory.cells]
    | succ n => rw [Memory.cells, List.drop_succ_cons, ih, Nat.add_assoc, Nat.add_comm 1 k, Nat.add_sub_add_right]

theorem Memory.cells_take (m : Memory) (a : Nat) {k n : Nat} (h : k ≤ n) :
    (Memory.cells m a n).take k = Memory.cells m a k := by
  induction k generalizing a n with
  | zero => rfl
  | succ k ih =>
    cases n with
    | zero => omega
    | succ n => rw [Memory.cells, List.take_succ_cons, ih _ (by omega), Memory.cells]

/-- Cells that hold a byte string. -/
theorem Memory.cells_of_holds {m : Memory} {a : Nat} {b : List Byte} (h : m.holds a b) :
    Memory.cells m a b.length = b.map some :=
  cellBytes_eq_some.mp ((cellBytes_cells ..).trans ((Memory.read_eq_some_iff ..).mpr ⟨rfl, h⟩))

theorem chainOf_toList_of_length {ch : List Byte} (h : ch.length = 16) : (chainOf ch).toList = ch :=
  congrArg Vector.toList (chainOf_toList ⟨ch.toArray, by simpa using h⟩)

/-! ## What each command does past its checks -/

/-- INIT past its checks, once the key and the IV it starts from are known (45_commands.md R301). -/
theorem exec_init {alg : Alg} {mode : Mode} {ivp : Bool} {keylen ivlen : Nat} {s : State} {key iv : List Byte}
    (h : firstFailing (configChecks (.init alg mode ivp keylen ivlen) s) = none) (hkey : keyRead s keylen = some key)
    (hiv : ivOrZero s (initReadsIv mode ivp) (blockSize alg) = some iv) :
    exec (.init alg mode ivp keylen ivlen) s = .next (reportSuccess 0x1 (withContext s alg mode keylen key iv)) := by
  refine exec_of_does (e := .newContext alg mode keylen key iv) ?_
  rw [planOf_of_checks h]
  simp only [dataPlan, initPlan, hkey, hiv]

section Cipher

variable {i : Instr} {dir : Dir} (hi : i = .encrypt ∧ dir = .enc ∨ i = .decrypt ∧ dir = .dec)
include hi

/-- ENCRYPT and DECRYPT share one rule, "with `DEC` in place of `ENC`" (R303). -/
theorem ruleOf_cipher (s : State) : ruleOf i s = cipherRule dir s := by
  rcases hi with ⟨rfl, rfl⟩ | ⟨rfl, rfl⟩ <;> rfl

theorem dataPlan_cipher (s : State) : dataPlan i s = cipherPlan dir s := by
  rcases hi with ⟨rfl, rfl⟩ | ⟨rfl, rfl⟩ <;> rfl

/-- ENCRYPT and DECRYPT past their checks, the data written (R302, R303). -/
theorem exec_cipher {s : State} {data : List Byte} {r : List Byte × List Byte}
    (h : firstFailing (configChecks i s) = none) (hdata : memRead s 0 (dataLen s) = some data)
    (hr : modeApply s.ctx.alg s.ctx.mode s.ckey dir s.chain.toList data = .ok r) :
    exec i s = .next (reportSuccess i.opc (withCipherOutput s r.1 r.2)) := by
  refine exec_of_does (e := .cipherOutput r.1 r.2) ?_
  rw [planOf_of_checks h, dataPlan_cipher hi]
  simp only [cipherPlan, hdata, hr]

end Cipher

/-- PAD past its checks (R304). -/
theorem exec_pad {bs : Nat} {style : Style} {s : State} (h : firstFailing (configChecks (.pad bs style) s) = none) :
    exec (.pad bs style) s = .next (reportSuccess 0x4 (withPadding s (padBytes (padLen (dataLen s) bs) style))) :=
  exec_of_does (e := .padding (padBytes (padLen (dataLen s) bs) style)) (planOf_of_checks h)

section Unpad

variable {bs : Nat} {style : Style} {s : State} (h : firstFailing (configChecks (.unpad bs style) s) = none)
include h

/-- UNPAD past its checks over a written final block (R305). -/
theorem exec_unpad {f : List Byte} {n : Nat} (hf : memRead s (dataLen s - bs) bs = some f)
    (hn : unpadFn f bs style = .ok n) :
    exec (.unpad bs style) s = .next (reportSuccess 0x5 (withDataLen s (n + (dataLen s - bs)))) := by
  refine exec_of_does (e := .dataLength (n + (dataLen s - bs))) ?_
  rw [planOf_of_checks h]
  simp only [dataPlan, unpadPlan, hf, hn]

/-- The written bytes of the final block settle the errors that every filling of it raises (R356; log entry 4). -/
theorem settledError_finalBlock_iff {e : Detail} :
    settledError (Memory.cells s.dbuf (dataLen s - bs) bs) bs style = some e ↔
      ∀ f : List Byte, f.length = bs → s.dbuf.agrees (dataLen s - bs) f → unpadFn f bs style = .error e := by
  obtain ⟨⟨h1, h255⟩, hst, -⟩ := unpad_checks h
  rw [settledError_iff h1 h255 hst (by simp; omega) (by simp)]
  simp only [Memory.fills_cells_iff, and_imp]

/-- UNPAD reports the error that the written bytes of its final block settle (R356). -/
theorem exec_unpad_of_settled {e : Detail}
    (he : settledError (Memory.cells s.dbuf (dataLen s - bs) bs) bs style = some e) :
    exec (.unpad bs style) s = .next (reportError 0x5 e s) := by
  refine exec_of_raises ?_
  rw [planOf_of_checks h]
  cases hf : memRead s (dataLen s - bs) bs with
  | none => simp only [dataPlan, unpadPlan, hf, partlyWrittenPlan, he]
  | some f =>
    obtain ⟨hlen, hholds⟩ := (Memory.read_eq_some_iff ..).mp hf
    have hagrees : s.dbuf.agrees (dataLen s - bs) f := fun j hj b hb => Option.some.inj ((hholds j hj).symm.trans hb)
    simp only [dataPlan, unpadPlan, hf, (settledError_finalBlock_iff h).mp he f hlen hagrees]

/-- UNPAD stops at an UNWRITTEN byte of its final block if no error is settled (R356). -/
theorem exec_unpad_stops (hu : s.dbuf.hasUnwritten (dataLen s - bs) bs)
    (hnone : settledError (Memory.cells s.dbuf (dataLen s - bs) bs) bs style = none) :
    exec (.unpad bs style) s = .fault .unwrittenUse := by
  have hf : memRead s (dataLen s - bs) bs = none := (Memory.read_eq_none_iff ..).mpr hu
  refine exec_of_stops ?_
  rw [planOf_of_checks h]
  simp only [dataPlan, unpadPlan, hf, partlyWrittenPlan, hnone]

end Unpad

section DecryptUnpad

variable {ivp : Bool} {bs keylen ivlen : Nat} {s : State}
  (h : firstFailing (configChecks (.decryptUnpad ivp bs keylen ivlen) s) = none)
include h

/-- DECRYPT_UNPAD past its checks, every operand written, on a plaintext UNPAD_FN accepts (R306). -/
theorem exec_decryptUnpad {key iv data : List Byte} {r : List Byte × List Byte} {n : Nat}
    (hkey : keyRead s keylen = some key) (hiv : ivOrZero s ivp 16 = some iv)
    (hdata : memRead s 0 (dataLen s) = some data) (hr : modeApply .aes .cbc key .dec iv data = .ok r)
    (hn : unpadFn r.1 bs .pkcs7 = .ok n) :
    exec (.decryptUnpad ivp bs keylen ivlen) s = .next (reportSuccess 0x6 (withPlaintext s r.1 n)) := by
  refine exec_of_does (e := .plaintext r.1 n) ?_
  rw [planOf_of_checks h]
  simp only [dataPlan, decryptUnpadPlan, hkey, hiv, hdata, plaintextPlan, hr, hn]

/-- DECRYPT_UNPAD reports an error that every filling of its plaintext raises (R356; log entry 4). -/
theorem exec_decryptUnpad_of_settled {e : Detail}
    (hall : ∀ f, fills (plaintextCells ivp keylen s) f → unpadFn f bs .pkcs7 = .error e) :
    exec (.decryptUnpad ivp bs keylen ivlen) s = .next (reportError 0x6 e s) := by
  obtain ⟨-, -, hm, -, ⟨h1, h255⟩, h0, hbs⟩ := decryptUnpad_checks h
  refine exec_of_raises ?_
  rw [planOf_of_checks h]
  simp only [dataPlan, decryptUnpadPlan]
  split
  next key iv data hkey hiv hdata =>
    exact plaintextPlan_error hm hkey hiv hdata fun f hf => hall f (hf ▸ fills_map_some f)
  next =>
    have hlen := plaintextCells_length (ivp := ivp) (keylen := keylen) hm
    simp only [partlyWrittenPlan, (settledError_iff h1 h255 (by decide) (hlen ▸ h0) (hlen ▸ hbs)).mpr hall]

end DecryptUnpad

/-- EXECUTE of a refused word (45_commands.md R308). -/
theorem step_of_illegal {s : State} {w : Word} {rest : List HostEvent} {d : Detail}
    (hp : s.pending = .write .word 0x0000 w :: rest) (hd : decode w = .illegal d) :
    step s = .next { issued s w rest with status := failWord (Word.opc w) d } := by
  rw [step_command hp, execute, hd]
  rfl

end Sys2Proof.Machine
end

section
/-! SUPPORT. The padding check of DECRYPT_UNPAD: of a string that UNPAD_FN accepts UNPAD accepts the final block, and
the last plaintext block has a value once the last ciphertext block and the block before it are written
(45_commands.md R305, 44_modes.md R284, 60_exceptions.md R356; log entry 4). -/

namespace Sys2Proof.Machine

/-! ## The final block of a padded string -/

/-- Of a string that UNPAD_FN accepts it accepts the final block too, with the same padding: UNPAD needs no other
(45_commands.md R305). -/
theorem unpadFn_finalBlock {d : List Byte} {bs n : Nat} {style : Style} (hst : style ≠ .unrecognized)
    (h : unpadFn d bs style = .ok n) :
    unpadFn (d.drop (d.length - bs)) bs style = .ok (n - (d.length - bs)) := by
  obtain ⟨h1, h255, -⟩ := unpadFn_ok h
  obtain ⟨h0, hm, hlt, hle, hpad⟩ := (unpadAcceptsExactlyThePadded _ bs style _ h1 h255 hst).mp h
  have hbs : bs ≤ d.length := Nat.le_of_dvd (by omega) (Nat.dvd_of_mod_eq_zero hm)
  refine (unpadAcceptsExactlyThePadded _ bs style _ h1 h255 hst).mpr ?_
  have hlen : (d.drop (d.length - bs)).length = bs := by rw [List.length_drop]; omega
  rw [hlen]
  refine ⟨by omega, Nat.mod_self bs, by omega, by omega, ?_⟩
  have hlast : (d.drop (d.length - bs)).drop (n - (d.length - bs)) = padBytes (d.length - n) style := by
    rw [List.drop_drop, show d.length - bs + (n - (d.length - bs)) = n by omega]
    refine (congrArg (List.drop n) hpad).trans (List.drop_left' ?_)
    rw [List.length_take, Nat.min_eq_left hlt.le]
  rw [show bs - (n - (d.length - bs)) = d.length - n by omega, ← hlast, List.take_append_drop]

/-- UNPAD over a string just stored is UNPAD_FN of the string. -/
theorem exec_unpad_of_stored {s : State} {m : Memory} {pt : List Byte} {bs n : Nat} {style : Style}
    (hst : style ≠ .unrecognized) (hdbuf : s.dbuf = Memory.write m 0 pt) (hlen : dataLen s = pt.length)
    (hb : dataLen s ≤ s.cfg.bufSize) (hn : unpadFn pt bs style = .ok n) :
    exec (.unpad bs style) s = .next (reportSuccess 0x5 (withDataLen s n)) := by
  obtain ⟨h1, h255, hm, hlt, hle⟩ := unpadFn_ok hn
  have hbs : bs ≤ pt.length := Nat.le_of_dvd (by omega) (Nat.dvd_of_mod_eq_zero hm)
  have hchecks : firstFailing (configChecks (.unpad bs style) s) = none :=
    unpad_checks_iff.mpr ⟨⟨h1, h255⟩, hst, hlen ▸ ⟨by omega, hm⟩, hb⟩
  have hread : memRead s (dataLen s - bs) bs = some (pt.drop (pt.length - bs)) := by
    rw [memRead, hdbuf, hlen]
    exact Memory.read_write_drop m pt hbs
  rw [exec_unpad hchecks hread (unpadFn_finalBlock hst hn), hlen, Nat.sub_add_cancel (by omega)]

/-- The padding errors of pkcs7 that the last 16 bytes of a string show (R145, R146). -/
theorem unpadFn_of_lastBlock {f q : List Byte} {bs p : Nat} (h1 : 1 ≤ bs) (h255 : bs ≤ 255)
    (hbs : f.length % bs = 0) (h16 : 16 ≤ f.length) (hq : f.drop (f.length - 16) = q) (hp : p = (q.getD 15 0).toNat) :
    (p < 1 ∨ bs < p → unpadFn f bs .pkcs7 = .error .padRange) ∧
      (1 ≤ p → p ≤ bs → (∃ j, 16 ≤ j + p ∧ j < 16 ∧ (q.getD j 0).toNat ≠ p) →
        unpadFn f bs .pkcs7 = .error .padPattern) := by
  subst hq
  simp only [getD_drop] at hp ⊢
  rw [show f.length - 16 + 15 = f.length - 1 by omega] at hp
  obtain ⟨-, -, hlast⟩ := (unpadCountedPaddings f bs).2 h1 h255
  obtain ⟨hrange, hpattern⟩ := hlast (by omega) hbs p hp
  refine ⟨fun h => (hrange h).1, fun hp1 hpbs ⟨j, hlo, hhi, hj⟩ => (hpattern hp1 hpbs).1 ?_⟩
  exact ⟨f.length - 16 + j, by omega, by omega, hj⟩

/-! ## The last plaintext block -/

/-- A string that fills written cells is theirs. -/
theorem eq_of_fills_map_some {b f : List Byte} (h : fills (b.map some) f) : f = b := by
  refine List.ext_getElem (by simpa using h.1) fun i hf hb => ?_
  have := h.2 i hf b[i] (by simp [hb])
  rwa [List.getD_eq_getElem _ _ hf] at this

theorem fills_drop {c : List (Option Byte)} {f : List Byte} (h : fills c f) (k : Nat) :
    fills (c.drop k) (f.drop k) :=
  (fills_iff_forall2 ..).mpr (List.forall₂_drop k ((fills_iff_forall2 ..).mp h))

/-- The last block of CBC decryption: its ciphertext block, XORed with the block before it in the chaining state
followed by the ciphertext (44_modes.md R284). -/
theorem cbcDecCells_drop (key : Option (List Byte)) (n : Nat) {st data : List (Option Byte)} (hst : st.length = 16)
    (hd : data.length = (n + 1) * 16) :
    (cbcDecCells key (n + 1) st data).drop (n * 16) =
      xorCells (aesDecCells key (data.drop (n * 16))) (((st ++ data).drop (n * 16)).take 16) := by
  induction n generalizing st data with
  | zero =>
    rw [Nat.zero_mul, List.drop_zero, List.drop_zero, List.drop_zero, List.take_left' hst, cbcDecCells,
      List.take_of_length_le (by omega), cbcDecCells, List.append_nil]
  | succ n ih =>
    have hfirst : (data.take 16).length = 16 := by rw [List.length_take]; omega
    have hxor : (xorCells (aesDecCells key (data.take 16)) st).length = 16 := by
      rw [xorCells_length, aesDecCells_length, hst, Nat.min_self]
    rw [cbcDecCells, Nat.succ_mul, Nat.add_comm (n * 16), ← List.drop_drop, List.drop_left' hxor,
      ih hfirst (by rw [List.length_drop]; omega), List.take_append_drop, List.drop_drop,
      ← List.drop_drop (l := st ++ data), List.drop_left' hst]

section LastBlock

variable {s : State} {ivp : Bool} {prev : List Byte} (hm : dataLen s % 16 = 0) (h0 : dataLen s ≠ 0)
  (hlen : prev.length = 16) (hdata : dataLen s ≠ 16 → s.dbuf.holds (dataLen s - 32) prev)
  (hiv : dataLen s = 16 → ivOrZero s ivp 16 = some prev)
include hm h0 hlen hdata hiv

/-- The block the last plaintext block is chained on is the ciphertext block before it, or the IV. -/
theorem take_drop_ivCells_append :
    ((ivCells ivp s ++ Memory.cells s.dbuf 0 (dataLen s)).drop (dataLen s - 16)).take 16 = prev.map some := by
  have hivlen := ivCells_length ivp s
  by_cases hone : dataLen s = 16
  · rw [hone, Nat.sub_self, List.drop_zero, List.take_left' hivlen, ivCells_some (hiv hone)]
  · rw [show dataLen s - 16 = 16 + (dataLen s - 32) by omega, ← List.drop_drop, List.drop_left' hivlen,
      Memory.cells_drop, Memory.cells_take _ _ (by omega), Nat.zero_add, ← hlen, Memory.cells_of_holds (hdata hone)]

/-- The last plaintext block has a value once the key, its ciphertext block and the block it is chained on have. -/
theorem plaintextCells_drop {keylen : Nat} {key c : List Byte} (hkey : keyRead s keylen = some key)
    (hclen : c.length = 16) (hc : s.dbuf.holds (dataLen s - 16) c) :
    (plaintextCells ivp keylen s).drop (dataLen s - 16) = (xorBytes (aesDec key c) prev).map some := by
  obtain ⟨n, hn⟩ : ∃ n, dataLen s / 16 = n + 1 := ⟨dataLen s / 16 - 1, by omega⟩
  have hlast : dataLen s - 16 = n * 16 := by omega
  have hdlen : (Memory.cells s.dbuf 0 (dataLen s)).length = (n + 1) * 16 := by rw [Memory.cells_length]; omega
  have hcells : (Memory.cells s.dbuf 0 (dataLen s)).drop (n * 16) = c.map some := by
    rw [Memory.cells_drop, Nat.zero_add, ← hlast, show dataLen s - (dataLen s - 16) = c.length by omega,
      Memory.cells_of_holds hc]
  have hprev := take_drop_ivCells_append hm h0 hlen hdata hiv
  rw [hlast] at hprev
  rw [plaintextCells_eq, hkey, hn, hlast, cbcDecCells_drop _ n (ivCells_length ivp s) hdlen, hcells, hprev,
    aesDecCells_some, xorCells_some]

end LastBlock

end Sys2Proof.Machine
end

section
/-! The statements about the commands (45_commands.md), settled. -/

namespace Sys2Proof.Machine

/-- Settles O4: each refused word by the first check of DECODE that fails. -/
theorem illegalWordsChangeStatusOnly : Obligations.IllegalWordsChangeStatusOnly := by
  intro s w rest hp
  refine ⟨fun h => step_of_illegal hp (decode_of_badOpc h),
    fun h hz => step_of_illegal hp (decode_of_reservedField h hz), fun h1 hz h3 => ?_, decode_eq_illegal_iff, ?_⟩
  · have hd : decode w = .illegal .badAlg := by
      rw [decode_of_mustBeZero (h1 ▸ by decide) hz, h1, decodeOperands_init_of_reserved h3]
    rw [← h1]
    exact step_of_illegal hp hd
  · rintro rfl
    exact step_of_illegal hp (decode_of_badOpc (by decide))

/-- Settles O30: past the checks INIT reads the key and the IV, and CHAIN is the IV filled up with zeros. -/
theorem initCompletes : Obligations.InitCompletes := by
  intro alg mode ivp keylen ivlen s key iv hk hlen hkey hiv
  subst hlen
  have hset : key.length ∈ keySet alg := by
    rcases hk with ⟨rfl, h⟩ | ⟨rfl, h⟩ | ⟨rfl, h⟩ <;> simpa [keySet] using h
  have hchecks := init_checks_iff (s := s).mpr ⟨hset, fun hm hp => (hiv hm hp).1⟩
  have hdoes {iv' : List Byte} := exec_init (iv := iv') hchecks (keyRead_of_holds hkey)
  by_cases hr : mode = .cbc ∧ ivp = true
  · obtain ⟨rfl, rfl⟩ := hr
    obtain ⟨-, hl, hh⟩ := hiv rfl rfl
    refine ⟨chainOf iv, hdoes (ivOrZero_of_holds hl (fun _ => hh) nofun), fun j hj => ?_⟩
    rw [chainOf_getD iv hj]
    split
    · rfl
    next hge => exact List.getD_eq_default _ _ (by simpa [hl] using hge)
  · have hnot : initReadsIv mode ivp = false := by simpa [initReadsIv] using hr
    have hzero : ivOrZero s (initReadsIv mode ivp) (blockSize alg) = some (bytesOf (blockSize alg) 0) := by
      rw [hnot]
      rfl
    refine ⟨chainOf (bytesOf (blockSize alg) 0), hdoes hzero, fun j hj => ?_⟩
    rw [if_neg fun h => hr ⟨h.1, h.2.1⟩, chainOf_zeros, zeroChain_getD hj]

/-- Settles O31: RELEASE has no check and no operand, and of the words with its OPC only 0x00000007 has its
must-be-zero fields 0. -/
theorem releaseCompletes : Obligations.ReleaseCompletes := by
  refine ⟨fun s => ⟨_, rfl, rfl, rfl, rfl, rfl, rfl⟩, fun w hw => ?_⟩
  split
  · subst w; rfl
  · rename_i hne
    refine decode_of_reservedField (hw ▸ by decide) fun hz => hne ?_
    rw [← packWord_of_noOperands hw ((mustBeZero_iff_of_row (r := rowRelease) (hw ▸ rfl)).mp hz)]
    rfl

/-- Settles O32: the IV that is read is the IV that is taken without one. -/
theorem defaultIvIsZero : Obligations.DefaultIvIsZero := by
  refine ⟨fun alg keylen ivlen s hz => exec_congr rfl ?_, fun bs keylen ivlen s hz => exec_congr rfl ?_⟩
  · have hiv : ivOrZero s true (blockSize alg) = ivOrZero s false (blockSize alg) :=
      ivOrZero_of_holds (List.length_replicate ..) (fun _ => hz) nofun
    have hplan : initPlan alg .cbc false keylen s = initPlan alg .cbc true keylen s := by
      simp [initPlan, initReadsIv, hiv]
    simp [planOf, afterChecks, firstFailing, configChecks, dataPlan, hplan]
  · have hiv : ivOrZero s true 16 = ivOrZero s false 16 :=
      ivOrZero_of_holds (List.length_replicate ..) (fun _ => hz) nofun
    have hcells : ivCells true s = ivCells false s := (ivCells_some hiv).trans (ivCells_some rfl).symm
    have hplan : decryptUnpadPlan false bs keylen s = decryptUnpadPlan true bs keylen s := by
      simp only [decryptUnpadPlan, plaintextCells_eq, hiv, hcells]
    simp [planOf, afterChecks, firstFailing, configChecks, dataPlan, hplan]

/-- Settles O33: past the checks MODE_APPLY answers, with as many bytes as it was given. -/
theorem encryptAndDecryptComplete : Obligations.EncryptAndDecryptComplete := by
  intro s data hv hm hb hlen hdata completes
  have hcompletes (i : Instr) (dir : Dir) (hi : i = .encrypt ∧ dir = .enc ∨ i = .decrypt ∧ dir = .dec) :
      completes i dir (successWord i.opc) := by
    have hok := modeApply_eq_modeLoop s.ctx.alg s.ctx.mode s.ckey dir s.chain.toList (hlen ▸ hm)
    obtain ⟨-, hout, hch, -⟩ := modeApply_ok (by simp) hok
    have hread : memRead s 0 (dataLen s) = some data := by rw [dataLen, ← hlen]; exact memRead_of_holds hdata
    have hexec := exec_cipher hi ((cipher_checks_iff (hi.imp And.left And.left)).mpr ⟨hv, hm, hb⟩) hread hok
    exact ⟨_, _, _, _, hok, hexec, hout.trans hlen, Memory.write_holds _ _ _,
      fun k hk => Memory.get_write_outside _ _ _ (by omega), chainOf_toList_of_length hch⟩
  exact ⟨hcompletes .encrypt .enc (.inl ⟨rfl, rfl⟩), hcompletes .decrypt .dec (.inr ⟨rfl, rfl⟩)⟩

/-- Settles O54: past the checks PAD stores the padding behind the data, which a legal BUF_SIZE has room for. -/
theorem padCompletes : Obligations.PadCompletes := by
  intro s bs style hlegal h1 h255 hst hfits
  have hlen : (padBytes (padLen s.dlen.toNat bs) style).length = padLen s.dlen.toNat bs :=
    padBytes_length (padLen_bounds _ h1).1 hst
  have hchecks := pad_checks_iff (s := s).mpr ⟨⟨h1, h255⟩, hst, (Nat.le_add_right _ _).trans hfits, hfits⟩
  have hn : (BitVec.ofNat 32 (s.dlen.toNat + (padBytes (padLen s.dlen.toNat bs) style).length)).toNat =
      s.dlen.toNat + padLen s.dlen.toNat bs := by
    rw [hlen, BitVec.toNat_ofNat, Nat.mod_eq_of_lt (by omega)]
  refine ⟨_, _, exec_pad hchecks, hn, Memory.write_holds _ _ _, fun k hk => ?_, fun d hd hholds => ?_⟩
  · exact Memory.get_write_outside _ _ _ (by rwa [dataLen, hlen])
  · refine ⟨_, padFn_eq_ok_iff.mpr ⟨h1, h255, hst, rfl⟩, ?_, Memory.holds_append_iff.mpr ⟨?_, ?_⟩⟩
    · rw [List.length_append, hd, hlen]
      exact hn.symm
    · exact Memory.write_holds_before hholds (by rw [dataLen]; omega) _
    · rw [Nat.zero_add, hd]
      exact Memory.write_holds _ _ _

/-- Settles O55: the padded block is one UNPAD_FN accepts, and what its written bytes settle is reported. -/
theorem unpadCompletes : Obligations.UnpadCompletes := by
  intro s bs style h1 h255 hst h0 hm hb settles
  have hchecks := unpad_checks_iff (s := s).mpr ⟨⟨h1, h255⟩, hst, ⟨h0, hm⟩, hb⟩
  have hle : bs ≤ s.dlen.toNat := Nat.le_of_dvd (by omega) (Nat.dvd_of_mod_eq_zero hm)
  have hsettled (e : Detail) := settledError_finalBlock_iff (e := e) hchecks
  refine ⟨fun x p hp hpbs hx hholds => ?_, fun e he => exec_unpad_of_settled hchecks ((hsettled e).mpr he),
    fun hu hnone => exec_unpad_stops hchecks hu ?_⟩
  swap
  · exact Option.eq_none_iff_forall_ne_some.mpr fun e he => hnone e ((hsettled e).mp he)
  have hlen : (x ++ padBytes p style).length = bs := by
    rw [List.length_append, hx, padBytes_length hp hst]
    omega
  have hread : memRead s (dataLen s - bs) bs = some (x ++ padBytes p style) :=
    (Memory.read_eq_some_iff ..).mpr ⟨hlen, hholds⟩
  have hunpad : unpadFn (x ++ padBytes p style) bs style = .ok x.length := by
    refine (unpadAcceptsExactlyThePadded _ bs style _ h1 h255 hst).mpr ?_
    rw [List.take_left, hlen, show bs - x.length = p by omega]
    exact ⟨by omega, Nat.mod_self bs, by omega, by omega, rfl⟩
  rw [exec_unpad hchecks hread hunpad, dataLen, show x.length + (s.dlen.toNat - bs) = s.dlen.toNat - p by omega]
  rfl

/-- Settles O56: the plaintext is MODE_APPLY's, and its last block, where it has a value, stands in
every filling of the other cells. -/
theorem decryptUnpadCompletes : Obligations.DecryptUnpadCompletes := by
  have hset {n : Nat} (h : n = 16 ∨ n = 24 ∨ n = 32) : n ∈ keySet .aes := by simpa [keySet] using h
  refine ⟨?_, ?_⟩
  · intro s ivp bs keylen ivlen key iv data hk hivlen hm hb h1 h255 h0 hmbs hkeylen hkey hiv16 hiv hzero hlen hdata
    subst hkeylen
    have hchecks := decryptUnpad_checks_iff (s := s).mpr ⟨hset hk, hivlen, hm, hb, ⟨h1, h255⟩, h0, hmbs⟩
    have hkeyRead := keyRead_of_holds hkey
    have hivRead := ivOrZero_of_holds hiv16 hiv hzero
    have hdataRead : memRead s 0 (dataLen s) = some data := by rw [dataLen, ← hlen]; exact memRead_of_holds hdata
    have hok := modeApply_eq_modeLoop .aes .cbc key .dec iv (data := data) (hlen ▸ hm)
    have hout := (modeApply_ok hiv16 hok).2.1.trans hlen
    refine ⟨_, _, hok, hout, fun n hn => ⟨_, exec_decryptUnpad hchecks hkeyRead hivRead hdataRead hok hn,
      Memory.write_holds _ _ _, fun k hk => Memory.get_write_outside _ _ _ (by omega)⟩, fun e he => ?_⟩
    refine exec_decryptUnpad_of_settled hchecks fun f hf => ?_
    rw [plaintextCells_some hkeyRead hivRead hdataRead hok] at hf
    rwa [eq_of_fills_map_some hf]
  · intro s ivp bs keylen ivlen key c prev q p hk hivlen hm hb h1 h255 h0 hmbs hkeylen hkey hc16 hc hprev16 hprev hiv
      hzero hq hp
    subst hkeylen
    have hchecks := decryptUnpad_checks_iff (s := s).mpr ⟨hset hk, hivlen, hm, hb, ⟨h1, h255⟩, h0, hmbs⟩
    have hcells := plaintextCells_drop hm h0 hprev16 hprev
      (fun h => ivOrZero_of_holds hprev16 (hiv h) (hzero h)) (keyRead_of_holds hkey) hc16 hc
    have hlast (f : List Byte) (hf : fills (plaintextCells ivp key.length s) f) :=
      have hflen : f.length = dataLen s := hf.1.trans (plaintextCells_length hm)
      have hq' : f.drop (f.length - 16) = q := by
        have hdrop := fills_drop hf (dataLen s - 16)
        rw [hcells, ← hq] at hdrop
        rw [hflen, eq_of_fills_map_some hdrop]
      unpadFn_of_lastBlock h1 h255 (hflen ▸ hmbs) (by rw [hflen, dataLen]; omega) hq' hp
    exact ⟨fun h => exec_decryptUnpad_of_settled hchecks fun f hf => (hlast f hf).1 h,
      fun hp1 hpbs h => exec_decryptUnpad_of_settled hchecks fun f hf => (hlast f hf).2 hp1 hpbs h⟩

/-- Settles O57: INIT makes the context DECRYPT_UNPAD makes for itself, DECRYPT stores its plaintext, and UNPAD checks
that. -/
theorem decryptUnpadIsTheComposition : Obligations.DecryptUnpadIsTheComposition := by
  intro ivp bs keylen ivlen s t h hok
  obtain ⟨t', hcommit, rfl⟩ := exec_succeeds h hok
  obtain ⟨hk, hivlen, hm, hb, -⟩ := decryptUnpad_checks (checks_of_ruleOf_commit hcommit)
  obtain ⟨-, -, -, key, iv, data, r, n, hkey, hiv, hdata, hr, hn, rfl⟩ := decryptUnpadRule_commit hcommit
  have hiv16 := (ivOrZero_eq_some hiv).1
  have hlen : r.1.length = dataLen s := (modeApply_ok hiv16 hr).2.1.trans (Memory.read_length hdata)
  obtain ⟨s1, hs1⟩ : ∃ s1, s1 = reportSuccess 0x1 (withContext s .aes .cbc keylen key iv) := ⟨_, rfl⟩
  obtain ⟨s2, hs2⟩ : ∃ s2, s2 = reportSuccess 0x3 (withCipherOutput s1 r.1 r.2) := ⟨_, rfl⟩
  have hinit : exec (.init .aes .cbc ivp keylen ivlen) s = .next s1 := by
    rw [hs1]
    exact exec_init (init_checks_iff.mpr ⟨hk, fun _ => hivlen⟩) hkey (by simpa [initReadsIv, blockSize] using hiv)
  have hdecrypt : exec .decrypt s1 = .next s2 := by
    rw [hs2]
    refine exec_cipher (.inr ⟨rfl, rfl⟩) ((cipher_checks_iff (.inr rfl)).mpr ?_) (data := data) ?_ ?_
    · simpa [hs1, dataLen, blockSize] using And.intro hm hb
    · simpa [hs1, memRead, dataLen] using hdata
    · simpa [hs1, chainOf_toList_of_length hiv16] using hr
  have hunpad : exec (.unpad bs .pkcs7) s2 = .next (reportSuccess 0x5 (withDataLen s2 n)) :=
    exec_unpad_of_stored (m := s.dbuf) (by decide) (by simp [hs2, hs1]) (by simp [hs2, hs1, dataLen, hlen])
      (by simpa [hs2, hs1, dataLen] using hb) hn
  exact ⟨s1, s2, _, hinit, by simp [hs1, successWord_err], hdecrypt, by simp [hs2, successWord_err], hunpad,
    by simp [successWord_err], by simp [hs2, hs1]⟩

/-- Settles O59: none of the three has an effect that stores a byte. -/
theorem frameOfCommandsThatStoreNothing : Obligations.FrameOfCommandsThatStoreNothing := by
  intro s t
  refine ⟨?_, ?_⟩
  · rintro (⟨alg, mode, ivp, keylen, ivlen, h⟩ | h) <;> rcases exec_next h with ⟨t', hr, rfl⟩ | ⟨d, -, rfl⟩
    · obtain ⟨-, key, iv, -, -, rfl⟩ := initRule_commit hr
      simp
    · simp
    · cases hr
      simp
    · simp
  · rintro ⟨bs, style, h⟩
    rcases exec_next h with ⟨t', hr, rfl⟩ | ⟨d, -, rfl⟩
    · obtain ⟨-, -, -, -, -, -, f, n, -, -, rfl⟩ := unpadRule_commit hr
      simp
    · simp

/-- Settles O60: each effect stores one run, as long as the data or the padding. -/
theorem frameOfStoringCommands : Obligations.FrameOfStoringCommands := by
  intro s t
  refine ⟨fun h => ?_, fun bs style h => ?_, fun ivp bs keylen ivlen h => ?_⟩
  · obtain ⟨i, dir, hi, h⟩ : ∃ (i : Instr) (dir : Dir),
        (i = .encrypt ∧ dir = .enc ∨ i = .decrypt ∧ dir = .dec) ∧ exec i s = .next t :=
      h.elim (fun h => ⟨_, _, .inl ⟨rfl, rfl⟩, h⟩) fun h => ⟨_, _, .inr ⟨rfl, rfl⟩, h⟩
    rcases exec_next h with ⟨t', hr, rfl⟩ | ⟨d, -, rfl⟩
    · obtain ⟨-, -, out, ch, hlen, htail, hecb, rfl⟩ := cipherRule_output (ruleOf_cipher hi s ▸ hr)
      have hchain (hm : s.ctx.mode = .ecb) : chainOf ch = s.chain := by rw [hecb hm, chainOf_toList]
      have hrest (j : Nat) (hj : blockSize s.ctx.alg ≤ j) :
          (chainOf ch).toList.getD j 0 = s.chain.toList.getD j 0 := by
        rcases Nat.lt_or_ge j 16 with h16 | h16
        · exact (chainOf_getD ch h16).trans (htail j hj)
        · rw [List.getD_eq_default _ _ (by simpa), List.getD_eq_default _ _ (by simpa)]
      have hdbuf (k : Nat) (hk : dataLen s ≤ k) : Memory.get (Memory.write s.dbuf 0 out) k = Memory.get s.dbuf k :=
        Memory.get_write_outside _ _ _ (by omega)
      simpa using (⟨hchain, hrest, hdbuf⟩ : _ ∧ _ ∧ _)
    · simp
  · rcases exec_next h with ⟨t', hr, rfl⟩ | ⟨d, -, rfl⟩
    · obtain ⟨h1, -, hst, -, rfl⟩ := padRule_commit hr
      have hdbuf (k : Nat) (hk : k < dataLen s ∨ dataLen s + padLen (dataLen s) bs ≤ k) :
          Memory.get (Memory.write s.dbuf (dataLen s) (padBytes (padLen (dataLen s) bs) style)) k =
            Memory.get s.dbuf k :=
        Memory.get_write_outside _ _ _ (by rwa [padBytes_length (padLen_bounds _ h1).1 hst])
      simpa using hdbuf
    · simp
  · rcases exec_next h with ⟨t', hr, rfl⟩ | ⟨d, -, rfl⟩
    · obtain ⟨-, -, -, key, iv, data, r, n, -, hiv, hdata, happly, -, rfl⟩ := decryptUnpadRule_commit hr
      have hlen := (modeApply_ok (ivOrZero_eq_some hiv).1 happly).2.1.trans (Memory.read_length hdata)
      have hdbuf (k : Nat) (hk : dataLen s ≤ k) : Memory.get (Memory.write s.dbuf 0 r.1) k = Memory.get s.dbuf k :=
        Memory.get_write_outside _ _ _ (by omega)
      simpa using hdbuf
    · simp

end Sys2Proof.Machine
end

section
/-! SUPPORT. The errors and the model faults of each command, read off its plan: which details a command reports, and
when its plan stops (60_exceptions.md R341, R342, R346, R356; log entry 4). -/

namespace Sys2Proof.Machine

/-! ## The words of STATUS (R342) -/

theorem successWord_toNat (opc : BitVec 4) : (successWord opc).toNat = opc.toNat * 2 ^ 16 := by
  revert opc
  decide

theorem failWord_toNat (opc : BitVec 4) (d : Detail) :
    (failWord opc d).toNat =
      opc.toNat * 2 ^ 16 + (detailCode d).toNat * 2 ^ 8 + (errKindCode (detailKind d)).toNat * 2 ^ 2 + 2 := by
  revert opc
  cases d <;> decide

theorem statusErrDetail_failWord (opc : BitVec 4) (d : Detail) : statusErrDetail (failWord opc d) = detailCode d := by
  revert opc
  cases d <;> decide

theorem detailCode_injective : Function.Injective detailCode := by
  intro d e
  cases d <;> cases e <;> decide

theorem failWord_injective (opc : BitVec 4) : Function.Injective (failWord opc) := fun d e h =>
  detailCode_injective (by rw [← statusErrDetail_failWord opc d, h, statusErrDetail_failWord])

theorem opc_toNat (w : Word) : (Word.opc w).toNat = w.toNat % 16 := by
  simp [Word.opc, BitVec.extractLsb'_toNat]

/-- A command that leaves the word of an error in STATUS has planned to raise it. -/
theorem planOf_of_reported {i : Instr} {s t : State} {d : Detail} (h : exec i s = .next t)
    (ht : t.status = failWord i.opc d) : planOf i s = .raises d := by
  cases hp : planOf i s with
  | does e =>
    obtain rfl := Host.Outcome.next.inj ((exec_of_does hp).symm.trans h)
    have herr := congrArg statusErr ht
    rw [reportSuccess_status, successWord_err, failWord_err] at herr
    cases herr
  | raises e =>
    obtain rfl := Host.Outcome.next.inj ((exec_of_raises hp).symm.trans h)
    rw [failWord_injective _ ht]
  | stops f => cases (exec_of_stops hp).symm.trans h

/-- A next state with STATUS.ERR is that of an error report at the state before. -/
theorem execute_fails {w : Word} {s t : State} (h : execute w s = .next t) (herr : statusErr t.status = 1) :
    ∃ opc d, t = reportError opc d s := by
  rcases execute_next h with ⟨d, -, rfl⟩ | ⟨i, -, hi⟩
  · exact ⟨_, d, rfl⟩
  · rcases exec_next hi with ⟨t', -, rfl⟩ | ⟨d, -, rfl⟩
    · rw [reportSuccess_status, successWord_err] at herr
      cases herr
    · exact ⟨_, d, rfl⟩

/-- EXECUTE leaves one of the two words of its OPC in STATUS. -/
theorem execute_status {w : Word} {s t : State} (h : execute w s = .next t) :
    t.status = successWord (Word.opc w) ∨ ∃ d, t.status = failWord (Word.opc w) d := by
  rcases execute_next h with ⟨d, -, rfl⟩ | ⟨i, hd, hi⟩
  · exact .inr ⟨d, reportError_status ..⟩
  · rw [(decode_eq_cmd_iff.mp hd).1]
    rcases exec_next hi with ⟨t', -, rfl⟩ | ⟨d, -, rfl⟩
    · exact .inl (reportSuccess_status ..)
    · exact .inr ⟨d, reportError_status ..⟩

/-! ## Which details a command reports (R341) -/

theorem detail_of_decode_illegal {w : Word} {d : Detail} (h : decode w = .illegal d) :
    d = .badOpc ∨ d = .reservedField ∨ d = .badAlg := by
  by_cases hnames : namesCommand (Word.opc w)
  swap
  · exact .inl (Decoded.illegal.inj (h.symm.trans (decode_of_badOpc hnames)))
  by_cases hz : mustBeZero w
  swap
  · exact .inr (.inl (Decoded.illegal.inj (h.symm.trans (decode_of_reservedField hnames hz))))
  obtain ⟨h1, h3⟩ : Word.opc w = 0x1 ∧ Word.alg w = 3 := by simpa [hnames, hz] using decode_eq_illegal_iff.mp ⟨d, h⟩
  rw [decode_of_mustBeZero hnames hz, h1, decodeOperands_init_of_reserved h3] at h
  exact .inr (.inr (Decoded.illegal.inj h).symm)

/-- Each configuration check of a command has a detail the table gives the command. -/
theorem raisedBy_of_mem_configChecks {i : Instr} {s : State} {c : Bool × Detail} (h : c ∈ configChecks i s) :
    i.opc ∈ raisedBy c.2 := by
  revert c
  cases i <;> simp [configChecks, raisedBy, Instr.opc, Instr.row, rowInit, rowEncrypt, rowDecrypt, rowPad, rowUnpad,
    rowDecryptUnpad]

theorem raisedBy_of_firstFailing {i : Instr} {s : State} {d : Detail} (h : firstFailing (configChecks i s) = some d) :
    i.opc ∈ raisedBy d := by
  obtain ⟨c, hc, rfl⟩ := Option.map_eq_some_iff.mp h
  exact raisedBy_of_mem_configChecks (List.mem_of_find?_eq_some hc)

/-- Past the checks of R144 UNPAD_FN raises data-integrity errors only, and for pkcs7 only those that the table gives
DECRYPT_UNPAD too. -/
theorem kind_and_raisedBy_of_unpadFn {f : List Byte} {bs : Nat} {style : Style} {e : Detail}
    (hbs : 1 ≤ bs ∧ bs ≤ 255) (hst : style ≠ .unrecognized) (hlen : f.length ≠ 0 ∧ f.length % bs = 0)
    (h : unpadFn f bs style = .error e) :
    detailKind e = .dataIntegrityError ∧ 0x5#4 ∈ raisedBy e ∧ (style = .pkcs7 → 0x6#4 ∈ raisedBy e) := by
  rcases unpadFn_error h with ⟨-, hb⟩ | ⟨-, hs⟩ | ⟨-, hl⟩ | ⟨rfl | rfl, -⟩ | ⟨rfl | rfl, rfl⟩
  · omega
  · exact absurd hs hst
  · omega
  all_goals simp [detailKind, raisedBy]

/-- An error that is settled over partly UNWRITTEN bytes is one UNPAD_FN raises over some values of them. -/
theorem exists_unpadFn_of_partlyWrittenPlan {c : List (Option Byte)} {bs : Nat} {style : Style} {e : Detail}
    (hbs : 1 ≤ bs ∧ bs ≤ 255) (hst : style ≠ .unrecognized) (hlen : c.length ≠ 0 ∧ c.length % bs = 0)
    (h : partlyWrittenPlan c bs style = .raises e) :
    ∃ f : List Byte, f.length = c.length ∧ unpadFn f bs style = .error e := by
  have hsettled : settledError c bs style = some e := by
    unfold partlyWrittenPlan at h
    split at h
    next d hd => rw [hd, Plan.raises.inj h]
    next => cases h
  have hfills : fills c (fillWith 0 c) := (fills_iff_forall2 ..).mpr (fillWith_valueOf 0 c)
  exact ⟨fillWith 0 c, hfills.1, (settledError_iff hbs.1 hbs.2 hst hlen.1 hlen.2).mp hsettled _ hfills⟩

/-- INIT reads no data that could be wrong. -/
theorem initPlan_ne_raises (alg : Alg) (mode : Mode) (ivp : Bool) (keylen : Nat) (s : State) (e : Detail) :
    initPlan alg mode ivp keylen s ≠ .raises e := by
  unfold initPlan
  split <;> simp

/-- Past its checks MODE_APPLY finds whole blocks. -/
theorem cipherPlan_ne_raises {dir : Dir} {s : State} (h : dataLen s % blockSize s.ctx.alg = 0) (e : Detail) :
    cipherPlan dir s ≠ .raises e := by
  unfold cipherPlan
  split
  · simp
  next data hdata =>
    rw [modeApply_eq_modeLoop _ _ _ _ _ (Memory.read_length hdata ▸ h)]
    simp

theorem exists_unpadFn_of_unpadPlan {bs : Nat} {style : Style} {s : State} {e : Detail} (hbs : 1 ≤ bs ∧ bs ≤ 255)
    (hst : style ≠ .unrecognized) (h : unpadPlan bs style s = .raises e) :
    ∃ f : List Byte, f.length = bs ∧ unpadFn f bs style = .error e := by
  unfold unpadPlan at h
  split at h
  · simpa using exists_unpadFn_of_partlyWrittenPlan hbs hst (by simp; omega) h
  next f hf =>
    split at h
    next d hd => exact ⟨f, Memory.read_length hf, by rw [hd, Plan.raises.inj h]⟩
    next => cases h

theorem exists_unpadFn_of_decryptUnpadPlan {ivp : Bool} {bs keylen : Nat} {s : State} {e : Detail}
    (hm : dataLen s % 16 = 0) (hbs : 1 ≤ bs ∧ bs ≤ 255) (hlen : dataLen s ≠ 0 ∧ dataLen s % bs = 0)
    (h : decryptUnpadPlan ivp bs keylen s = .raises e) :
    ∃ f : List Byte, f.length = dataLen s ∧ unpadFn f bs .pkcs7 = .error e := by
  unfold decryptUnpadPlan at h
  split at h
  next key iv data hkey hiv hdata =>
    have hdlen := Memory.read_length hdata
    have hok := modeApply_eq_modeLoop .aes .cbc key .dec iv (data := data) (hdlen ▸ hm)
    have hout := (modeApply_ok (ivOrZero_eq_some hiv).1 hok).2.1.trans hdlen
    simp only [plaintextPlan, hok] at h
    split at h
    next d hd => exact ⟨_, hout, by rw [hd, Plan.raises.inj h]⟩
    next => cases h
  next =>
    have hplen := plaintextCells_length (ivp := ivp) (keylen := keylen) hm
    rw [← hplen] at hlen ⊢
    exact exists_unpadFn_of_partlyWrittenPlan hbs (by decide) hlen h

/-- Past its configuration checks a command raises only data-integrity errors the table gives it. -/
theorem kind_and_raisedBy_of_dataPlan {i : Instr} {s : State} {d : Detail}
    (h : firstFailing (configChecks i s) = none) (hd : dataPlan i s = .raises d) :
    detailKind d = .dataIntegrityError ∧ i.opc ∈ raisedBy d := by
  cases i with
  | init alg mode ivp keylen ivlen => exact absurd hd (initPlan_ne_raises alg mode ivp keylen s d)
  | encrypt => exact absurd hd (cipherPlan_ne_raises ((cipher_checks_iff (.inl rfl)).mp h).2.1 d)
  | decrypt => exact absurd hd (cipherPlan_ne_raises ((cipher_checks_iff (.inr rfl)).mp h).2.1 d)
  | pad bs style => cases hd
  | unpad bs style =>
    obtain ⟨hbs, hst, -⟩ := unpad_checks h
    obtain ⟨f, hlen, hf⟩ := exists_unpadFn_of_unpadPlan hbs hst hd
    obtain ⟨hkind, hby, -⟩ := kind_and_raisedBy_of_unpadFn hbs hst (by rw [hlen]; simp; omega) hf
    exact ⟨hkind, hby⟩
  | decryptUnpad ivp bs keylen ivlen =>
    obtain ⟨-, -, hm, -, hbs, hlen⟩ := decryptUnpad_checks h
    obtain ⟨f, hflen, hf⟩ := exists_unpadFn_of_decryptUnpadPlan hm hbs hlen hd
    obtain ⟨hkind, -, hby⟩ := kind_and_raisedBy_of_unpadFn hbs (by decide) (hflen ▸ hlen) hf
    exact ⟨hkind, hby rfl⟩
  | release => cases hd

/-- A command raises a detail the table gives it, from a configuration check or from the data. -/
theorem raisedBy_of_planOf {i : Instr} {s : State} {d : Detail} (h : planOf i s = .raises d) : i.opc ∈ raisedBy d := by
  cases hf : firstFailing (configChecks i s) with
  | some e =>
    simp only [planOf, afterChecks, hf, Plan.raises.injEq] at h
    exact h ▸ raisedBy_of_firstFailing hf
  | none => exact (kind_and_raisedBy_of_dataPlan hf (planOf_of_checks hf ▸ h)).2

/-! ## When a plan stops (R356; log entry 4) -/

theorem Memory.not_hasUnwritten_zero (m : Memory) (a : Nat) : ¬ m.hasUnwritten a 0 := fun ⟨_, hj, _⟩ =>
  Nat.not_lt_zero _ hj

theorem ivOrZero_eq_none_iff {s : State} {r : Bool} {n : Nat} :
    ivOrZero s r n = none ↔ s.ivIn.hasUnwritten 0 (if r then n else 0) := by
  cases r with
  | false => simp [ivOrZero, Memory.hasUnwritten]
  | true => exact Memory.read_eq_none_iff ..

theorem partlyWrittenPlan_eq_stops_iff {c : List (Option Byte)} {bs : Nat} {style : Style} {f : Fault} :
    partlyWrittenPlan c bs style = .stops f ↔ f = .unwrittenUse ∧ settledError c bs style = none := by
  unfold partlyWrittenPlan
  cases settledError c bs style <;> simp [eq_comm]

theorem initPlan_eq_stops_iff {alg : Alg} {mode : Mode} {ivp : Bool} {keylen : Nat} {s : State} {f : Fault} :
    initPlan alg mode ivp keylen s = .stops f ↔
      f = .unwrittenUse ∧
        (keyRead s keylen = none ∨ ivOrZero s (initReadsIv mode ivp) (blockSize alg) = none) := by
  unfold initPlan
  cases keyRead s keylen <;> cases ivOrZero s (initReadsIv mode ivp) (blockSize alg) <;> simp [eq_comm]

theorem cipherPlan_eq_stops_iff {dir : Dir} {s : State} {f : Fault} :
    cipherPlan dir s = .stops f ↔ f = .unwrittenUse ∧ memRead s 0 (dataLen s) = none := by
  unfold cipherPlan
  cases memRead s 0 (dataLen s) with
  | none => simp [eq_comm]
  | some data =>
    dsimp only
    cases modeApply s.ctx.alg s.ctx.mode s.ckey dir s.chain.toList data <;> simp

theorem unpadPlan_eq_stops_iff {bs : Nat} {style : Style} {s : State} {f : Fault} :
    unpadPlan bs style s = .stops f ↔
      f = .unwrittenUse ∧ memRead s (dataLen s - bs) bs = none ∧
        settledError (Memory.cells s.dbuf (dataLen s - bs) bs) bs style = none := by
  unfold unpadPlan
  cases memRead s (dataLen s - bs) bs with
  | none => simp [partlyWrittenPlan_eq_stops_iff]
  | some g =>
    dsimp only
    cases unpadFn g bs style <;> simp

theorem plaintextPlan_ne_stops {bs : Nat} {key iv data : List Byte} {f : Fault} :
    plaintextPlan bs key iv data ≠ .stops f := by
  unfold plaintextPlan
  split
  · simp
  next r _ => cases unpadFn r.1 bs .pkcs7 <;> simp

theorem decryptUnpadPlan_eq_stops_iff {ivp : Bool} {bs keylen : Nat} {s : State} {f : Fault} :
    decryptUnpadPlan ivp bs keylen s = .stops f ↔
      f = .unwrittenUse ∧
        (keyRead s keylen = none ∨ ivOrZero s ivp 16 = none ∨ memRead s 0 (dataLen s) = none) ∧
        settledError (plaintextCells ivp keylen s) bs .pkcs7 = none := by
  unfold decryptUnpadPlan
  cases keyRead s keylen with
  | none => simp [partlyWrittenPlan_eq_stops_iff]
  | some key =>
    cases ivOrZero s ivp 16 with
    | none => simp [partlyWrittenPlan_eq_stops_iff]
    | some iv =>
      cases memRead s 0 (dataLen s) with
      | none => simp [partlyWrittenPlan_eq_stops_iff]
      | some data => simp [plaintextPlan_ne_stops]

/-- Past its checks a command stops exactly where it consumes an UNWRITTEN byte and no padding error is settled. -/
theorem dataPlan_eq_stops_iff {i : Instr} {s : State} {f : Fault} :
    dataPlan i s = .stops f ↔ f = .unwrittenUse ∧ consumesUnwritten i s ∧ settledPaddingError i s = none := by
  cases i with
  | init alg mode ivp keylen ivlen =>
    simp [dataPlan, initPlan_eq_stops_iff, keyRead, Memory.read_eq_none_iff, ivOrZero_eq_none_iff, initReadsIv,
      consumesUnwritten, consumed, settledPaddingError, Memory.not_hasUnwritten_zero]
  | encrypt | decrypt =>
    simp [dataPlan, cipherPlan_eq_stops_iff, memRead, Memory.read_eq_none_iff, consumesUnwritten, consumed,
      settledPaddingError, dataLen, Memory.not_hasUnwritten_zero]
  | pad bs style | release => simp [dataPlan, consumesUnwritten, consumed]
  | unpad bs style =>
    simp [dataPlan, unpadPlan_eq_stops_iff, memRead, Memory.read_eq_none_iff, consumesUnwritten, consumed,
      settledPaddingError, dataLen, Memory.not_hasUnwritten_zero]
  | decryptUnpad ivp bs keylen ivlen =>
    simp [dataPlan, decryptUnpadPlan_eq_stops_iff, keyRead, memRead, Memory.read_eq_none_iff, ivOrZero_eq_none_iff,
      consumesUnwritten, consumed, settledPaddingError, dataLen]

theorem planOf_eq_stops_iff {i : Instr} {s : State} {f : Fault} :
    planOf i s = .stops f ↔
      f = .unwrittenUse ∧ firstFailing (configChecks i s) = none ∧ consumesUnwritten i s ∧
        settledPaddingError i s = none := by
  cases hf : firstFailing (configChecks i s) with
  | some d => simp [planOf, afterChecks, hf]
  | none => simp [planOf_of_checks hf, dataPlan_eq_stops_iff]

/-! ## When a step stops (R83, R87, R356) -/

theorem exec_eq_fault_iff {i : Instr} {s : State} {f : Fault} : exec i s = .fault f ↔ planOf i s = .stops f := by
  cases hp : planOf i s with
  | does e => simp [exec_of_does hp]
  | raises d => simp [exec_of_raises hp]
  | stops g => simp [exec_of_stops hp]

theorem execute_eq_fault_iff {w : Word} {s : State} {f : Fault} :
    execute w s = .fault f ↔ ∃ i, decode w = .cmd i ∧ planOf i s = .stops f := by
  unfold execute
  cases decode w with
  | illegal d => simp
  | cmd i => simp [exec_eq_fault_iff]

/-- No plan depends on CMDR or on where the host stands (R33). -/
theorem planOf_issued (i : Instr) (s : State) (w : Word) (rest : List HostEvent) :
    planOf i (issued s w rest) = planOf i s := by
  cases i <;> rfl

/-- The checks and operands of a command can be read at the state before the bus write that issues it. -/
theorem execute_issued_eq_fault_iff {s : State} {w : Word} {rest : List HostEvent} {f : Fault} :
    execute w (issued s w rest) = .fault f ↔
      f = .unwrittenUse ∧ ∃ i, decode w = .cmd i ∧ firstFailing (configChecks i s) = none ∧ consumesUnwritten i s ∧
        settledPaddingError i s = none := by
  simp only [execute_eq_fault_iff, planOf_issued, planOf_eq_stops_iff, and_left_comm (b := f = _), exists_and_left]

theorem lanes_eq_none_iff {m : Memory} {o : Nat} : lanes m o = none ↔ m.hasUnwritten o 4 := by
  refine ⟨fun h => ?_, lanes_of_hasUnwritten⟩
  by_contra hall
  obtain ⟨b, hb⟩ := Option.ne_none_iff_exists'.mp fun hn => hall ((Memory.read_eq_none_iff m o 4).mp hn)
  obtain ⟨hlen, hholds⟩ := (Memory.read_eq_some_iff ..).mp hb
  have hget (j : Nat) (hj : j < 4) := hholds j (hlen ▸ hj)
  have hsome := lanes_of_written (hget 0 (by decide)) (hget 1 (by decide)) (hget 2 (by decide)) (hget 3 (by decide))
  cases hsome.symm.trans h

/-- A read finds no value exactly at a word of KEY_IN, IV_IN or DBUF that has an UNWRITTEN byte. -/
theorem busRead_eq_none_iff {s : State} {a : Nat} :
    busRead s a = none ↔
      (0x0040 ≤ a ∧ a < 0x0060 ∧ s.keyIn.hasUnwritten (a - 0x0040) 4) ∨
        (0x0060 ≤ a ∧ a < 0x0070 ∧ s.ivIn.hasUnwritten (a - 0x0060) 4) ∨
        (0x1000 ≤ a ∧ a + 4 ≤ 0x1000 + s.cfg.bufSize ∧ s.dbuf.hasUnwritten (a - 0x1000) 4) := by
  constructor
  · intro h
    unfold busRead target at h
    split_ifs at h with h0 h1 h2 h3 h4 hk hv hc hd
    · exact .inl ⟨hk.1, hk.2, lanes_eq_none_iff.mp h⟩
    · exact .inr (.inl ⟨hv.1, hv.2, lanes_eq_none_iff.mp h⟩)
    · exact .inr (.inr ⟨hd.1, hd.2, lanes_eq_none_iff.mp h⟩)
  · rintro (⟨hlo, hhi, hu⟩ | ⟨hlo, hhi, hu⟩ | ⟨hlo, hhi, hu⟩) <;> unfold busRead
    · rw [target_keyIn hlo hhi]; exact lanes_of_hasUnwritten hu
    · rw [target_ivIn hlo hhi]; exact lanes_of_hasUnwritten hu
    · rw [target_dbuf hlo hhi]; exact lanes_of_hasUnwritten hu

/-! ## What the step over one access ends in (R82, R83, R86 to R88) -/

theorem exec_ne_refused {i : Instr} {s : State} {r : Refusal} : exec i s ≠ .refused r :=
  exec_eq_finish i s ▸ finish_not_refused

theorem execute_ne_refused {w : Word} {s : State} {r : Refusal} : execute w s ≠ .refused r := by
  unfold execute
  split
  · simp
  · exact exec_ne_refused

section Access

variable {s : State} {rest : List HostEvent} {width : AccessWidth} {a : BitVec 16} {v : Word}

/-- A read stops as misaligned, stops at an UNWRITTEN byte, or returns a word. -/
theorem step_read_outcome (hp : s.pending = .read width a :: rest) :
    ((width ≠ .word ∨ a.toNat % 4 ≠ 0) ∧ step s = .fault .busMisaligned) ∨
      ((width = .word ∧ a.toNat % 4 = 0) ∧
        (busRead s a.toNat = none ∧ step s = .fault .unwrittenRead ∨
          busRead s a.toNat ≠ none ∧ ∃ t, step s = .next t)) := by
  by_cases hok : width = .word ∧ a.toNat % 4 = 0
  · obtain ⟨rfl, h4⟩ := hok
    refine .inr ⟨⟨rfl, h4⟩, ?_⟩
    cases hr : busRead s a.toNat with
    | none => exact .inl ⟨rfl, step_read_faults hp h4 hr⟩
    | some x => exact .inr ⟨Option.some_ne_none x, _, step_read_returns hp h4 hr⟩
  · have hbad := Decidable.not_and_iff_or_not.mp hok
    exact .inl ⟨hbad, step_read_misaligned hp hbad⟩

/-- A write stops as misaligned, executes the word written to CMD, or stores what it stores. -/
theorem step_write_outcome (hp : s.pending = .write width a v :: rest) :
    ((width ≠ .word ∨ a.toNat % 4 ≠ 0) ∧ step s = .fault .busMisaligned) ∨
      ((width = .word ∧ a.toNat % 4 = 0) ∧
        (a = 0x0000 ∧ step s = execute v (issued s v rest) ∨ a ≠ 0x0000 ∧ ∃ t, step s = .next t)) := by
  by_cases hok : width = .word ∧ a.toNat % 4 = 0
  · obtain ⟨rfl, h4⟩ := hok
    refine .inr ⟨⟨rfl, h4⟩, ?_⟩
    by_cases h0 : a = 0x0000
    · subst h0
      exact .inl ⟨rfl, step_command hp⟩
    · exact .inr ⟨h0, _, step_write_of_ne_cmd hp h4 fun h => h0 (BitVec.eq_of_toNat_eq h)⟩
  · have hbad := Decidable.not_and_iff_or_not.mp hok
    exact .inl ⟨hbad, step_write_misaligned hp hbad⟩

theorem step_read_eq_fault_iff (hp : s.pending = .read width a :: rest) {f : Fault} :
    step s = .fault f ↔
      (f = .busMisaligned ∧ (width ≠ .word ∨ a.toNat % 4 ≠ 0)) ∨
        (f = .unwrittenRead ∧ width = .word ∧ a.toNat % 4 = 0 ∧ busRead s a.toNat = none) := by
  rcases step_read_outcome hp with ⟨hbad, h⟩ | ⟨⟨rfl, h4⟩, ⟨hr, h⟩ | ⟨hr, t, h⟩⟩
  · have hnot : ¬ (width = .word ∧ a.toNat % 4 = 0) := Decidable.not_and_iff_or_not.mpr hbad
    simp [h, hbad, ← and_assoc (a := width = _), hnot, eq_comm (b := f)]
  · simp [h, h4, hr, eq_comm (b := f)]
  · simp [h, h4, hr]

theorem step_write_eq_fault_iff (hp : s.pending = .write width a v :: rest) {f : Fault} :
    step s = .fault f ↔
      (f = .busMisaligned ∧ (width ≠ .word ∨ a.toNat % 4 ≠ 0)) ∨
        (width = .word ∧ a = 0x0000 ∧ execute v (issued s v rest) = .fault f) := by
  rcases step_write_outcome hp with ⟨hbad, h⟩ | ⟨⟨rfl, h4⟩, ⟨rfl, h⟩ | ⟨h0, t, h⟩⟩
  · have hnot : ¬ (width = .word ∧ a = 0x0000) := by rintro ⟨rfl, rfl⟩; simp at hbad
    simp only [h, hbad, and_true, ← and_assoc (a := width = _), hnot, false_and, or_false, Host.Outcome.fault.injEq,
      eq_comm (b := f)]
  · simp [h]
  · simp only [h, h4, h0, reduceCtorEq, ne_eq, not_true_eq_false, or_false, and_false, false_and]

end Access

theorem step_ne_refused {s : State} {r : Refusal} : step s ≠ .refused r := by
  match hp : s.pending with
  | [] => simp [step, hostStep, hp]
  | .read width a :: rest =>
    rcases step_read_outcome hp with ⟨-, h⟩ | ⟨-, ⟨-, h⟩ | ⟨-, t, h⟩⟩ <;> simp [h]
  | .write width a v :: rest =>
    rcases step_write_outcome hp with ⟨-, h⟩ | ⟨-, ⟨-, h⟩ | ⟨-, t, h⟩⟩ <;> simp [h, execute_ne_refused]
  | .reset :: rest => simp [step, hostStep, hp, hostEvent]

end Sys2Proof.Machine
end

section
/-! The statements about errors, model faults and idleness (60_exceptions.md), settled. -/

namespace Sys2Proof.Machine

/-- Settles O20: the faults of the access the step takes; RESET and idleness have none. -/
theorem stepsStopExactlyAtModelFaults : Obligations.StepsStopExactlyAtModelFaults := by
  refine fun s => ⟨fun r => step_ne_refused, fun f => ?_⟩
  match hp : s.pending with
  | [] => simp [step, hostStep, hp]
  | .read width a :: rest =>
    simp [step_read_eq_fault_iff hp, busRead_eq_none_iff]
  | .write width a v :: rest =>
    rw [step_write_eq_fault_iff hp, execute_issued_eq_fault_iff]
    simp [and_assoc, and_left_comm (b := f = _)]
  | .reset :: rest => simp [step, hostStep, hp, hostEvent]

/-- Settles O21: the two words as numbers, with the OPC the low four bits of the word. -/
theorem statusWordAfterEveryCommand : Obligations.StatusWordAfterEveryCommand := by
  refine ⟨fun w s t h => ?_, by decide⟩
  rcases execute_status h with ht | ⟨d, ht⟩
  · exact .inl (by rw [ht, successWord_toNat, opc_toNat])
  · exact .inr ⟨d, by rw [ht, failWord_toNat, opc_toNat]⟩

/-- Settles O22: a reported detail is one the command's plan raises. -/
theorem detailsAreReportedByTheirCommands : Obligations.DetailsAreReportedByTheirCommands :=
  ⟨by decide, fun _ _ _ _ h ht => raisedBy_of_planOf (planOf_of_reported h ht), fun _ _ => detail_of_decode_illegal⟩

/-- Settles O23: STATUS.ERR is set by an error report only, and that writes nothing else. -/
theorem failingCommandChangesStatusOnly : Obligations.FailingCommandChangesStatusOnly := by
  intro w s t h herr
  obtain ⟨opc, d, rfl⟩ := execute_fails h herr
  rfl

/-- Settles O25: the first failing check is the plan of the command, and without one the plan is that of its data. -/
theorem firstFailingCheckIsReported : Obligations.FirstFailingCheckIsReported := by
  refine fun i s => ⟨fun d hd => exec_of_raises ?_, fun hnone t d h ht => ?_⟩
  · simp only [planOf, afterChecks, hd]
  · exact (kind_and_raisedBy_of_dataPlan hnone (planOf_of_checks hnone ▸ planOf_of_reported h ht)).1

/-- Settles O9: with no event in the list there is nothing to do. -/
theorem idleBlockKeepsItsState : Obligations.IdleBlockKeepsItsState := by
  intro s hp
  simp only [step, hostStep, hp]

end Sys2Proof.Machine
end

section
/-! SUPPORT. The RESET step, and what a block just reset answers to a read (70_reset_and_hazards.md R370, R371). -/

namespace Sys2Proof.Machine

/-- A step over RESET, from any state (R370). -/
theorem step_reset {s : State} {rest : List HostEvent} (hp : s.pending = .reset :: rest) :
    step s = .next (resetBlock { s with pending := rest }) := by
  simp only [step, hostStep, hp, hostEvent]

@[simp] theorem State.resetWith_cfg (c : Config) : (State.resetWith c).cfg = c := rfl

/-- A window with no written cell has no written word. -/
theorem Memory.hasUnwritten_nil (o : Nat) : Memory.hasUnwritten [] o 4 := ⟨0, by decide, rfl⟩

theorem chainLanes_zeroChain {o : Nat} (h : o + 4 ≤ 16) : chainLanes zeroChain o = 0 := by
  simp only [chainLanes, zeroChain_getD (show o < 16 by omega), zeroChain_getD (show o + 1 < 16 by omega),
    zeroChain_getD (show o + 2 < 16 by omega), zeroChain_getD (show o + 3 < 16 by omega)]
  rfl

section ReadAfterReset

variable {c : Config} {a : BitVec 16}

theorem step_read_after_reset (h4 : a.toNat % 4 = 0) {v : Word}
    (hv : busRead (State.resetWith c) a.toNat = some v) :
    step { State.resetWith c with pending := [.read .word a] } = .next { State.resetWith c with reads := [v] } :=
  step_read_returns (s := awaiting (State.resetWith c) _) rfl h4 hv

/-- Right after reset a read of a word inside KEY_IN, IV_IN or DBUF finds every byte UNWRITTEN. -/
theorem step_read_after_reset_faults (h4 : a.toNat % 4 = 0) (h : (0x0040 ≤ a.toNat ∧ a.toNat < 0x0070) ∨
    (0x1000 ≤ a.toNat ∧ a.toNat + 4 ≤ 0x1000 + c.bufSize)) :
    step { State.resetWith c with pending := [.read .word a] } = .fault .unwrittenRead := by
  refine step_read_faults rfl h4 (busRead_eq_none_iff.mpr ?_)
  rcases h with ⟨hlo, hhi⟩ | ⟨hlo, hhi⟩
  · rcases Nat.lt_or_ge a.toNat 0x0060 with hk | hi
    · exact .inl ⟨hlo, hk, Memory.hasUnwritten_nil _⟩
    · exact .inr (.inl ⟨hi, hhi, Memory.hasUnwritten_nil _⟩)
  · exact .inr (.inr ⟨hlo, hhi, Memory.hasUnwritten_nil _⟩)

end ReadAfterReset

/-- The base case of the invariant. -/
theorem StateInv.resetWith {c : Config} (hc : c.legal) : StateInv (State.resetWith c) where
  cfgLegal := hc
  keyInWf := ⟨.nil, List.forall_mem_nil _⟩
  ivInWf := ⟨.nil, List.forall_mem_nil _⟩
  dbufWf := ⟨.nil, List.forall_mem_nil _⟩
  noContext := fun _ => ⟨rfl, rfl, rfl⟩
  context := fun h => by cases h
  ecbChain := fun _ => rfl
  chainTail := fun _ _ hj => zeroChain_getD hj
  statusForm := statusWellFormed_zero

end Sys2Proof.Machine
end

section
/-! The statements about reset (70_reset_and_hazards.md), settled. -/

namespace Sys2Proof.Machine

/-- Settles O8, offset by offset: the word `busRead` answers for the target, or none for a window's word. -/
theorem resetStateReadsBack : Obligations.ResetStateReadsBack := by
  refine ⟨rfl, ?_⟩
  rintro c ⟨hmod, -, -⟩ a h4 readsAs faults
  have hread : ∀ {v : Word}, busRead (State.resetWith c) a.toNat = some v → readsAs v := step_read_after_reset h4
  refine ⟨?_, ?_, fun hlo hhi => ?_, fun hlo hhi => hread ?_, fun hlo hhi => ?_, fun h => hread ?_, rfl⟩
  · rintro (rfl | rfl | rfl | rfl) <;> exact hread rfl
  · rintro rfl
    exact hread rfl
  · exact step_read_after_reset_faults h4 (.inl ⟨hlo, hhi⟩)
  · rw [busRead, target_chain hlo hhi]
    exact congrArg some (chainLanes_zeroChain (by omega))
  · have hword : a.toNat + 4 ≤ 0x1000 + c.bufSize := by omega
    exact step_read_after_reset_faults h4 (.inr ⟨hlo, hword⟩)
  · have hreserved : (0x0014 ≤ a.toNat ∧ a.toNat < 0x0040) ∨ (0x0080 ≤ a.toNat ∧ a.toNat < 0x1000) ∨
        (0x1000 ≤ a.toNat ∧ 0x1000 + c.bufSize < a.toNat + 4) := by omega
    rw [busRead, State.resetWith_cfg, target_reserved hreserved]

/-- Settles O7: the step leads to `resetBlock`, whose components are its reset values. -/
theorem resetEventGivesTheResetState : Obligations.ResetEventGivesTheResetState := by
  intro s rest hp
  exact ⟨_, step_reset hp, rfl, rfl, rfl, rfl, rfl, rfl, rfl, rfl, fun _ hj => zeroChain_getD hj, fun _ => rfl,
    fun _ => rfl, fun _ => rfl, rfl, rfl⟩

/-- Settles O19: the machine's own reset state is that of the reference configuration, which is legal. -/
theorem resetMeetsTheInvariant : Obligations.ResetMeetsTheInvariant :=
  ⟨fun _ hc => .resetWith hc, .resetWith (c := Config.reference) (by decide)⟩

end Sys2Proof.Machine
end
